-- ==== Sys2Proof/Word.lean ====
section
/-! DEFINITION. The two word types of the machine: a byte (u8) and an address (u16), R11 and R50. -/

namespace Sys2Proof

/-- u8: the contents of A, X, Y, SP and of every memory location (R8, R11). -/
abbrev Byte := BitVec 8

/-- u16: the program counter and every bus address (R8, R11, R50). -/
abbrev Addr := BitVec 16

end Sys2Proof
end

