-- ==== Sys2Proof/Machine/Bits.lean ====
section
/-! DEFINITION. The byte-order, page and sign helpers of R10, R11 and R51, used by the decoder and the machine. -/

namespace Sys2Proof

/-- A 16-bit quantity from its two bytes: `(hi << 8) | lo` (R10, R51). -/
def word (lo hi : Byte) : Addr := hi ++ lo

/-- Bits 7..0 of an address. -/
def loByte (a : Addr) : Byte := a.extractLsb' 0 8

/-- Bits 15..8 of an address: its page (R17). -/
def hiByte (a : Addr) : Byte := a.extractLsb' 8 8

/-- A zero-page address: `zext_16(b)` (R11, R89). -/
def zeroPage (b : Byte) : Addr := b.zeroExtend 16

/-- The stack location of an 8-bit stack pointer: `0x0100 | SP` (R13, R24). -/
def stackAddr (sp : Byte) : Addr := 0x0100#16 ||| sp.zeroExtend 16

/-- A branch offset widened to an address: `s8(b)` modulo 2^16 (R11, R96). -/
def branchOffset (b : Byte) : Addr := b.signExtend 16

/-- Do two addresses lie in different pages (R17 "page cross")? -/
def otherPage (a b : Addr) : Bool := hiByte a != hiByte b

/-- Byte `k` of a number, byte 0 the least significant. -/
def byteOfNat (w k : Nat) : Byte := BitVec.ofNat 8 (w / 256 ^ k)

end Sys2Proof
end

