-- ==== Sys2Proof/Syntax.lean ====
section
/-! DEFINITION. The instructions of spec/opcode_table.json as syntax: one constructor per instruction, its operand
forms as arguments, and the two interrupt pseudo-opcodes. Operand forms are those of R81; a zero-page operand is its
byte, an absolute operand its 16-bit word. An instruction with several opcode bytes of one form (KIL, the undocumented
NOPs, ANC) carries its opcode byte. -/

namespace Sys2Proof

/-- A memory operand: the formats zp, zpx, zpy, abs, abx, aby, izx, izy of R81. -/
inductive Mem where
  | zp  (b : Byte)   -- $nn
  | zpx (b : Byte)   -- $nn,X
  | zpy (b : Byte)   -- $nn,Y
  | abs (w : Addr)   -- $nnnn
  | abx (w : Addr)   -- $nnnn,X
  | aby (w : Addr)   -- $nnnn,Y
  | izx (b : Byte)   -- ($nn,X)
  | izy (b : Byte)   -- ($nn),Y
  deriving DecidableEq, Repr

/-- The operand of a read instruction: immediate or memory. -/
inductive Src where
  | imm (b : Byte)   -- #$nn
  | mem (m : Mem)
  deriving DecidableEq, Repr

/-- The operand of a shift or rotate: the accumulator or memory (R160). -/
inductive Dst where
  | acc              -- A
  | mem (m : Mem)
  deriving DecidableEq, Repr

/-- The operand of JMP: absolute or indirect (R179). -/
inductive Target where
  | abs (w : Addr)   -- $nnnn
  | ind (w : Addr)   -- ($nnnn)
  deriving DecidableEq, Repr

/-- The operand of an undocumented NOP: none, immediate or memory (R224). -/
inductive NopArg where
  | imp
  | imm (b : Byte)
  | mem (m : Mem)
  deriving DecidableEq, Repr

inductive Instr where
  -- 40_load_store_transfer.md
  | lda (src : Src)
  | ldx (src : Src)
  | ldy (src : Src)
  | sta (m : Mem)
  | stx (m : Mem)
  | sty (m : Mem)
  | tax
  | tay
  | txa
  | tya
  | tsx
  | txs
  -- 41_arith_logic.md
  | adc (src : Src)
  | sbc (src : Src)
  | and (src : Src)
  | ora (src : Src)
  | eor (src : Src)
  | cmp (src : Src)
  | cpx (src : Src)
  | cpy (src : Src)
  | bit (m : Mem)
  | inc (m : Mem)
  | dec (m : Mem)
  | inx
  | iny
  | dex
  | dey
  -- 42_shift_rotate.md
  | asl (d : Dst)
  | lsr (d : Dst)
  | rol (d : Dst)
  | ror (d : Dst)
  -- 43_control.md
  | bpl (off : Byte)
  | bmi (off : Byte)
  | bvc (off : Byte)
  | bvs (off : Byte)
  | bcc (off : Byte)
  | bcs (off : Byte)
  | bne (off : Byte)
  | beq (off : Byte)
  | jmp (t : Target)
  | jsr (w : Addr)
  | rts
  | brk
  | rti
  -- 44_stack_flags.md
  | pha
  | php
  | pla
  | plp
  | clc
  | sec
  | cli
  | sei
  | cld
  | sed
  | clv
  | nop
  -- 45_undocumented.md
  | slo (m : Mem)
  | rla (m : Mem)
  | sre (m : Mem)
  | rra (m : Mem)
  | sax (m : Mem)
  | lax (m : Mem)
  | dcp (m : Mem)
  | isc (m : Mem)
  | anc (op b : Byte)
  | alr (b : Byte)
  | arr (b : Byte)
  | axs (b : Byte)
  | sbcUndoc (b : Byte)
  | nopUndoc (op : Byte) (arg : NopArg)
  | kil (op : Byte)
  | las (w : Addr)
  | xaa (b : Byte)
  | lxa (b : Byte)
  | ahx (m : Mem)
  | tas (w : Addr)
  | shy (w : Addr)
  | shx (w : Addr)
  -- 60_exceptions.md: the pseudo-opcodes 0x100 and 0x101 (R101)
  | nmi
  | irq
  deriving DecidableEq, Repr

end Sys2Proof
end

