-- ==== Sys2Proof/WellFormed.lean ====
section
/-! DEFINITION. Which operand forms and opcode bytes each instruction has: the rows of spec/opcode_table.json. -/

namespace Sys2Proof

/-- The formats of a memory operand, without its bytes (R81). -/
inductive Form where
  | zp | zpx | zpy | abs | abx | aby | izx | izy
  deriving DecidableEq, Repr

def Mem.form : Mem → Form
  | .zp _ => .zp
  | .zpx _ => .zpx
  | .zpy _ => .zpy
  | .abs _ => .abs
  | .abx _ => .abx
  | .aby _ => .aby
  | .izx _ => .izx
  | .izy _ => .izy

/-- Is the memory operand of one of these forms? -/
def Mem.hasForm (m : Mem) (fs : List Form) : Bool := fs.contains m.form

/-- Is the operand immediate, or of one of these forms? -/
def Src.hasForm : Src → List Form → Bool
  | .imm _, _ => true
  | .mem m, fs => m.hasForm fs

/-- Is the operand the accumulator, or of one of these forms? -/
def Dst.hasForm : Dst → List Form → Bool
  | .acc, _ => true
  | .mem m, fs => m.hasForm fs

/-- The seven memory forms of the accumulator and combined read-modify-write instructions. -/
def sevenForms : List Form := [.zp, .zpx, .abs, .abx, .aby, .izx, .izy]

/-- The four memory forms of INC, DEC and the shifts. -/
def rmwForms : List Form := [.zp, .zpx, .abs, .abx]

/-- The opcode bytes of KIL (R100, R225). -/
def kilOpcodes : List Byte :=
  [0x02#8, 0x12#8, 0x22#8, 0x32#8, 0x42#8, 0x52#8, 0x62#8, 0x72#8, 0x92#8, 0xB2#8, 0xD2#8, 0xF2#8]

/-- The opcode bytes of the undocumented NOPs, by form (R100, R224). -/
def nopOpcodes : NopArg → List Byte
  | .imp => [0x1A#8, 0x3A#8, 0x5A#8, 0x7A#8, 0xDA#8, 0xFA#8]
  | .imm _ => [0x80#8, 0x82#8, 0x89#8, 0xC2#8, 0xE2#8]
  | .mem (.zp _) => [0x04#8, 0x44#8, 0x64#8]
  | .mem (.zpx _) => [0x14#8, 0x34#8, 0x54#8, 0x74#8, 0xD4#8, 0xF4#8]
  | .mem (.abs _) => [0x0C#8]
  | .mem (.abx _) => [0x1C#8, 0x3C#8, 0x5C#8, 0x7C#8, 0xDC#8, 0xFC#8]
  | .mem (.zpy _) => []
  | .mem (.aby _) => []
  | .mem (.izx _) => []
  | .mem (.izy _) => []

/-- The instruction is a row of the opcode table. -/
def Instr.wf : Instr → Bool
  | .lda src | .adc src | .sbc src | .and src | .ora src | .eor src | .cmp src => src.hasForm sevenForms
  | .ldx src => src.hasForm [.zp, .zpy, .abs, .aby]
  | .ldy src => src.hasForm [.zp, .zpx, .abs, .abx]
  | .cpx src | .cpy src => src.hasForm [.zp, .abs]
  | .sta m | .slo m | .rla m | .sre m | .rra m | .dcp m | .isc m => m.hasForm sevenForms
  | .stx m => m.hasForm [.zp, .zpy, .abs]
  | .sty m => m.hasForm [.zp, .zpx, .abs]
  | .bit m => m.hasForm [.zp, .abs]
  | .inc m | .dec m => m.hasForm rmwForms
  | .asl d | .lsr d | .rol d | .ror d => d.hasForm rmwForms
  | .sax m => m.hasForm [.zp, .zpy, .abs, .izx]
  | .lax m => m.hasForm [.zp, .zpy, .abs, .aby, .izx, .izy]
  | .ahx m => m.hasForm [.aby, .izy]
  | .anc op _ => op == 0x0B#8 || op == 0x2B#8
  | .nopUndoc op arg => (nopOpcodes arg).contains op
  | .kil op => kilOpcodes.contains op
  | .tax | .tay | .txa | .tya | .tsx | .txs | .inx | .iny | .dex | .dey => true
  | .bpl _ | .bmi _ | .bvc _ | .bvs _ | .bcc _ | .bcs _ | .bne _ | .beq _ => true
  | .jmp _ | .jsr _ | .rts | .brk | .rti => true
  | .pha | .php | .pla | .plp | .clc | .sec | .cli | .sei | .cld | .sed | .clv | .nop => true
  | .alr _ | .arr _ | .axs _ | .sbcUndoc _ | .las _ | .xaa _ | .lxa _ | .tas _ | .shy _ | .shx _ => true
  | .nmi | .irq => true

/-- The two table rows that no byte value decodes to (R101). -/
def Instr.isPseudo : Instr → Bool
  | .nmi | .irq => true
  | _ => false

end Sys2Proof
end

