-- ==== Sys2Proof/Decode.lean ====
section
/-! DEFINITION. The decoder: the opcode map of R99 as sixteen rows of sixteen cells, total on every byte (R102), and then
the encoder, written from the "Encodings" line of each instruction's own rule. -/

namespace Sys2Proof

/-- One cell of the opcode map: the instruction made from the two bytes after the opcode byte, of which a format uses
none, the first, or both (R81). -/
abbrev OpcodeCell := Byte → Byte → Instr

/-! The formats of R81 as makers of cells. -/

def cImp (i : Instr) : OpcodeCell := fun _ _ => i
def cImm (f : Byte → Instr) : OpcodeCell := fun l _ => f l
def cZp  (f : Mem → Instr) : OpcodeCell := fun l _ => f (.zp l)
def cZpx (f : Mem → Instr) : OpcodeCell := fun l _ => f (.zpx l)
def cZpy (f : Mem → Instr) : OpcodeCell := fun l _ => f (.zpy l)
def cIzx (f : Mem → Instr) : OpcodeCell := fun l _ => f (.izx l)
def cIzy (f : Mem → Instr) : OpcodeCell := fun l _ => f (.izy l)
def cAbs (f : Mem → Instr) : OpcodeCell := fun l h => f (.abs (word l h))
def cAbx (f : Mem → Instr) : OpcodeCell := fun l h => f (.abx (word l h))
def cAby (f : Mem → Instr) : OpcodeCell := fun l h => f (.aby (word l h))
def cWord (f : Addr → Instr) : OpcodeCell := fun l h => f (word l h)

/-- A read instruction with a memory operand. -/
def rd (f : Src → Instr) (m : Mem) : Instr := f (.mem m)

/-- A shift or rotate with a memory operand. -/
def sh (f : Dst → Instr) (m : Mem) : Instr := f (.mem m)

/-- An undocumented NOP with a memory operand. -/
def nopMem (op : Byte) (m : Mem) : Instr := .nopUndoc op (.mem m)

/-- R99, row 0x. -/
def row0 : Vector OpcodeCell 16 := #v[
  cImp .brk, cIzx (rd .ora), cImp (.kil 0x02#8), cIzx .slo,
  cZp (nopMem 0x04#8), cZp (rd .ora), cZp (sh .asl), cZp .slo,
  cImp .php, cImm (fun b => .ora (.imm b)), cImp (.asl .acc), cImm (.anc 0x0B#8),
  cAbs (nopMem 0x0C#8), cAbs (rd .ora), cAbs (sh .asl), cAbs .slo]

/-- R99, row 1x. -/
def row1 : Vector OpcodeCell 16 := #v[
  cImm .bpl, cIzy (rd .ora), cImp (.kil 0x12#8), cIzy .slo,
  cZpx (nopMem 0x14#8), cZpx (rd .ora), cZpx (sh .asl), cZpx .slo,
  cImp .clc, cAby (rd .ora), cImp (.nopUndoc 0x1A#8 .imp), cAby .slo,
  cAbx (nopMem 0x1C#8), cAbx (rd .ora), cAbx (sh .asl), cAbx .slo]

/-- R99, row 2x. -/
def row2 : Vector OpcodeCell 16 := #v[
  cWord .jsr, cIzx (rd .and), cImp (.kil 0x22#8), cIzx .rla,
  cZp .bit, cZp (rd .and), cZp (sh .rol), cZp .rla,
  cImp .plp, cImm (fun b => .and (.imm b)), cImp (.rol .acc), cImm (.anc 0x2B#8),
  cAbs .bit, cAbs (rd .and), cAbs (sh .rol), cAbs .rla]

/-- R99, row 3x. -/
def row3 : Vector OpcodeCell 16 := #v[
  cImm .bmi, cIzy (rd .and), cImp (.kil 0x32#8), cIzy .rla,
  cZpx (nopMem 0x34#8), cZpx (rd .and), cZpx (sh .rol), cZpx .rla,
  cImp .sec, cAby (rd .and), cImp (.nopUndoc 0x3A#8 .imp), cAby .rla,
  cAbx (nopMem 0x3C#8), cAbx (rd .and), cAbx (sh .rol), cAbx .rla]

/-- R99, row 4x. -/
def row4 : Vector OpcodeCell 16 := #v[
  cImp .rti, cIzx (rd .eor), cImp (.kil 0x42#8), cIzx .sre,
  cZp (nopMem 0x44#8), cZp (rd .eor), cZp (sh .lsr), cZp .sre,
  cImp .pha, cImm (fun b => .eor (.imm b)), cImp (.lsr .acc), cImm .alr,
  cWord (fun w => .jmp (.abs w)), cAbs (rd .eor), cAbs (sh .lsr), cAbs .sre]

/-- R99, row 5x. -/
def row5 : Vector OpcodeCell 16 := #v[
  cImm .bvc, cIzy (rd .eor), cImp (.kil 0x52#8), cIzy .sre,
  cZpx (nopMem 0x54#8), cZpx (rd .eor), cZpx (sh .lsr), cZpx .sre,
  cImp .cli, cAby (rd .eor), cImp (.nopUndoc 0x5A#8 .imp), cAby .sre,
  cAbx (nopMem 0x5C#8), cAbx (rd .eor), cAbx (sh .lsr), cAbx .sre]

/-- R99, row 6x. -/
def row6 : Vector OpcodeCell 16 := #v[
  cImp .rts, cIzx (rd .adc), cImp (.kil 0x62#8), cIzx .rra,
  cZp (nopMem 0x64#8), cZp (rd .adc), cZp (sh .ror), cZp .rra,
  cImp .pla, cImm (fun b => .adc (.imm b)), cImp (.ror .acc), cImm .arr,
  cWord (fun w => .jmp (.ind w)), cAbs (rd .adc), cAbs (sh .ror), cAbs .rra]

/-- R99, row 7x. -/
def row7 : Vector OpcodeCell 16 := #v[
  cImm .bvs, cIzy (rd .adc), cImp (.kil 0x72#8), cIzy .rra,
  cZpx (nopMem 0x74#8), cZpx (rd .adc), cZpx (sh .ror), cZpx .rra,
  cImp .sei, cAby (rd .adc), cImp (.nopUndoc 0x7A#8 .imp), cAby .rra,
  cAbx (nopMem 0x7C#8), cAbx (rd .adc), cAbx (sh .ror), cAbx .rra]

/-- R99, row 8x. -/
def row8 : Vector OpcodeCell 16 := #v[
  cImm (fun b => .nopUndoc 0x80#8 (.imm b)), cIzx .sta, cImm (fun b => .nopUndoc 0x82#8 (.imm b)), cIzx .sax,
  cZp .sty, cZp .sta, cZp .stx, cZp .sax,
  cImp .dey, cImm (fun b => .nopUndoc 0x89#8 (.imm b)), cImp .txa, cImm .xaa,
  cAbs .sty, cAbs .sta, cAbs .stx, cAbs .sax]

/-- R99, row 9x. -/
def row9 : Vector OpcodeCell 16 := #v[
  cImm .bcc, cIzy .sta, cImp (.kil 0x92#8), cIzy .ahx,
  cZpx .sty, cZpx .sta, cZpy .stx, cZpy .sax,
  cImp .tya, cAby .sta, cImp .txs, cWord .tas,
  cWord .shy, cAbx .sta, cWord .shx, cAby .ahx]

/-- R99, row Ax. -/
def rowA : Vector OpcodeCell 16 := #v[
  cImm (fun b => .ldy (.imm b)), cIzx (rd .lda), cImm (fun b => .ldx (.imm b)), cIzx .lax,
  cZp (rd .ldy), cZp (rd .lda), cZp (rd .ldx), cZp .lax,
  cImp .tay, cImm (fun b => .lda (.imm b)), cImp .tax, cImm .lxa,
  cAbs (rd .ldy), cAbs (rd .lda), cAbs (rd .ldx), cAbs .lax]

/-- R99, row Bx. -/
def rowB : Vector OpcodeCell 16 := #v[
  cImm .bcs, cIzy (rd .lda), cImp (.kil 0xB2#8), cIzy .lax,
  cZpx (rd .ldy), cZpx (rd .lda), cZpy (rd .ldx), cZpy .lax,
  cImp .clv, cAby (rd .lda), cImp .tsx, cWord .las,
  cAbx (rd .ldy), cAbx (rd .lda), cAby (rd .ldx), cAby .lax]

/-- R99, row Cx. -/
def rowC : Vector OpcodeCell 16 := #v[
  cImm (fun b => .cpy (.imm b)), cIzx (rd .cmp), cImm (fun b => .nopUndoc 0xC2#8 (.imm b)), cIzx .dcp,
  cZp (rd .cpy), cZp (rd .cmp), cZp .dec, cZp .dcp,
  cImp .iny, cImm (fun b => .cmp (.imm b)), cImp .dex, cImm .axs,
  cAbs (rd .cpy), cAbs (rd .cmp), cAbs .dec, cAbs .dcp]

/-- R99, row Dx. -/
def rowD : Vector OpcodeCell 16 := #v[
  cImm .bne, cIzy (rd .cmp), cImp (.kil 0xD2#8), cIzy .dcp,
  cZpx (nopMem 0xD4#8), cZpx (rd .cmp), cZpx .dec, cZpx .dcp,
  cImp .cld, cAby (rd .cmp), cImp (.nopUndoc 0xDA#8 .imp), cAby .dcp,
  cAbx (nopMem 0xDC#8), cAbx (rd .cmp), cAbx .dec, cAbx .dcp]

/-- R99, row Ex. -/
def rowE : Vector OpcodeCell 16 := #v[
  cImm (fun b => .cpx (.imm b)), cIzx (rd .sbc), cImm (fun b => .nopUndoc 0xE2#8 (.imm b)), cIzx .isc,
  cZp (rd .cpx), cZp (rd .sbc), cZp .inc, cZp .isc,
  cImp .inx, cImm (fun b => .sbc (.imm b)), cImp .nop, cImm .sbcUndoc,
  cAbs (rd .cpx), cAbs (rd .sbc), cAbs .inc, cAbs .isc]

/-- R99, row Fx. -/
def rowF : Vector OpcodeCell 16 := #v[
  cImm .beq, cIzy (rd .sbc), cImp (.kil 0xF2#8), cIzy .isc,
  cZpx (nopMem 0xF4#8), cZpx (rd .sbc), cZpx .inc, cZpx .isc,
  cImp .sed, cAby (rd .sbc), cImp (.nopUndoc 0xFA#8 .imp), cAby .isc,
  cAbx (nopMem 0xFC#8), cAbx (rd .sbc), cAbx .inc, cAbx .isc]

/-- The opcode map of R99: row = high hex digit, column = low hex digit. -/
def opcodeMap : Vector (Vector OpcodeCell 16) 16 := #v[
  row0, row1, row2, row3, row4, row5, row6, row7, row8, row9, rowA, rowB, rowC, rowD, rowE, rowF]

/-- The instruction of an opcode byte and the two bytes after it, of which it uses as many as its length says (R80, R81). -/
def decodeOp (op l h : Byte) : Instr :=
  have hrow : op.toNat / 16 < 16 := by have := op.isLt; omega
  have hcol : op.toNat % 16 < 16 := Nat.mod_lt _ (by decide)
  (opcodeMap[op.toNat / 16][op.toNat % 16]) l h

/-- How many bytes a memory operand has (R81). -/
def Mem.size : Mem → Nat
  | .zp _ | .zpx _ | .zpy _ | .izx _ | .izy _ => 1
  | .abs _ | .abx _ | .aby _ => 2

/-- How many bytes a read operand has (R81). -/
def Src.size : Src → Nat
  | .imm _ => 1
  | .mem m => m.size

/-- How many bytes a shift operand has (R81). -/
def Dst.size : Dst → Nat
  | .acc => 0
  | .mem m => m.size

/-- How many bytes the operand of an undocumented NOP has (R224). -/
def NopArg.size : NopArg → Nat
  | .imp => 0
  | .imm _ => 1
  | .mem m => m.size

/-- How many operand bytes follow the opcode byte (R81). -/
def Instr.operandSize : Instr → Nat
  | .lda src | .ldx src | .ldy src | .adc src | .sbc src | .and src | .ora src | .eor src | .cmp src | .cpx src
  | .cpy src => src.size
  | .sta m | .stx m | .sty m | .bit m | .inc m | .dec m | .slo m | .rla m | .sre m | .rra m | .sax m | .lax m | .dcp m
  | .isc m | .ahx m => m.size
  | .asl d | .lsr d | .rol d | .ror d => d.size
  | .bpl _ | .bmi _ | .bvc _ | .bvs _ | .bcc _ | .bcs _ | .bne _ | .beq _ => 1
  | .jmp _ | .jsr _ | .las _ | .tas _ | .shy _ | .shx _ => 2
  | .anc _ _ | .alr _ | .arr _ | .axs _ | .sbcUndoc _ | .xaa _ | .lxa _ => 1
  | .nopUndoc _ arg => arg.size
  | .tax | .tay | .txa | .tya | .tsx | .txs | .inx | .iny | .dex | .dey | .rts | .brk | .rti | .pha | .php | .pla
  | .plp | .clc | .sec | .cli | .sei | .cld | .sed | .clv | .nop | .kil _ | .nmi | .irq => 0

/-- How many operand bytes an opcode byte is followed by: a function of the opcode alone (R81, R82). -/
def operandCount (op : Byte) : Nat := (decodeOp op 0#8 0#8).operandSize

/-- Why a list of bytes is no instruction: it ends too early. No byte value is rejected (R102). -/
inductive DecodeError where
  | noOpcode     -- there is no byte at all
  | noOperand    -- the opcode's operand bytes are missing
  deriving DecidableEq, Repr

/-- Decode the instruction at the head of a list of bytes, and give back the bytes after it. -/
def decode : List Byte → Except DecodeError (Instr × List Byte)
  | [] => .error .noOpcode
  | op :: rest =>
    match operandCount op, rest with
    | 0, _ => .ok (decodeOp op 0#8 0#8, rest)
    | 1, l :: rest => .ok (decodeOp op l 0#8, rest)
    | 2, l :: h :: rest => .ok (decodeOp op l h, rest)
    | _, _ => .error .noOperand

/-- The operand bytes of a memory operand, low byte first (R81). -/
def Mem.bytes : Mem → List Byte
  | .zp b | .zpx b | .zpy b | .izx b | .izy b => [b]
  | .abs w | .abx w | .aby w => [loByte w, hiByte w]

/-- An encoding of a memory operand, from the opcode bytes the instruction has by form. -/
def encodeMem (ops : List (Form × Byte)) (m : Mem) : Option (List Byte) :=
  (ops.lookup m.form).map fun op => op :: m.bytes

/-- An encoding of a read operand: the immediate opcode, or the opcodes by form. -/
def encodeSrc (immOp : Byte) (ops : List (Form × Byte)) : Src → Option (List Byte)
  | .imm b => some [immOp, b]
  | .mem m => encodeMem ops m

/-- An encoding of a shift operand: the accumulator opcode, or the opcodes by form. -/
def encodeDst (accOp : Byte) (ops : List (Form × Byte)) : Dst → Option (List Byte)
  | .acc => some [accOp]
  | .mem m => encodeMem ops m

/-- The opcode byte followed by a 16-bit operand, low byte first (R81). -/
def encodeWord (op : Byte) (w : Addr) : Option (List Byte) := some [op, loByte w, hiByte w]

/-- The bytes of a well-formed instruction, from the Encodings line of its rule; none for a form the instruction does not
have and for the two pseudo-opcodes, which have no bytes (R101). -/
def encode : Instr → Option (List Byte)
  -- R111 to R116
  | .lda src => encodeSrc 0xA9#8 [(.zp, 0xA5#8), (.zpx, 0xB5#8), (.abs, 0xAD#8), (.abx, 0xBD#8), (.aby, 0xB9#8),
      (.izx, 0xA1#8), (.izy, 0xB1#8)] src
  | .ldx src => encodeSrc 0xA2#8 [(.zp, 0xA6#8), (.zpy, 0xB6#8), (.abs, 0xAE#8), (.aby, 0xBE#8)] src
  | .ldy src => encodeSrc 0xA0#8 [(.zp, 0xA4#8), (.zpx, 0xB4#8), (.abs, 0xAC#8), (.abx, 0xBC#8)] src
  | .sta m => encodeMem [(.zp, 0x85#8), (.zpx, 0x95#8), (.abs, 0x8D#8), (.abx, 0x9D#8), (.aby, 0x99#8), (.izx, 0x81#8),
      (.izy, 0x91#8)] m
  | .stx m => encodeMem [(.zp, 0x86#8), (.zpy, 0x96#8), (.abs, 0x8E#8)] m
  | .sty m => encodeMem [(.zp, 0x84#8), (.zpx, 0x94#8), (.abs, 0x8C#8)] m
  -- R117 to R122
  | .tax => some [0xAA#8]
  | .tay => some [0xA8#8]
  | .txa => some [0x8A#8]
  | .tya => some [0x98#8]
  | .tsx => some [0xBA#8]
  | .txs => some [0x9A#8]
  -- R131 to R139
  | .adc src => encodeSrc 0x69#8 [(.zp, 0x65#8), (.zpx, 0x75#8), (.abs, 0x6D#8), (.abx, 0x7D#8), (.aby, 0x79#8),
      (.izx, 0x61#8), (.izy, 0x71#8)] src
  | .sbc src => encodeSrc 0xE9#8 [(.zp, 0xE5#8), (.zpx, 0xF5#8), (.abs, 0xED#8), (.abx, 0xFD#8), (.aby, 0xF9#8),
      (.izx, 0xE1#8), (.izy, 0xF1#8)] src
  | .and src => encodeSrc 0x29#8 [(.zp, 0x25#8), (.zpx, 0x35#8), (.abs, 0x2D#8), (.abx, 0x3D#8), (.aby, 0x39#8),
      (.izx, 0x21#8), (.izy, 0x31#8)] src
  | .ora src => encodeSrc 0x09#8 [(.zp, 0x05#8), (.zpx, 0x15#8), (.abs, 0x0D#8), (.abx, 0x1D#8), (.aby, 0x19#8),
      (.izx, 0x01#8), (.izy, 0x11#8)] src
  | .eor src => encodeSrc 0x49#8 [(.zp, 0x45#8), (.zpx, 0x55#8), (.abs, 0x4D#8), (.abx, 0x5D#8), (.aby, 0x59#8),
      (.izx, 0x41#8), (.izy, 0x51#8)] src
  | .cmp src => encodeSrc 0xC9#8 [(.zp, 0xC5#8), (.zpx, 0xD5#8), (.abs, 0xCD#8), (.abx, 0xDD#8), (.aby, 0xD9#8),
      (.izx, 0xC1#8), (.izy, 0xD1#8)] src
  | .cpx src => encodeSrc 0xE0#8 [(.zp, 0xE4#8), (.abs, 0xEC#8)] src
  | .cpy src => encodeSrc 0xC0#8 [(.zp, 0xC4#8), (.abs, 0xCC#8)] src
  | .bit m => encodeMem [(.zp, 0x24#8), (.abs, 0x2C#8)] m
  -- R140 to R145
  | .inc m => encodeMem [(.zp, 0xE6#8), (.zpx, 0xF6#8), (.abs, 0xEE#8), (.abx, 0xFE#8)] m
  | .dec m => encodeMem [(.zp, 0xC6#8), (.zpx, 0xD6#8), (.abs, 0xCE#8), (.abx, 0xDE#8)] m
  | .inx => some [0xE8#8]
  | .iny => some [0xC8#8]
  | .dex => some [0xCA#8]
  | .dey => some [0x88#8]
  -- R161 to R164
  | .asl d => encodeDst 0x0A#8 [(.zp, 0x06#8), (.zpx, 0x16#8), (.abs, 0x0E#8), (.abx, 0x1E#8)] d
  | .lsr d => encodeDst 0x4A#8 [(.zp, 0x46#8), (.zpx, 0x56#8), (.abs, 0x4E#8), (.abx, 0x5E#8)] d
  | .rol d => encodeDst 0x2A#8 [(.zp, 0x26#8), (.zpx, 0x36#8), (.abs, 0x2E#8), (.abx, 0x3E#8)] d
  | .ror d => encodeDst 0x6A#8 [(.zp, 0x66#8), (.zpx, 0x76#8), (.abs, 0x6E#8), (.abx, 0x7E#8)] d
  -- R171 to R183
  | .bpl off => some [0x10#8, off]
  | .bmi off => some [0x30#8, off]
  | .bvc off => some [0x50#8, off]
  | .bvs off => some [0x70#8, off]
  | .bcc off => some [0x90#8, off]
  | .bcs off => some [0xB0#8, off]
  | .bne off => some [0xD0#8, off]
  | .beq off => some [0xF0#8, off]
  | .jmp (.abs w) => encodeWord 0x4C#8 w
  | .jmp (.ind w) => encodeWord 0x6C#8 w
  | .jsr w => encodeWord 0x20#8 w
  | .rts => some [0x60#8]
  | .brk => some [0x00#8]
  | .rti => some [0x40#8]
  -- R191 to R202
  | .pha => some [0x48#8]
  | .php => some [0x08#8]
  | .pla => some [0x68#8]
  | .plp => some [0x28#8]
  | .clc => some [0x18#8]
  | .sec => some [0x38#8]
  | .cli => some [0x58#8]
  | .sei => some [0x78#8]
  | .cld => some [0xD8#8]
  | .sed => some [0xF8#8]
  | .clv => some [0xB8#8]
  | .nop => some [0xEA#8]
  -- R211 to R218
  | .slo m => encodeMem [(.zp, 0x07#8), (.zpx, 0x17#8), (.abs, 0x0F#8), (.abx, 0x1F#8), (.aby, 0x1B#8), (.izx, 0x03#8),
      (.izy, 0x13#8)] m
  | .rla m => encodeMem [(.zp, 0x27#8), (.zpx, 0x37#8), (.abs, 0x2F#8), (.abx, 0x3F#8), (.aby, 0x3B#8), (.izx, 0x23#8),
      (.izy, 0x33#8)] m
  | .sre m => encodeMem [(.zp, 0x47#8), (.zpx, 0x57#8), (.abs, 0x4F#8), (.abx, 0x5F#8), (.aby, 0x5B#8), (.izx, 0x43#8),
      (.izy, 0x53#8)] m
  | .rra m => encodeMem [(.zp, 0x67#8), (.zpx, 0x77#8), (.abs, 0x6F#8), (.abx, 0x7F#8), (.aby, 0x7B#8), (.izx, 0x63#8),
      (.izy, 0x73#8)] m
  | .sax m => encodeMem [(.zp, 0x87#8), (.zpy, 0x97#8), (.abs, 0x8F#8), (.izx, 0x83#8)] m
  | .lax m => encodeMem [(.zp, 0xA7#8), (.zpy, 0xB7#8), (.abs, 0xAF#8), (.aby, 0xBF#8), (.izx, 0xA3#8), (.izy, 0xB3#8)] m
  | .dcp m => encodeMem [(.zp, 0xC7#8), (.zpx, 0xD7#8), (.abs, 0xCF#8), (.abx, 0xDF#8), (.aby, 0xDB#8), (.izx, 0xC3#8),
      (.izy, 0xD3#8)] m
  | .isc m => encodeMem [(.zp, 0xE7#8), (.zpx, 0xF7#8), (.abs, 0xEF#8), (.abx, 0xFF#8), (.aby, 0xFB#8), (.izx, 0xE3#8),
      (.izy, 0xF3#8)] m
  -- R219 to R226
  | .anc op b => if op == 0x0B#8 || op == 0x2B#8 then some [op, b] else none
  | .alr b => some [0x4B#8, b]
  | .arr b => some [0x6B#8, b]
  | .axs b => some [0xCB#8, b]
  | .sbcUndoc b => some [0xEB#8, b]
  | .nopUndoc op arg => if (nopOpcodes arg).contains op then some (op :: match arg with
      | .imp => []
      | .imm b => [b]
      | .mem m => m.bytes) else none
  | .kil op => if kilOpcodes.contains op then some [op] else none
  | .las w => encodeWord 0xBB#8 w
  -- R227 to R232
  | .xaa b => some [0x8B#8, b]
  | .lxa b => some [0xAB#8, b]
  | .ahx m => encodeMem [(.izy, 0x93#8), (.aby, 0x9F#8)] m
  | .tas w => encodeWord 0x9B#8 w
  | .shy w => encodeWord 0x9C#8 w
  | .shx w => encodeWord 0x9E#8 w
  | .nmi => none
  | .irq => none

/-- The instruction the decoder reads from a list of bytes, if they hold one. -/
def decodeBytes (bs : List Byte) : Option Instr :=
  match decode bs with
  | .ok (i, _) => some i
  | .error _ => none

/-- The instruction read from the bits of a table row: `nbits` bits `w`, bit 0 the least significant of the first byte, every
later bit 0. The two rows wider than a byte are the table indices 0x100 and 0x101 of the pseudo-opcodes (R101), which are
no bytes: interrupt acceptance selects them. Log 7. -/
def decodeTableWord (nbits w : Nat) : Option Instr :=
  if 8 < nbits ∧ w = 0x100 then some .nmi
  else if 8 < nbits ∧ w = 0x101 then some .irq
  else decodeBytes [byteOfNat w 0, byteOfNat w 1, byteOfNat w 2]

end Sys2Proof
end

