-- ==== Sys2Proof/Config.lean ====
section
/-! DEFINITION. The values the spec leaves open, as constants with no body. Each is applied to the machine's draw counter
(a fresh number for every draw) or, for XAA_MAGIC, is one byte for the whole machine. No proof can see a value of them. -/

namespace Sys2Proof

/-- `DEVICE_OPEN_BUS` (R9, D35): undriven device bits and reads of write-only device registers. Log 8. -/
opaque Config.deviceOpenBus : Nat → Byte

/-- `UNMAPPED_READ` (R9, R62, D19): what a read of 0x4018-0x401F returns. Log 8. -/
opaque Config.unmappedRead : Nat → Byte

/-- `Bus` (R56, D20): what a read of a mapper address returns that the cartridge layout does not give as plain ROM or RAM. Log 9. -/
opaque Config.mapperRead : Nat → Addr → Byte

/-- `Bus` (R56, R270 row 0x2007): what the mapper returns on the PPU side. Log 23. -/
opaque Config.mapperPpuRead : Nat → BitVec 15 → Byte

/-- `Bus` (R258, R261): the level of `mapper_irq` of an IRQ-capable cartridge. Log 10. -/
opaque Config.mapperIrq : Nat → Bool

/-- Does the delta-modulation channel fetch a byte in this APU cycle (R71; its rate table is not in the spec, N29)? Log 17. -/
opaque Config.dmcFetch : Nat → Bool

/-- The PPU address `v` after rendering has moved it (R7 leaves rendering out, R270). Log 21. -/
opaque Config.renderedV : Nat → BitVec 15

/-- The sprite flags as rendering may have set them: bit 6 sprite-zero hit, bit 5 overflow (R7, R270). Log 20. -/
opaque Config.spriteFlags : Nat → Byte

/-- Is an IRQ that was pending when BRK executed accepted at the boundary after BRK, although I is 1? R182, R265 and D12 say yes,
R253, R267 and D8 say no, and no ruling decides: any answer, a fresh one at each such boundary. Log 37. -/
opaque Config.irqAfterBrk : Nat → Bool

/-- `XAA_MAGIC` (R9, R227, D15): the byte XAA and LXA use in `nmos` mode. Log 11. -/
opaque Config.xaaMagic : Byte

end Sys2Proof
end

