-- ==== Sys2Proof/Machine/Memory.lean ====
section
/-! DEFINITION. Byte memories: a list of (address, byte) cells in one canonical form. The CPU-visible storage, the OAM, the
palette and the file of written APU registers are all of this type. -/

namespace Sys2Proof.Machine

/-- Sparse byte storage: addresses strictly rising, no cell equal to what an unlisted address reads as. -/
abbrev Memory := List Host.Cell

/-- What an unlisted address reads as: 0x00, the reset contents of working RAM (R39, R291), OAM (R270) and the APU registers
(R272, D36). For cartridge memory the spec gives no contents: log 2. -/
def Memory.unlisted : Byte := 0x00#8

/-- The byte at `k`. -/
def Memory.read : Memory → Nat → Byte
  | [], _ => Memory.unlisted
  | (k', v') :: m, k => if k = k' then v' else Memory.read m k

/-- Set the byte at `k` to `v`, keeping the canonical form. -/
def Memory.write : Memory → Nat → Byte → Memory
  | [], k, v => if v = Memory.unlisted then [] else [(k, v)]
  | (k', v') :: m, k, v =>
    if k < k' then
      if v = Memory.unlisted then (k', v') :: m else (k, v) :: (k', v') :: m
    else if k = k' then
      if v = Memory.unlisted then m else (k, v) :: m
    else (k', v') :: Memory.write m k v

/-- Forget every cell whose address does not satisfy `keep`. -/
def Memory.keepOnly (keep : Nat → Bool) (m : Memory) : Memory := m.filter fun c => keep c.1

/-- The canonical form: addresses strictly rising, no cell at its unlisted value. -/
def Memory.wf : Memory → Bool
  | [] => true
  | (k, v) :: m => v != Memory.unlisted && m.all (fun c => decide (k < c.1)) && Memory.wf m

/-- Every cell's address satisfies `p`. -/
def Memory.keysIn (p : Nat → Bool) (m : Memory) : Bool := m.all fun c => p c.1

end Sys2Proof.Machine
end

