-- ==== Sys2Proof/Machine/Defaults.lean ====
section
/-! DEFINITION. The cartridge's shape and the values State.reset takes that the spec leaves to the model. -/

namespace Sys2Proof.Machine

/-- What lies behind a range of mapper addresses (R60). Ranges the cartridge gives as neither are left to `Bus` (R56). -/
inductive RegionKind where
  | prgRam    -- read/write, round-trips
  | prgRom    -- read only: not changed by a write
  | mapper    -- decided by the mapper: reads are free values
  deriving DecidableEq, Repr

structure Region where
  base : Nat
  size : Nat
  kind : RegionKind
  deriving DecidableEq, Repr

/-- The cartridge as the CPU sees it: its layout, and whether its variant can raise `mapper_irq` (R60, R251, R274). The
first region that holds an address decides its kind; an address in none is the mapper's. -/
structure Cart where
  regions    : List Region
  irqCapable : Bool
  deriving DecidableEq, Repr

/-- The layout of a cartridge with a fixed bank, as 95 S1 reads it: PRG-RAM at 0x6000-0x7FFF, PRG-ROM at 0x8000-0xFFFF.
DESIGN CHOICE, log 1. -/
def defaultRegions : List Region :=
  [⟨0x6000, 0x2000, .prgRam⟩, ⟨0x8000, 0x8000, .prgRom⟩]

/-- The last step of the frame sequencer in 4-step mode, as R260 writes it ("~29829"). Log 14. -/
def defaultFrameSteps4 : Nat := 29829

/-- The last step of the frame sequencer in 5-step mode, as R260 writes it ("~37281"). Log 14. -/
def defaultFrameSteps5 : Nat := 37281

end Sys2Proof.Machine
end

