-- ==== Sys2Proof/Machine/State.lean ====
section
/-! DEFINITION. The machine's state as plain data: the CPU's record of R20 and, behind the bus, the platform state of R35 with
the devices' CPU-visible registers of R270 to R274. Also the reasons a step can stop, and the state after reset. -/

namespace Sys2Proof.Machine

/-- The six condition flags (R26). There is no stored status byte. -/
structure Flags where
  n : Bool   -- negative
  v : Bool   -- overflow
  d : Bool   -- decimal
  i : Bool   -- interrupt-disable
  z : Bool   -- zero
  c : Bool   -- carry
  deriving DecidableEq, Repr

/-- CpuState (R20). -/
structure Cpu where
  a          : Byte    -- R21
  x          : Byte    -- R22
  y          : Byte    -- R23
  sp         : Byte    -- R24
  pc         : Addr    -- R25
  flags      : Flags   -- R26
  irqPending : Bool    -- R31
  nmiPending : Bool    -- R32
  cyclesLeft : Nat     -- R30, a natural number by D24
  deriving DecidableEq, Repr

/-- The three IRQ request flags (R35, R251). -/
structure IrqLines where
  mapper : Bool   -- mapper_irq
  frame  : Bool   -- frame_irq
  dmc    : Bool   -- dmc_irq
  deriving DecidableEq, Repr

/-- OAM DMA (R35, R262, R263). -/
structure Dma where
  active : Bool
  page   : Byte
  index  : Nat    -- 0..512
  latch  : Byte
  align  : Bool
  deriving DecidableEq, Repr

/-- One controller: its shift register, how many of its bits have not been read yet, and the host's button state, bit 0
the first button of R273 (A) and bit 7 the last (Right). -/
structure Pad where
  shift   : Byte
  left    : Nat    -- 0..8; 0 once the eight bits are read
  buttons : Byte
  deriving DecidableEq, Repr

/-- The CPU-visible part of PpuState (R270, R271). `spritesOpen` and `vOpen` are the model's own (logs 20, 21). -/
structure Ppu where
  ctrl           : Byte        -- 0x2000
  mask           : Byte        -- 0x2001
  vblank         : Bool        -- 0x2002 bit 7
  spriteZero     : Bool        -- 0x2002 bit 6
  spriteOverflow : Bool        -- 0x2002 bit 5
  spritesOpen    : Bool        -- rendering may have set bits 6 and 5 since their last clear
  oamAddr        : Byte        -- 0x2003
  oam            : Memory      -- 256 bytes
  t              : BitVec 15
  v              : BitVec 15
  vOpen          : Bool        -- rendering has moved v since it was last given
  fineX          : BitVec 3
  toggle         : Bool        -- the write toggle of 0x2005 and 0x2006
  readBuffer     : Byte        -- the read-ahead buffer of 0x2007
  palette        : Memory      -- 32 entries, aliases stored once
  scanline       : Nat         -- 0..261
  dot            : Nat         -- 0..340
  oddFrame       : Bool
  deriving DecidableEq, Repr

/-- For each channel with a length counter, may the counter be above 0 (R272 row 0x4015, log 16)? -/
structure Lengths where
  pulse1   : Bool
  pulse2   : Bool
  triangle : Bool
  noise    : Bool
  deriving DecidableEq, Repr

/-- The CPU-visible part of ApuState (R260, R261, R272). -/
structure Apu where
  regs       : Memory   -- the byte last written to 0x4000 + k, under key k
  lengths    : Lengths
  frameCycle : Nat      -- APU cycles since the frame sequence began
  dmcAddr    : Addr     -- the next byte the delta-modulation channel reads
  dmcLeft    : Nat      -- its bytes remaining
  deriving DecidableEq, Repr

/-- UNSTABLE_OPS_MODE (R9, D15). -/
inductive UnstableOps where
  | degraded
  | nmos
  deriving DecidableEq, Repr

/-- The parameters of R9 and of 93 U9 that are data. No step changes them. -/
structure Params where
  unstableOps        : UnstableOps   -- log 12
  softResetClearsRam : Bool          -- log 13
  frameSteps4        : Nat           -- log 14
  frameSteps5        : Nat           -- log 14
  deriving DecidableEq, Repr

/-- Everything on the other side of `MemRead` and `MemWrite`: storage, devices, cartridge, orchestrator (R35, R54, R56). -/
structure Bus where
  mem       : Memory     -- working RAM under keys 0..0x7FF, cartridge memory under its own addresses
  irq       : IrqLines
  dma       : Dma
  strobe    : Bool       -- the controller strobe latch (R273)
  pad1      : Pad
  pad2      : Pad
  ppu       : Ppu
  apu       : Apu
  cart      : Cart
  params    : Params
  sysCycles : Nat        -- R35
  irqOpen   : Bool       -- the model's own: an IRQ was pending in BRK, and the boundary after it is to come (log 37)
  draws     : Nat        -- the model's own: free values drawn so far (log 8)
  deriving DecidableEq, Repr

structure State where
  cpu : Cpu
  bus : Bus
  deriving DecidableEq, Repr

/-- There is no fault: the CPU raises no synchronous exception and no memory access can fault (R250, R64, R102). The type has
no constructor, so that no one can raise one; that is safe, because the spec gives every case an effect. -/
inductive Fault where
  deriving DecidableEq, Repr

/-- Why an instruction has no meaning. -/
inductive Refusal where
  /-- Raised by `exec` alone, for an instruction whose meaning is not written. Safe: nothing follows from it. No arm uses it. -/
  | notModelled (mnemonic : String)
  deriving DecidableEq, Repr

/-- R37. -/
def Cpu.reset : Cpu where
  a := 0x00#8
  x := 0x00#8
  y := 0x00#8
  sp := 0xFD#8
  pc := 0x0000#16   -- Read16(0xFFFC) of a memory with nothing listed (log 3)
  flags := { n := false, v := false, d := false, i := true, z := false, c := false }
  irqPending := false
  nmiPending := false
  cyclesLeft := 7

/-- R39, R270 ("zeroed on reset"). -/
def Ppu.reset : Ppu where
  ctrl := 0x00#8
  mask := 0x00#8
  vblank := false
  spriteZero := false
  spriteOverflow := false
  spritesOpen := false
  oamAddr := 0x00#8
  oam := []
  t := 0#15
  v := 0#15
  vOpen := false
  fineX := 0#3
  toggle := false
  readBuffer := 0x00#8
  palette := []
  scanline := 0
  dot := 0
  oddFrame := false

/-- D36: every register, counter and flag 0, 4-step mode, frame IRQ not inhibited. -/
def Apu.reset : Apu where
  regs := []
  lengths := { pulse1 := false, pulse2 := false, triangle := false, noise := false }
  frameCycle := 0
  dmcAddr := 0x0000#16
  dmcLeft := 0

/-- R39. -/
def Dma.reset : Dma where
  active := false
  page := 0x00#8
  index := 0
  latch := 0x00#8
  align := false

/-- R291: shift registers 0; no button pressed (log 26). -/
def Pad.reset : Pad where
  shift := 0x00#8
  left := 8         -- log 25
  buttons := 0x00#8

/-- The spec's defaults (R9, D15, D25) and R260's numbers. -/
def Params.default : Params where
  unstableOps := .degraded
  softResetClearsRam := true
  frameSteps4 := defaultFrameSteps4
  frameSteps5 := defaultFrameSteps5

def Bus.reset : Bus where
  mem := []
  irq := { mapper := false, frame := false, dmc := false }
  dma := Dma.reset
  strobe := false
  pad1 := Pad.reset
  pad2 := Pad.reset
  ppu := Ppu.reset
  apu := Apu.reset
  cart := { regions := defaultRegions, irqCapable := false }
  params := Params.default
  sysCycles := 0
  irqOpen := false
  draws := 0

/-- The machine right after a hard reset with nothing listed in memory (R37, R39, R291). -/
def State.reset : State where
  cpu := Cpu.reset
  bus := Bus.reset

end Sys2Proof.Machine
end

