-- ==== Sys2Proof/Machine/Draws.lean ====
section
/-! DEFINITION. Free values: each draw applies a bodiless constant of Config to the draw counter and advances the counter, so
that no two draws need agree (R9, log 8). -/

namespace Sys2Proof.Machine

/-- The draw counter has been used once more. -/
def Bus.drawn (b : Bus) : Bus := { b with draws := b.draws + 1 }

/-- Undriven device bits: any byte (D35). -/
def Bus.openBus (b : Bus) : Byte × Bus := (Config.deviceOpenBus b.draws, b.drawn)

/-- A read of an unused address: any byte (R62, D19). -/
def Bus.unmapped (b : Bus) : Byte × Bus := (Config.unmappedRead b.draws, b.drawn)

/-- A read the mapper answers in its own way: any byte (R56, D20). -/
def Bus.mapperByte (a : Addr) (b : Bus) : Byte × Bus := (Config.mapperRead b.draws a, b.drawn)

end Sys2Proof.Machine
end

