-- ==== Sys2Proof/Machine/Apu.lean ====
section
/-! DEFINITION. The APU as the CPU sees it: its register file, the status register 0x4015, the frame sequencer's IRQ and the
delta-modulation channel's registers (R58, R59, R260, R261, R272). Synthesis is out of scope (R7). Registers are named by
their offset from 0x4000. -/

namespace Sys2Proof.Machine

/-- The byte last written to 0x4000 + k. -/
def Apu.reg (k : Nat) (a : Apu) : Byte := a.regs.read k

/-- 5-step mode: bit 7 of 0x4017 (R260). -/
def Apu.fiveStep (a : Apu) : Bool := (a.reg 0x17).getLsbD 7

/-- Frame IRQ inhibited: bit 6 of 0x4017 (R260). -/
def Apu.irqInhibit (a : Apu) : Bool := (a.reg 0x17).getLsbD 6

/-- DMC IRQ enabled: bit 7 of 0x4010 (R261). -/
def Apu.dmcIrqEnable (a : Apu) : Bool := (a.reg 0x10).getLsbD 7

/-- DMC looping: bit 6 of 0x4010 (R272). -/
def Apu.dmcLoop (a : Apu) : Bool := (a.reg 0x10).getLsbD 6

/-- Start the sample over: address 0xC000 + 64 v of 0x4012, length 16 v + 1 of 0x4013 (R272). -/
def Apu.dmcRestart (a : Apu) : Apu :=
  { a with
    dmcAddr := BitVec.ofNat 16 (0xC000 + 64 * (a.reg 0x12).toNat)
    dmcLeft := 16 * (a.reg 0x13).toNat + 1 }

/-- The length counters after a write of `v` to 0x4015: a disabled channel's is zeroed at once (R59, R272). -/
def Lengths.enabledBy (v : Byte) (l : Lengths) : Lengths where
  pulse1 := l.pulse1 && v.getLsbD 0
  pulse2 := l.pulse2 && v.getLsbD 1
  triangle := l.triangle && v.getLsbD 2
  noise := l.noise && v.getLsbD 3

/-- The delta-modulation channel after a write of `v` to 0x4015: bit 4 starts an idle channel or stops it (R272, log 18). -/
def Apu.dmcEnabledBy (v : Byte) (a : Apu) : Apu :=
  if v.getLsbD 4 then (if a.dmcLeft = 0 then a.dmcRestart else a) else { a with dmcLeft := 0 }

/-- A write to one of the four registers that load a length counter (R272, log 16). -/
def Apu.loadLength (k : Nat) (a : Apu) : Apu :=
  match k with
  | 0x03 => { a with lengths := { a.lengths with pulse1 := true } }
  | 0x07 => { a with lengths := { a.lengths with pulse2 := true } }
  | 0x0B => { a with lengths := { a.lengths with triangle := true } }
  | 0x0F => { a with lengths := { a.lengths with noise := true } }
  | _ => a

/-- What a write of `v` to 0x4000 + k does beyond being held: length loads, the enable register, the frame counter. -/
def Apu.afterWrite (k : Nat) (v : Byte) (a : Apu) : Apu :=
  match k with
  | 0x15 => { a.dmcEnabledBy v with lengths := a.lengths.enabledBy v }
  | 0x17 => { a with frameCycle := 0 }
  | _ => a.loadLength k

/-- Which request flags a write of `v` to 0x4000 + k clears: `dmc_irq` by 0x4015 and by clearing bit 7 of 0x4010, `frame_irq`
by setting the inhibit bit of 0x4017 (R260, R261). -/
def IrqLines.afterApuWrite (k : Nat) (v : Byte) (q : IrqLines) : IrqLines :=
  match k with
  | 0x10 => { q with dmc := q.dmc && v.getLsbD 7 }
  | 0x15 => { q with dmc := false }
  | 0x17 => { q with frame := q.frame && !v.getLsbD 6 }
  | _ => q

/-- A CPU write of `v` to the APU register 0x4000 + k. -/
def Bus.writeApu (k : Nat) (v : Byte) (b : Bus) : Bus :=
  { b with
    apu := { b.apu with regs := b.apu.regs.write k v }.afterWrite k v
    irq := b.irq.afterApuWrite k v }

/-- A read of 0x4015 (R272): which length counters are above 0 (free where they may be, log 16), DMC bytes remaining, an
undriven bit 5, `frame_irq`, `dmc_irq`; it clears `frame_irq` (R58). -/
def Bus.readApuStatus (b : Bus) : Byte × Bus :=
  let (o, b) := b.openBus
  (BitVec.ofBool b.irq.dmc ++ BitVec.ofBool b.irq.frame ++ BitVec.ofBool (o.getLsbD 5)
      ++ BitVec.ofBool (b.apu.dmcLeft != 0) ++ BitVec.ofBool (b.apu.lengths.noise && o.getLsbD 3)
      ++ BitVec.ofBool (b.apu.lengths.triangle && o.getLsbD 2) ++ BitVec.ofBool (b.apu.lengths.pulse2 && o.getLsbD 1)
      ++ BitVec.ofBool (b.apu.lengths.pulse1 && o.getLsbD 0),
    { b with irq := { b.irq with frame := false } })

/-- The last step of the frame sequence in the present mode (R260, log 14). -/
def Bus.frameSteps (b : Bus) : Nat := if b.apu.fiveStep then b.params.frameSteps5 else b.params.frameSteps4

/-- Does this cycle raise `frame_irq`: the last step of 4-step mode, not inhibited (R260)? -/
def Bus.raisesFrameIrq (b : Bus) : Bool :=
  !b.apu.fiveStep && !b.apu.irqInhibit && b.apu.frameCycle + 1 == b.params.frameSteps4

/-- One cycle of the frame sequencer (R260); the cycle after the last step begins the sequence again (90 C10). -/
def Bus.frameTick (b : Bus) : Bus :=
  { b with
    apu := { b.apu with frameCycle := if b.frameSteps ≤ b.apu.frameCycle then 0 else b.apu.frameCycle + 1 }
    irq := { b.irq with frame := b.irq.frame || b.raisesFrameIrq } }

/-- The delta-modulation channel has read one byte: the next address, one byte fewer, and at the end of the sample a new
start if looping, else `dmc_irq` if enabled (R261). -/
def Bus.dmcAdvance (b : Bus) : Bus :=
  let a := { b.apu with dmcAddr := b.apu.dmcAddr + 1, dmcLeft := b.apu.dmcLeft - 1 }
  if a.dmcLeft = 0 then
    if a.dmcLoop then { b with apu := a.dmcRestart }
    else { b with apu := a, irq := { b.irq with dmc := b.irq.dmc || a.dmcIrqEnable } }
  else { b with apu := a }

end Sys2Proof.Machine
end

