-- ==== Sys2Proof/Machine/Pads.lean ====
section
/-! DEFINITION. The controller port 0x4016, 0x4017 (R273). -/

namespace Sys2Proof.Machine

/-- The strobe's reload of one shift register from the host's button state (R273). -/
def Pad.reload (p : Pad) : Pad := { p with shift := p.buttons, left := 8 }

/-- The "controller-latch handling" step of a system cycle (R257): while the latch is 1, both registers are reloaded. -/
def Bus.controllerLatchStep (b : Bus) : Bus :=
  if b.strobe then { b with pad1 := b.pad1.reload, pad2 := b.pad2.reload } else b

/-- The serial bit of a read: the next button while the latch is 0 and one is left, else undriven (R273, D35; log 25). -/
def Pad.bit (strobe : Bool) (o : Byte) (p : Pad) : Bool :=
  if strobe || p.left == 0 then o.getLsbD 0 else p.shift.getLsbD 0

/-- What a read does to the register: it shifts while the latch is 0 (R58, R273). -/
def Pad.shifted (strobe : Bool) (p : Pad) : Pad :=
  if strobe || p.left == 0 then p else { p with shift := p.shift >>> 1, left := p.left - 1 }

/-- A read of 0x4016: the serial bit in bit 0, bits 7:1 undriven. -/
def Bus.readPad1 (b : Bus) : Byte × Bus :=
  let (o, b) := b.openBus
  (o.extractLsb' 1 7 ++ BitVec.ofBool (b.pad1.bit b.strobe o), { b with pad1 := b.pad1.shifted b.strobe })

/-- A read of 0x4017, for player 2. -/
def Bus.readPad2 (b : Bus) : Byte × Bus :=
  let (o, b) := b.openBus
  (o.extractLsb' 1 7 ++ BitVec.ofBool (b.pad2.bit b.strobe o), { b with pad2 := b.pad2.shifted b.strobe })

end Sys2Proof.Machine
end

