-- ==== Sys2Proof/Machine/Ppu.lean ====
section
/-! DEFINITION. The PPU as the CPU sees it: its eight registers with their side effects (R57, R58, R59, R270), and the
scanline and dot counters that set vblank and raise NMI (R259, R271). Rendering is out of scope (R7): where it would change
something the CPU can read, that value is free (logs 20, 21, 23). -/

namespace Sys2Proof.Machine

/-- "Rendering enabled" (R271): background or sprite rendering (R270 row 0x2001, bits 3 and 4), either of them enough. PRESUMED,
log 38. -/
def Ppu.renderingOn (p : Ppu) : Bool := p.mask.getLsbD 3 || p.mask.getLsbD 4

/-- "During active rendering" (R270 row 0x2007): rendering is enabled and the line is not one of 240-260. Log 21. -/
def Ppu.rendering (p : Ppu) : Bool := p.renderingOn && (decide (p.scanline < 240) || p.scanline == 261)

/-- What an access to 0x2007 adds to `v` (R270 row 0x2000, bit 2). -/
def Ppu.increment (p : Ppu) : BitVec 15 := if p.ctrl.getLsbD 2 then 32#15 else 1#15

/-- Is a PPU address one of the palette's? PRESUMED, log 22. -/
def isPalette (a : BitVec 15) : Bool := decide (0x3F00 ≤ a.toNat % 0x4000)

/-- The palette entry of an address: 32 entries, of which 0x10, 0x14, 0x18 and 0x1C are 0x00, 0x04, 0x08 and 0x0C (95 S11). -/
def paletteIndex (a : BitVec 15) : Nat :=
  let k := a.toNat % 32
  if k = 0x10 ∨ k = 0x14 ∨ k = 0x18 ∨ k = 0x1C then k - 0x10 else k

/-- The address an access to 0x2007 uses: `v`, or a free value once rendering has moved `v` (log 21). -/
def Bus.ppuAddr (b : Bus) : BitVec 15 × Bus :=
  if b.ppu.vOpen then (Config.renderedV b.draws, b.drawn) else (b.ppu.v, b)

/-- After an access to 0x2007 at `a`: `v` advances by the control increment; during active rendering it advances by the scroll
algorithm, which the spec leaves out (R270, R271), so it is open. -/
def Ppu.advanceV (a : BitVec 15) (p : Ppu) : Ppu := { p with v := a + p.increment, vOpen := p.rendering }

/-- The sprite flags as rendering may have left them: once set they stay set until the clear of R271 (log 20). -/
def Bus.sampleSprites (b : Bus) : Bus :=
  if b.ppu.spritesOpen then
    let f := Config.spriteFlags b.draws
    { b.drawn with ppu := { b.ppu with
        spriteZero := b.ppu.spriteZero || f.getLsbD 6
        spriteOverflow := b.ppu.spriteOverflow || f.getLsbD 5 } }
  else b

/-- A read of 0x2002: vblank, sprite-zero hit, sprite overflow, five undriven bits; it clears vblank and the write toggle
(R58, R270). -/
def Bus.readPpuStatus (b : Bus) : Byte × Bus :=
  let b := b.sampleSprites
  let (low, b) := b.openBus
  (BitVec.ofBool b.ppu.vblank ++ BitVec.ofBool b.ppu.spriteZero ++ BitVec.ofBool b.ppu.spriteOverflow
      ++ low.extractLsb' 0 5,
    { b with ppu := { b.ppu with vblank := false, toggle := false } })

/-- A read of 0x2007: the palette entry, or the read-ahead buffer; the buffer is refilled through the mapper and `v` advances
(R58, R270; logs 22, 23). -/
def Bus.readPpuData (b : Bus) : Byte × Bus :=
  let (a, b) := b.ppuAddr
  let value := if isPalette a then b.ppu.palette.read (paletteIndex a) else b.ppu.readBuffer
  (value, { b.drawn with ppu := { b.ppu.advanceV a with readBuffer := Config.mapperPpuRead b.draws a } })

/-- A CPU read of PPU register `r` (0..7). The write-only registers return undriven bits (R270, D35). -/
def Bus.readPpu (r : Nat) (b : Bus) : Byte × Bus :=
  match r with
  | 2 => b.readPpuStatus
  | 4 => (b.ppu.oam.read b.ppu.oamAddr.toNat, b)
  | 7 => b.readPpuData
  | _ => b.openBus

/-- A write of `v` to the scroll register 0x2005 (R270): coarse and fine X, then coarse and fine Y. -/
def Ppu.writeScroll (v : Byte) (p : Ppu) : Ppu :=
  if p.toggle then
    { p with t := v.extractLsb' 0 3 ++ p.t.extractLsb' 10 2 ++ v.extractLsb' 3 5 ++ p.t.extractLsb' 0 5, toggle := false }
  else
    { p with t := p.t.extractLsb' 5 10 ++ v.extractLsb' 3 5, fineX := v.extractLsb' 0 3, toggle := true }

/-- A write of `v` to the address register 0x2006 (R270): bits 13:8 of `t` with bit 14 cleared, then bits 7:0 and `v <- t`. -/
def Ppu.writeAddr (v : Byte) (p : Ppu) : Ppu :=
  if p.toggle then
    let t : BitVec 15 := p.t.extractLsb' 8 7 ++ v
    { p with t := t, v := t, vOpen := false, toggle := false }
  else
    { p with t := 0#1 ++ v.extractLsb' 0 6 ++ p.t.extractLsb' 0 8, toggle := true }

/-- A write of `v` to OAM data 0x2004 (R270): store at the OAM address, which advances. -/
def Ppu.writeOam (v : Byte) (p : Ppu) : Ppu :=
  { p with oam := p.oam.write p.oamAddr.toNat v, oamAddr := p.oamAddr + 1 }

/-- A write of `v` to 0x2007 (R270): the palette holds its bytes, every other address is the mapper's (log 23). -/
def Bus.writePpuData (v : Byte) (b : Bus) : Bus :=
  let (a, b) := b.ppuAddr
  let p := if isPalette a then { b.ppu with palette := b.ppu.palette.write (paletteIndex a) v } else b.ppu
  { b with ppu := p.advanceV a }

/-- A CPU write of `v` to PPU register `r` (0..7). Status is not writable (R270, log 24). -/
def Bus.writePpu (r : Nat) (v : Byte) (b : Bus) : Bus :=
  match r with
  | 0 => { b with ppu := { b.ppu with ctrl := v } }
  | 1 => { b with ppu := { b.ppu with mask := v } }
  | 3 => { b with ppu := { b.ppu with oamAddr := v } }
  | 4 => { b with ppu := b.ppu.writeOam v }
  | 5 => { b with ppu := b.ppu.writeScroll v }
  | 6 => { b with ppu := b.ppu.writeAddr v }
  | 7 => b.writePpuData v
  | _ => b

/-- The events of the present dot (R259, R271): vblank at line 241 dot 1, the three flags cleared at line 261 dot 1; and the
marks that rendering may have moved `v` or set the sprite flags. -/
def Ppu.dotEvents (p : Ppu) : Ppu :=
  let opened := { p with
    vOpen := p.vOpen || p.rendering
    spritesOpen := p.spritesOpen || (p.renderingOn && decide (p.scanline < 240)) }
  if p.scanline = 241 ∧ p.dot = 1 then { opened with vblank := true }
  else if p.scanline = 261 ∧ p.dot = 1 then
    { opened with vblank := false, spriteZero := false, spriteOverflow := false, spritesOpen := false }
  else opened

/-- Does the present dot raise NMI (R259)? Only line 241 dot 1 does, and only with NMI enabled (R270 row 0x2000, bit 7; D34). -/
def Ppu.raisesNmi (p : Ppu) : Bool := p.scanline == 241 && p.dot == 1 && p.ctrl.getLsbD 7

/-- The last dot of the present line: 340, or 339 on line 261 of an odd frame with rendering enabled (R271; either mask bit
is enough: log 38). -/
def Ppu.lastDot (p : Ppu) : Nat := if p.scanline = 261 ∧ p.oddFrame = true ∧ p.renderingOn = true then 339 else 340

/-- Move to the next dot: 341 dots a line, 262 lines a frame (R271). -/
def Ppu.nextDot (p : Ppu) : Ppu :=
  if p.dot < p.lastDot then { p with dot := p.dot + 1 }
  else if p.scanline < 261 then { p with dot := 0, scanline := p.scanline + 1 }
  else { p with dot := 0, scanline := 0, oddFrame := !p.oddFrame }

end Sys2Proof.Machine
end

