-- ==== Sys2Proof/Machine/Bus.lean ====
section
/-! DEFINITION. The CPU address map of R54: `Bus.read` and `Bus.write` for every one of the 65,536 addresses, total and
without faults (R50, R64), and the side-effect-free view of the addresses that are plain storage. -/

namespace Sys2Proof.Machine

/-- Does a region hold an address? -/
def Region.holds (n : Nat) (r : Region) : Bool := decide (r.base ≤ n) && decide (n < r.base + r.size)

/-- What lies at an address of 0x4020-0xFFFF: the first region that holds it, else the mapper (R60, log 1). -/
def Cart.kindAt (n : Nat) (c : Cart) : RegionKind := ((c.regions.find? (Region.holds n)).map Region.kind).getD .mapper

/-- The location of working RAM at an address below 0x2000: `a & 0x07FF` (R55). -/
def ramIndex (a : Addr) : Nat := (a &&& 0x07FF#16).toNat

/-- The storage cell at an address, if it is plain storage: working RAM, PRG-RAM or PRG-ROM. -/
def Bus.cell (a : Addr) (b : Bus) : Option Nat :=
  if a.toNat < 0x2000 then some (ramIndex a)
  else if a.toNat < 0x4020 then none
  else match b.cart.kindAt a.toNat with
    | .prgRam | .prgRom => some a.toNat
    | .mapper => none

/-- The byte a read of plain storage would give, with no side effect; none at a device or mapper address. -/
def Bus.peek (a : Addr) (b : Bus) : Option Byte := (b.cell a).map b.mem.read

/-- A read of 0x4000 + k, k < 0x20: status, the controllers, write-only registers, the unused block (R58, R62, R272). -/
def Bus.readIo (k : Nat) (b : Bus) : Byte × Bus :=
  if k = 0x15 then b.readApuStatus
  else if k = 0x16 then b.readPad1
  else if k = 0x17 then b.readPad2
  else if k < 0x18 then b.openBus
  else b.unmapped

/-- A read of the mapper region (R60): ROM and RAM give their byte, anything else is the mapper's. -/
def Bus.readCart (a : Addr) (b : Bus) : Byte × Bus :=
  match b.cart.kindAt a.toNat with
  | .prgRam | .prgRom => (b.mem.read a.toNat, b)
  | .mapper => b.mapperByte a

/-- The platform's answer to a CPU read, with its side effects (R54 to R58). -/
def Bus.read (a : Addr) (b : Bus) : Byte × Bus :=
  if a.toNat < 0x2000 then (b.mem.read (ramIndex a), b)
  else if a.toNat < 0x4000 then b.readPpu (a.toNat % 8)
  else if a.toNat < 0x4020 then b.readIo (a.toNat - 0x4000)
  else b.readCart a

/-- A write of `v` to 0x4014 starts OAM DMA (R262): the page, index 0, and an alignment cycle if the cycle count is odd. -/
def Bus.startDma (v : Byte) (b : Bus) : Bus :=
  { b with dma := { b.dma with page := v, index := 0, align := b.sysCycles % 2 == 1, active := true } }

/-- A write of `v` to 0x4000 + k, k < 0x20 (R59, R62, R262, R272, R273). -/
def Bus.writeIo (k : Nat) (v : Byte) (b : Bus) : Bus :=
  if k = 0x14 then b.startDma v
  else if k = 0x16 then { b with strobe := v.getLsbD 0 }
  else if k < 0x18 then b.writeApu k v
  else b

/-- A write to the mapper region (R60): RAM stores, ROM is not changed, anything else is the mapper's own affair, whose later
reads are free anyway (log 9). -/
def Bus.writeCart (a : Addr) (v : Byte) (b : Bus) : Bus :=
  match b.cart.kindAt a.toNat with
  | .prgRam => { b with mem := b.mem.write a.toNat v }
  | .prgRom | .mapper => b

/-- The platform's reaction to a CPU write (R54 to R60). -/
def Bus.write (a : Addr) (v : Byte) (b : Bus) : Bus :=
  if a.toNat < 0x2000 then { b with mem := b.mem.write (ramIndex a) v }
  else if a.toNat < 0x4000 then b.writePpu (a.toNat % 8) v
  else if a.toNat < 0x4020 then b.writeIo (a.toNat - 0x4000) v
  else b.writeCart a v

/-- The delta-modulation channel's part of an APU cycle: while bytes remain it may read one through the CPU's own address
decode, with that address's side effects, and without stalling the CPU (R71, D21, log 17). -/
def Bus.dmcTick (b : Bus) : Bus :=
  if b.apu.dmcLeft = 0 then b
  else if Config.dmcFetch b.draws then (b.drawn.read b.apu.dmcAddr).2.dmcAdvance
  else b.drawn

/-- One APU cycle as the CPU sees it (R257, R260, R261). -/
def Bus.apuStep (b : Bus) : Bus := b.frameTick.dmcTick

/-- One OAM-DMA half-cycle (R263). -/
def Bus.dmaStep (b : Bus) : Bus :=
  if b.dma.align then { b with dma := { b.dma with align := false } }
  else
    let b :=
      if b.dma.index = 0 then b
      else if b.dma.index % 2 = 1 then
        let (v, b) := b.read (BitVec.ofNat 16 (b.dma.page.toNat * 256 + (b.dma.index - 1) / 2))
        { b with dma := { b.dma with latch := v } }
      else b.write 0x2004#16 b.dma.latch
    if b.dma.index + 1 = 513 then { b with dma := { b.dma with active := false, index := 0 } }
    else { b with dma := { b.dma with index := b.dma.index + 1 } }

/-- The mapper's own events of a PPU dot: an IRQ-capable cartridge may hold its request at any level (R258, R261, log 10). -/
def Bus.mapperHook (b : Bus) : Bus :=
  if b.cart.irqCapable then { b.drawn with irq := { b.irq with mapper := Config.mapperIrq b.draws } } else b

end Sys2Proof.Machine
end

