-- ==== Sys2Proof/Machine/Flags.lean ====
section
/-! DEFINITION. Every flag computation: setNZ, the status byte, the adder's laws, compare, the shifts (R12, R26 to R29). -/

namespace Sys2Proof.Machine

/-- `setNZ(v)`: Z from v = 0, N from bit 7 (R12). -/
def Flags.setNZ (v : Byte) (f : Flags) : Flags := { f with z := v == 0#8, n := v.getLsbD 7 }

/-- The status byte `P(b)`: N V 1 b D I Z C from bit 7 to bit 0 (R27). -/
def Flags.statusByte (b : Bool) (f : Flags) : Byte :=
  BitVec.ofBool f.n ++ BitVec.ofBool f.v ++ 1#1 ++ BitVec.ofBool b
    ++ BitVec.ofBool f.d ++ BitVec.ofBool f.i ++ BitVec.ofBool f.z ++ BitVec.ofBool f.c

/-- The flags loaded from a byte; bits 5 and 4 are discarded (R28). -/
def loadStatus (p : Byte) : Flags where
  n := p.getLsbD 7
  v := p.getLsbD 6
  d := p.getLsbD 3
  i := p.getLsbD 2
  z := p.getLsbD 1
  c := p.getLsbD 0

/-- Add with carry of two bytes (R29): the exact sum 0..511, its low byte, C the unsigned and V the signed overflow. D is not
read (D1). -/
def Flags.addWithCarry (a b : Byte) (f : Flags) : Byte × Flags :=
  let s := a.toNat + b.toNat + f.c.toNat
  let r := BitVec.ofNat 8 s
  (r, Flags.setNZ r { f with c := decide (0xFF < s), v := ((a ^^^ r) &&& (b ^^^ r)).getLsbD 7 })

/-- Subtract with borrow: the addition of the complement (R29, R132). -/
def Flags.subWithBorrow (a m : Byte) (f : Flags) : Byte × Flags := f.addWithCarry a (m ^^^ 0xFF#8)

/-- Compare `a` with `m` (R136): C unsigned at-least, Z equal, N bit 7 of the difference. -/
def Flags.compare (a m : Byte) (f : Flags) : Flags :=
  { f with c := decide (m.toNat ≤ a.toNat), z := a == m, n := (a - m).getLsbD 7 }

/-- What ASL does to a byte: result and flags with the new carry (R161). -/
def shiftLeft (v : Byte) (f : Flags) : Byte × Flags := (v <<< 1, { f with c := v.getLsbD 7 })

/-- What LSR does to a byte (R162). -/
def shiftRight (v : Byte) (f : Flags) : Byte × Flags := (v >>> 1, { f with c := v.getLsbD 0 })

/-- What ROL does to a byte: the old carry enters at bit 0 (R163). -/
def rotateLeft (v : Byte) (f : Flags) : Byte × Flags :=
  (v.extractLsb' 0 7 ++ BitVec.ofBool f.c, { f with c := v.getLsbD 7 })

/-- What ROR does to a byte: the old carry enters at bit 7 (R164). -/
def rotateRight (v : Byte) (f : Flags) : Byte × Flags :=
  (BitVec.ofBool f.c ++ v.extractLsb' 1 7, { f with c := v.getLsbD 0 })

/-- What INC and DEC do to a byte: no carry is used or written (R140, R141). -/
def incByte (v : Byte) (f : Flags) : Byte × Flags := (v + 1, f)

def decByte (v : Byte) (f : Flags) : Byte × Flags := (v - 1, f)

end Sys2Proof.Machine
end

