-- ==== Sys2Proof/Machine/Ops.lean ====
section
/-! DEFINITION. The named operations over registers, memory and stack (R12 to R15), and the one operation by which BRK, NMI
and IRQ enter a handler, with the return from it beside it (R182, R183, R255, R256). -/

namespace Sys2Proof.Machine

/-! Registers. -/

def State.setA (v : Byte) (s : State) : State := { s with cpu := { s.cpu with a := v } }
def State.setX (v : Byte) (s : State) : State := { s with cpu := { s.cpu with x := v } }
def State.setY (v : Byte) (s : State) : State := { s with cpu := { s.cpu with y := v } }
def State.setSP (v : Byte) (s : State) : State := { s with cpu := { s.cpu with sp := v } }
def State.setPC (v : Addr) (s : State) : State := { s with cpu := { s.cpu with pc := v } }
def State.setFlags (f : Flags) (s : State) : State := { s with cpu := { s.cpu with flags := f } }

/-- `setNZ(v)` on the state's flags (R12). -/
def State.setNZ (v : Byte) (s : State) : State := s.setFlags (s.cpu.flags.setNZ v)

/-- `cycles_left <- n`: the base count of an instruction (R254). -/
def State.setCycles (n : Nat) (s : State) : State := { s with cpu := { s.cpu with cyclesLeft := n } }

/-- `cycles_left <- cycles_left + n`: a penalty (R14, R97). -/
def State.addCycles (n : Nat) (s : State) : State := s.setCycles (s.cpu.cyclesLeft + n)

/-- An IRQ pending when BRK executes is remembered (log 37). -/
def State.setIrqOpen (b : Bool) (s : State) : State := { s with bus := { s.bus with irqOpen := b } }

/-! Memory (R13). -/

/-- `MemRead(a)`: the byte the bus gives, and the state with the read's side effects. -/
def State.memRead (a : Addr) (s : State) : Byte × State :=
  ((s.bus.read a).1, { s with bus := (s.bus.read a).2 })

/-- `MemWrite(a, v)`. -/
def State.memWrite (a : Addr) (v : Byte) (s : State) : State := { s with bus := s.bus.write a v }

/-- `Read16(a)`: two reads, low byte first (R13, R52). -/
def State.read16 (a : Addr) (s : State) : Addr × State :=
  let (lo, s) := s.memRead a
  let (hi, s) := s.memRead (a + 1)
  (word lo hi, s)

/-- `FetchByte()`: a read at PC, which advances (R14). -/
def State.fetchByte (s : State) : Byte × State :=
  let (b, s) := s.memRead s.cpu.pc
  (b, s.setPC (s.cpu.pc + 1))

/-! Stack (R13, R24). -/

/-- `Push(v)`: write at 0x0100 | SP, then decrement SP modulo 256. -/
def State.push (v : Byte) (s : State) : State :=
  let s := s.memWrite (stackAddr s.cpu.sp) v
  s.setSP (s.cpu.sp - 1)

/-- `Pull()`: increment SP modulo 256, then read at 0x0100 | SP. -/
def State.pull (s : State) : Byte × State :=
  let s := s.setSP (s.cpu.sp + 1)
  s.memRead (stackAddr s.cpu.sp)

/-- Push a return address, high byte first (R51, R180). -/
def State.pushWord (w : Addr) (s : State) : State := (s.push (hiByte w)).push (loByte w)

/-- Pull a return address, low byte first (R181, R183). -/
def State.pullWord (s : State) : Addr × State :=
  let (lo, s) := s.pull
  let (hi, s) := s.pull
  (word lo hi, s)

/-! Entering and leaving a handler. -/

/-- The NMI vector (R63, R266). -/
def nmiVector : Addr := 0xFFFA#16

/-- The reset vector (R63, R291). -/
def resetVector : Addr := 0xFFFC#16

/-- The vector IRQ and BRK share (R63, R182, R256). -/
def irqVector : Addr := 0xFFFE#16

/-- Enter a handler: push the return address and the status byte `P(b)`, set I, and load PC from the vector. Nothing else
changes: D in particular is kept (R182, R255, R256, R266). -/
def State.enterHandler (ret vector : Addr) (b : Bool) (s : State) : State :=
  let s := (s.pushWord ret).push (s.cpu.flags.statusByte b)
  let s := s.setFlags { s.cpu.flags with i := true }
  let (target, s) := s.read16 vector
  s.setPC target

/-- Leave a handler: pull the status byte, then PC, with no increment (R183, R267). -/
def State.leaveHandler (s : State) : State :=
  let (p, s) := s.pull
  let s := s.setFlags (loadStatus p)
  let (target, s) := s.pullWord
  s.setPC target

end Sys2Proof.Machine
end

