-- ==== Sys2Proof/Machine/Operands.lean ====
section
/-! DEFINITION. Every operand form: the addressing-mode resolver of R83 to R98 (the operand bytes are already fetched, PC past
them), its base cycle counts and page penalty by instruction class, and the operations that read, store and modify an
operand. -/

namespace Sys2Proof.Machine

/-- What the resolver makes of a memory operand: the address before indexing and the effective address. The two are equal
where no 16-bit base is indexed. -/
structure Resolved where
  base : Addr
  ea   : Addr
  deriving DecidableEq, Repr

/-- A page cross: the effective address lies in another page than the base (R17, R97). -/
def Resolved.crossed (r : Resolved) : Bool := otherPage r.base r.ea

/-- A pointer in page zero: low byte, then high byte with wrap within page zero (R92, R93). -/
def State.zeroPagePointer (p : Byte) (s : State) : Addr × State :=
  let (lo, s) := s.memRead (zeroPage p)
  let (hi, s) := s.memRead (zeroPage (p + 1))
  (word lo hi, s)

/-- The resolver for memory operands (R86, R87, R89 to R94). -/
def State.resolve (m : Mem) (s : State) : Resolved × State :=
  match m with
  | .zp b => (⟨zeroPage b, zeroPage b⟩, s)
  | .zpx b => (⟨zeroPage (b + s.cpu.x), zeroPage (b + s.cpu.x)⟩, s)
  | .zpy b => (⟨zeroPage (b + s.cpu.y), zeroPage (b + s.cpu.y)⟩, s)
  | .abs w => (⟨w, w⟩, s)
  | .abx w => (⟨w, w + s.cpu.x.zeroExtend 16⟩, s)
  | .aby w => (⟨w, w + s.cpu.y.zeroExtend 16⟩, s)
  | .izx b =>
    let (w, s) := s.zeroPagePointer (b + s.cpu.x)
    (⟨w, w⟩, s)
  | .izy b =>
    let (w, s) := s.zeroPagePointer b
    (⟨w, w + s.cpu.y.zeroExtend 16⟩, s)

/-- The target of JMP: absolute, or through a pointer whose second byte is read from the same page as its first (R94, R95). -/
def State.jumpTarget (t : Target) (s : State) : Addr × State :=
  match t with
  | .abs w => (w, s)
  | .ind w =>
    let (lo, s) := s.memRead w
    let (hi, s) := s.memRead (word (loByte w + 1) (hiByte w))
    (word lo hi, s)

/-- Base cycles of a read instruction by form, before the page penalty (R99). -/
def readCycles : Mem → Nat
  | .zp _ => 3
  | .zpx _ | .zpy _ | .abs _ | .abx _ | .aby _ => 4
  | .izx _ => 6
  | .izy _ => 5

/-- Cycles of a store by form: never a penalty (R99, R304). -/
def storeCycles : Mem → Nat
  | .zp _ => 3
  | .zpx _ | .zpy _ | .abs _ => 4
  | .abx _ | .aby _ => 5
  | .izx _ | .izy _ => 6

/-- Cycles of a read-modify-write instruction by form: never a penalty (R99, R304). -/
def rmwCycles : Mem → Nat
  | .zp _ => 5
  | .zpx _ | .zpy _ | .abs _ => 6
  | .abx _ | .aby _ => 7
  | .izx _ | .izy _ => 8

/-- Resolve the operand of a read-class instruction: base cycles, resolver, page penalty (R97, R254). -/
def State.resolveRead (m : Mem) (s : State) : Addr × State :=
  let (r, s) := (s.setCycles (readCycles m)).resolve m
  (r.ea, if r.crossed then s.addCycles 1 else s)

/-- Read the operand of a read instruction. An immediate byte was read with the instruction (R88, log 6). -/
def State.readSrc (src : Src) (s : State) : Byte × State :=
  match src with
  | .imm b => (b, s.setCycles 2)
  | .mem m =>
    let (ea, s) := s.resolveRead m
    s.memRead ea

/-- Store a byte at a memory operand: one write, no read (R110). -/
def State.store (m : Mem) (v : Byte) (s : State) : State :=
  let (r, s) := (s.setCycles (storeCycles m)).resolve m
  s.memWrite r.ea v

/-- Read-modify-write of a memory operand: one read, one write, the carry `f` leaves; the result is returned (R61, R74, R160). -/
def State.modify (f : Byte → Flags → Byte × Flags) (m : Mem) (s : State) : Byte × State :=
  let (r, s) := (s.setCycles (rmwCycles m)).resolve m
  let (v, s) := s.memRead r.ea
  let (w, fl) := f v s.cpu.flags
  (w, (s.memWrite r.ea w).setFlags fl)

/-- A shift or rotate of A or of memory, with N and Z from the result (R160). -/
def State.shift (f : Byte → Flags → Byte × Flags) (d : Dst) (s : State) : State :=
  match d with
  | .acc =>
    let (w, fl) := f s.cpu.a s.cpu.flags
    (((s.setCycles 2).setA w).setFlags fl).setNZ w
  | .mem m =>
    let (w, s) := s.modify f m
    s.setNZ w

/-- The conditional branch (R170): a taken branch costs one cycle more, and one more if its target lies in another page
than the byte after it, where PC is. -/
def State.branch (cond : Bool) (off : Byte) (s : State) : State :=
  let s := s.setCycles 2
  if cond then
    let t := s.cpu.pc + branchOffset off
    let s := s.addCycles 1
    let s := if otherPage s.cpu.pc t then s.addCycles 1 else s
    s.setPC t
  else s

end Sys2Proof.Machine
end

