-- ==== Sys2Proof/Machine/Arith.lean ====
section
/-! DEFINITION. Arithmetic, logic, compare and increment (41_arith_logic.md, R130 to R146). D is never read (D1). -/

namespace Sys2Proof.Machine

/-- ADC (R131). -/
def execAdc (src : Src) (s : State) : Host.Outcome State Fault Refusal :=
  let (m, s) := s.readSrc src
  let (r, f) := s.cpu.flags.addWithCarry s.cpu.a m
  .next ((s.setA r).setFlags f)

/-- SBC (R132). -/
def execSbc (src : Src) (s : State) : Host.Outcome State Fault Refusal :=
  let (m, s) := s.readSrc src
  let (r, f) := s.cpu.flags.subWithBorrow s.cpu.a m
  .next ((s.setA r).setFlags f)

/-- AND (R133). -/
def execAnd (src : Src) (s : State) : Host.Outcome State Fault Refusal :=
  let (m, s) := s.readSrc src
  let r := s.cpu.a &&& m
  .next ((s.setA r).setNZ r)

/-- ORA (R134). -/
def execOra (src : Src) (s : State) : Host.Outcome State Fault Refusal :=
  let (m, s) := s.readSrc src
  let r := s.cpu.a ||| m
  .next ((s.setA r).setNZ r)

/-- EOR (R135). -/
def execEor (src : Src) (s : State) : Host.Outcome State Fault Refusal :=
  let (m, s) := s.readSrc src
  let r := s.cpu.a ^^^ m
  .next ((s.setA r).setNZ r)

/-- CMP (R136). -/
def execCmp (src : Src) (s : State) : Host.Outcome State Fault Refusal :=
  let (m, s) := s.readSrc src
  .next (s.setFlags (s.cpu.flags.compare s.cpu.a m))

/-- CPX (R137). -/
def execCpx (src : Src) (s : State) : Host.Outcome State Fault Refusal :=
  let (m, s) := s.readSrc src
  .next (s.setFlags (s.cpu.flags.compare s.cpu.x m))

/-- CPY (R138). -/
def execCpy (src : Src) (s : State) : Host.Outcome State Fault Refusal :=
  let (m, s) := s.readSrc src
  .next (s.setFlags (s.cpu.flags.compare s.cpu.y m))

/-- BIT (R139): N and V come from the memory byte. -/
def execBit (m : Mem) (s : State) : Host.Outcome State Fault Refusal :=
  let (v, s) := s.readSrc (.mem m)
  .next (s.setFlags { s.cpu.flags with z := (s.cpu.a &&& v) == 0#8, n := v.getLsbD 7, v := v.getLsbD 6 })

/-- INC (R140). -/
def execInc (m : Mem) (s : State) : Host.Outcome State Fault Refusal :=
  let (w, s) := s.modify incByte m
  .next (s.setNZ w)

/-- DEC (R141). -/
def execDec (m : Mem) (s : State) : Host.Outcome State Fault Refusal :=
  let (w, s) := s.modify decByte m
  .next (s.setNZ w)

/-- INX (R142). -/
def execInx (s : State) : Host.Outcome State Fault Refusal :=
  .next (((s.setCycles 2).setX (s.cpu.x + 1)).setNZ (s.cpu.x + 1))

/-- INY (R143). -/
def execIny (s : State) : Host.Outcome State Fault Refusal :=
  .next (((s.setCycles 2).setY (s.cpu.y + 1)).setNZ (s.cpu.y + 1))

/-- DEX (R144). -/
def execDex (s : State) : Host.Outcome State Fault Refusal :=
  .next (((s.setCycles 2).setX (s.cpu.x - 1)).setNZ (s.cpu.x - 1))

/-- DEY (R145). -/
def execDey (s : State) : Host.Outcome State Fault Refusal :=
  .next (((s.setCycles 2).setY (s.cpu.y - 1)).setNZ (s.cpu.y - 1))

end Sys2Proof.Machine
end

