-- ==== Sys2Proof/Machine/Control.lean ====
section
/-! DEFINITION. Branches, jumps, calls and returns (43_control.md, R170 to R185). PC is at the byte after the instruction (R25). -/

namespace Sys2Proof.Machine

/-- BPL (R171). -/
def execBpl (off : Byte) (s : State) : Host.Outcome State Fault Refusal :=
  .next (s.branch (!s.cpu.flags.n) off)

/-- BMI (R172). -/
def execBmi (off : Byte) (s : State) : Host.Outcome State Fault Refusal :=
  .next (s.branch s.cpu.flags.n off)

/-- BVC (R173). -/
def execBvc (off : Byte) (s : State) : Host.Outcome State Fault Refusal :=
  .next (s.branch (!s.cpu.flags.v) off)

/-- BVS (R174). -/
def execBvs (off : Byte) (s : State) : Host.Outcome State Fault Refusal :=
  .next (s.branch s.cpu.flags.v off)

/-- BCC (R175). -/
def execBcc (off : Byte) (s : State) : Host.Outcome State Fault Refusal :=
  .next (s.branch (!s.cpu.flags.c) off)

/-- BCS (R176). -/
def execBcs (off : Byte) (s : State) : Host.Outcome State Fault Refusal :=
  .next (s.branch s.cpu.flags.c off)

/-- BNE (R177). -/
def execBne (off : Byte) (s : State) : Host.Outcome State Fault Refusal :=
  .next (s.branch (!s.cpu.flags.z) off)

/-- BEQ (R178). -/
def execBeq (off : Byte) (s : State) : Host.Outcome State Fault Refusal :=
  .next (s.branch s.cpu.flags.z off)

/-- Cycles of JMP by form (R179). -/
def jumpCycles : Target → Nat
  | .abs _ => 3
  | .ind _ => 5

/-- JMP (R179). -/
def execJmp (t : Target) (s : State) : Host.Outcome State Fault Refusal :=
  let (ea, s) := (s.setCycles (jumpCycles t)).jumpTarget t
  .next (s.setPC ea)

/-- JSR (R180): the pushed word is the address of its last byte. -/
def execJsr (w : Addr) (s : State) : Host.Outcome State Fault Refusal :=
  .next (((s.setCycles 6).pushWord (s.cpu.pc - 1)).setPC w)

/-- RTS (R181). -/
def execRts (s : State) : Host.Outcome State Fault Refusal :=
  let (ret, s) := (s.setCycles 6).pullWord
  .next (s.setPC (ret + 1))

/-- BRK (R182): the padding byte is skipped, not read; B is 1. An IRQ pending now is remembered: whether
the next boundary takes it, although I is 1 then, is open (log 37). -/
def execBrk (s : State) : Host.Outcome State Fault Refusal :=
  .next (((s.setCycles 7).enterHandler (s.cpu.pc + 1) irqVector true).setIrqOpen s.cpu.irqPending)

/-- RTI (R183). -/
def execRti (s : State) : Host.Outcome State Fault Refusal :=
  .next (s.setCycles 6).leaveHandler

end Sys2Proof.Machine
end

