-- ==== Sys2Proof/Machine/Interrupt.lean ====
section
/-! DEFINITION. The two interrupt pseudo-opcodes (60_exceptions.md, R255, R256). PC is the next instruction not yet executed. -/

namespace Sys2Proof.Machine

/-- NMI entry (R255). -/
def execNmi (s : State) : Host.Outcome State Fault Refusal :=
  .next ((s.setCycles 7).enterHandler s.cpu.pc nmiVector false)

/-- IRQ entry (R256). -/
def execIrq (s : State) : Host.Outcome State Fault Refusal :=
  .next ((s.setCycles 7).enterHandler s.cpu.pc irqVector false)

end Sys2Proof.Machine
end

