-- ==== Sys2Proof/Machine/LoadStore.lean ====
section
/-! DEFINITION. Loads, stores and register transfers (40_load_store_transfer.md, R110 to R122). -/

namespace Sys2Proof.Machine

/-- LDA (R111). -/
def execLda (src : Src) (s : State) : Host.Outcome State Fault Refusal :=
  let (m, s) := s.readSrc src
  .next ((s.setA m).setNZ m)

/-- LDX (R112). -/
def execLdx (src : Src) (s : State) : Host.Outcome State Fault Refusal :=
  let (m, s) := s.readSrc src
  .next ((s.setX m).setNZ m)

/-- LDY (R113). -/
def execLdy (src : Src) (s : State) : Host.Outcome State Fault Refusal :=
  let (m, s) := s.readSrc src
  .next ((s.setY m).setNZ m)

/-- STA (R114): no flag. -/
def execSta (m : Mem) (s : State) : Host.Outcome State Fault Refusal :=
  .next (s.store m s.cpu.a)

/-- STX (R115): no flag. -/
def execStx (m : Mem) (s : State) : Host.Outcome State Fault Refusal :=
  .next (s.store m s.cpu.x)

/-- STY (R116): no flag. -/
def execSty (m : Mem) (s : State) : Host.Outcome State Fault Refusal :=
  .next (s.store m s.cpu.y)

/-- TAX (R117). -/
def execTax (s : State) : Host.Outcome State Fault Refusal :=
  .next (((s.setCycles 2).setX s.cpu.a).setNZ s.cpu.a)

/-- TAY (R118). -/
def execTay (s : State) : Host.Outcome State Fault Refusal :=
  .next (((s.setCycles 2).setY s.cpu.a).setNZ s.cpu.a)

/-- TXA (R119). -/
def execTxa (s : State) : Host.Outcome State Fault Refusal :=
  .next (((s.setCycles 2).setA s.cpu.x).setNZ s.cpu.x)

/-- TYA (R120). -/
def execTya (s : State) : Host.Outcome State Fault Refusal :=
  .next (((s.setCycles 2).setA s.cpu.y).setNZ s.cpu.y)

/-- TSX (R121). -/
def execTsx (s : State) : Host.Outcome State Fault Refusal :=
  .next (((s.setCycles 2).setX s.cpu.sp).setNZ s.cpu.sp)

/-- TXS (R122): the one transfer that writes no flag. -/
def execTxs (s : State) : Host.Outcome State Fault Refusal :=
  .next ((s.setCycles 2).setSP s.cpu.x)

end Sys2Proof.Machine
end

