-- ==== Sys2Proof/Machine/Shift.lean ====
section
/-! DEFINITION. Shifts and rotates (42_shift_rotate.md, R160 to R164). -/

namespace Sys2Proof.Machine

/-- ASL (R161). -/
def execAsl (d : Dst) (s : State) : Host.Outcome State Fault Refusal :=
  .next (s.shift shiftLeft d)

/-- LSR (R162). -/
def execLsr (d : Dst) (s : State) : Host.Outcome State Fault Refusal :=
  .next (s.shift shiftRight d)

/-- ROL (R163). -/
def execRol (d : Dst) (s : State) : Host.Outcome State Fault Refusal :=
  .next (s.shift rotateLeft d)

/-- ROR (R164). -/
def execRor (d : Dst) (s : State) : Host.Outcome State Fault Refusal :=
  .next (s.shift rotateRight d)

end Sys2Proof.Machine
end

