-- ==== Sys2Proof/Machine/StackFlags.lean ====
section
/-! DEFINITION. Stack, flag and no-operation instructions (44_stack_flags.md, R190 to R202). -/

namespace Sys2Proof.Machine

/-- PHA (R191). -/
def execPha (s : State) : Host.Outcome State Fault Refusal :=
  .next ((s.setCycles 3).push s.cpu.a)

/-- PHP (R192): bits 5 and 4 set. -/
def execPhp (s : State) : Host.Outcome State Fault Refusal :=
  .next ((s.setCycles 3).push (s.cpu.flags.statusByte true))

/-- PLA (R193). -/
def execPla (s : State) : Host.Outcome State Fault Refusal :=
  let (v, s) := (s.setCycles 4).pull
  .next ((s.setA v).setNZ v)

/-- PLP (R194). -/
def execPlp (s : State) : Host.Outcome State Fault Refusal :=
  let (p, s) := (s.setCycles 4).pull
  .next (s.setFlags (loadStatus p))

/-- CLC (R195). -/
def execClc (s : State) : Host.Outcome State Fault Refusal :=
  .next ((s.setCycles 2).setFlags { s.cpu.flags with c := false })

/-- SEC (R196). -/
def execSec (s : State) : Host.Outcome State Fault Refusal :=
  .next ((s.setCycles 2).setFlags { s.cpu.flags with c := true })

/-- CLI (R197). -/
def execCli (s : State) : Host.Outcome State Fault Refusal :=
  .next ((s.setCycles 2).setFlags { s.cpu.flags with i := false })

/-- SEI (R198). -/
def execSei (s : State) : Host.Outcome State Fault Refusal :=
  .next ((s.setCycles 2).setFlags { s.cpu.flags with i := true })

/-- CLD (R199). -/
def execCld (s : State) : Host.Outcome State Fault Refusal :=
  .next ((s.setCycles 2).setFlags { s.cpu.flags with d := false })

/-- SED (R200). -/
def execSed (s : State) : Host.Outcome State Fault Refusal :=
  .next ((s.setCycles 2).setFlags { s.cpu.flags with d := true })

/-- CLV (R201). -/
def execClv (s : State) : Host.Outcome State Fault Refusal :=
  .next ((s.setCycles 2).setFlags { s.cpu.flags with v := false })

/-- NOP 0xEA (R202). -/
def execNop (s : State) : Host.Outcome State Fault Refusal :=
  .next (s.setCycles 2)

end Sys2Proof.Machine
end

