-- ==== Sys2Proof/Machine/Undocumented.lean ====
section
/-! DEFINITION. Undocumented opcodes (45_undocumented.md, R210 to R234). -/

namespace Sys2Proof.Machine

/-- SLO (R211): N and Z describe the new A. -/
def execSlo (m : Mem) (s : State) : Host.Outcome State Fault Refusal :=
  let (w, s) := s.modify shiftLeft m
  let r := s.cpu.a ||| w
  .next ((s.setA r).setNZ r)

/-- RLA (R212): N and Z describe the new A. -/
def execRla (m : Mem) (s : State) : Host.Outcome State Fault Refusal :=
  let (w, s) := s.modify rotateLeft m
  let r := s.cpu.a &&& w
  .next ((s.setA r).setNZ r)

/-- SRE (R213): N and Z describe the new A. -/
def execSre (m : Mem) (s : State) : Host.Outcome State Fault Refusal :=
  let (w, s) := s.modify shiftRight m
  let r := s.cpu.a ^^^ w
  .next ((s.setA r).setNZ r)

/-- RRA (R214): the rotate's carry-out is the addition's carry-in. -/
def execRra (m : Mem) (s : State) : Host.Outcome State Fault Refusal :=
  let (w, s) := s.modify rotateRight m
  let (r, f) := s.cpu.flags.addWithCarry s.cpu.a w
  .next ((s.setA r).setFlags f)

/-- SAX (R215): no flag. -/
def execSax (m : Mem) (s : State) : Host.Outcome State Fault Refusal :=
  .next (s.store m (s.cpu.a &&& s.cpu.x))

/-- LAX (R216). -/
def execLax (m : Mem) (s : State) : Host.Outcome State Fault Refusal :=
  let (v, s) := s.readSrc (.mem m)
  .next (((s.setA v).setX v).setNZ v)

/-- DCP (R217). -/
def execDcp (m : Mem) (s : State) : Host.Outcome State Fault Refusal :=
  let (w, s) := s.modify decByte m
  .next (s.setFlags (s.cpu.flags.compare s.cpu.a w))

/-- ISC (R218). -/
def execIsc (m : Mem) (s : State) : Host.Outcome State Fault Refusal :=
  let (w, s) := s.modify incByte m
  let (r, f) := s.cpu.flags.subWithBorrow s.cpu.a w
  .next ((s.setA r).setFlags f)

/-- ANC 0x0B and 0x2B (R219): C is bit 7 of the new A. -/
def execAnc (_op b : Byte) (s : State) : Host.Outcome State Fault Refusal :=
  let r := s.cpu.a &&& b
  let f := s.cpu.flags.setNZ r
  .next (((s.setCycles 2).setA r).setFlags { f with c := r.getLsbD 7 })

/-- ALR (R220). -/
def execAlr (b : Byte) (s : State) : Host.Outcome State Fault Refusal :=
  let (r, f) := shiftRight (s.cpu.a &&& b) s.cpu.flags
  .next ((((s.setCycles 2).setA r).setFlags f).setNZ r)

/-- ARR (R221): C is bit 6 of the result and V is bit 6 xor bit 5. -/
def execArr (b : Byte) (s : State) : Host.Outcome State Fault Refusal :=
  let (r, _) := rotateRight (s.cpu.a &&& b) s.cpu.flags
  let f := s.cpu.flags.setNZ r
  .next (((s.setCycles 2).setA r).setFlags { f with c := r.getLsbD 6, v := r.getLsbD 6 ^^ r.getLsbD 5 })

/-- AXS (R222): X <- (A and X) - m without borrow, flags as a comparison's. -/
def execAxs (b : Byte) (s : State) : Host.Outcome State Fault Refusal :=
  let t := s.cpu.a &&& s.cpu.x
  .next (((s.setCycles 2).setX (t - b)).setFlags (s.cpu.flags.compare t b))

/-- SBC 0xEB (R223). -/
def execSbcUndoc (b : Byte) (s : State) : Host.Outcome State Fault Refusal :=
  let (r, f) := s.cpu.flags.subWithBorrow s.cpu.a b
  .next (((s.setCycles 2).setA r).setFlags f)

/-- The undocumented NOPs (R224): the resolver and its page penalty, no data read. -/
def execNopUndoc (_op : Byte) (arg : NopArg) (s : State) : Host.Outcome State Fault Refusal :=
  match arg with
  | .imp | .imm _ => .next (s.setCycles 2)
  | .mem m => .next (s.resolveRead m).2

/-- KIL (R225): PC goes back to the KIL opcode itself. -/
def execKil (_op : Byte) (s : State) : Host.Outcome State Fault Refusal :=
  .next ((s.setCycles 2).setPC (s.cpu.pc - 1))

/-- LAS (R226). -/
def execLas (w : Addr) (s : State) : Host.Outcome State Fault Refusal :=
  let (m, s) := s.readSrc (.mem (.aby w))
  let v := m &&& s.cpu.sp
  .next ((((s.setA v).setX v).setSP v).setNZ v)

/-- R233: the resolver runs, the base cycles are owed, and nothing else happens. -/
def State.degraded (m : Mem) (s : State) : State := ((s.setCycles (storeCycles m)).resolve m).2

/-- The `nmos` unstable store: the byte is `src & (h + 1)`, h the page of the unindexed base, and on a page cross it replaces
the high byte of the address stored to (R229 to R232, R234). -/
def State.storeUnstable (m : Mem) (src : Byte) (s : State) : State :=
  let (r, s) := (s.setCycles (storeCycles m)).resolve m
  let v := src &&& (hiByte r.base + 1)
  s.memWrite (if r.crossed then word (loByte r.ea) v else r.ea) v

/-- XAA (R227). -/
def execXaa (b : Byte) (s : State) : Host.Outcome State Fault Refusal :=
  match s.bus.params.unstableOps with
  | .degraded => .next (s.setCycles 2)
  | .nmos =>
    let r := (s.cpu.a ||| Config.xaaMagic) &&& s.cpu.x &&& b
    .next (((s.setCycles 2).setA r).setNZ r)

/-- LXA (R228). -/
def execLxa (b : Byte) (s : State) : Host.Outcome State Fault Refusal :=
  match s.bus.params.unstableOps with
  | .degraded => .next (s.setCycles 2)
  | .nmos =>
    let v := (s.cpu.a ||| Config.xaaMagic) &&& b
    .next ((((s.setCycles 2).setA v).setX v).setNZ v)

/-- AHX (R229). -/
def execAhx (m : Mem) (s : State) : Host.Outcome State Fault Refusal :=
  match s.bus.params.unstableOps with
  | .degraded => .next (s.degraded m)
  | .nmos => .next (s.storeUnstable m (s.cpu.a &&& s.cpu.x))

/-- TAS (R230). -/
def execTas (w : Addr) (s : State) : Host.Outcome State Fault Refusal :=
  match s.bus.params.unstableOps with
  | .degraded => .next (s.degraded (.aby w))
  | .nmos => .next ((s.setSP (s.cpu.a &&& s.cpu.x)).storeUnstable (.aby w) (s.cpu.a &&& s.cpu.x))

/-- SHY (R231). -/
def execShy (w : Addr) (s : State) : Host.Outcome State Fault Refusal :=
  match s.bus.params.unstableOps with
  | .degraded => .next (s.degraded (.abx w))
  | .nmos => .next (s.storeUnstable (.abx w) s.cpu.y)

/-- SHX (R232). -/
def execShx (w : Addr) (s : State) : Host.Outcome State Fault Refusal :=
  match s.bus.params.unstableOps with
  | .degraded => .next (s.degraded (.aby w))
  | .nmos => .next (s.storeUnstable (.aby w) s.cpu.x)

end Sys2Proof.Machine
end

