-- ==== Sys2Proof/Machine/System.lean ====
section
/-! DEFINITION. Fetching, the instruction boundary, the CPU step and the system cycle (R84, R253, R254, R257, R296). -/

namespace Sys2Proof.Machine

/-- Does an instruction ignore its immediate byte, so that the byte is skipped and not read (R88)? The undocumented NOPs do,
and XAA and LXA do in `degraded` mode (R224, R233). -/
def operandIgnored (i : Instr) (mode : UnstableOps) : Bool :=
  match i with
  | .nopUndoc _ (.imm _) => true
  | .xaa _ | .lxa _ => mode == .degraded
  | _ => false

/-- Skip the byte at PC without a bus read; what storage holds there is given where it is storage (log 33). -/
def State.skipByte (s : State) : Byte × State := ((s.bus.peek s.cpu.pc).getD 0x00#8, s.setPC (s.cpu.pc + 1))

/-- Fetch the opcode byte and the operand bytes it is followed by, PC advancing over each (R14, R75, R80, R84). -/
def State.fetch (s : State) : Instr × State :=
  let (op, s) := s.fetchByte
  match operandCount op with
  | 0 => (decodeOp op 0x00#8 0x00#8, s)
  | 1 =>
    let (l, s) := if operandIgnored (decodeOp op 0x00#8 0x00#8) s.bus.params.unstableOps then s.skipByte else s.fetchByte
    (decodeOp op l 0x00#8, s)
  | _ =>
    let (l, s) := s.fetchByte
    let (h, s) := s.fetchByte
    (decodeOp op l h, s)

/-- NMI is accepted (R253). -/
def State.takeNmi (s : State) : Bool := s.cpu.nmiPending

/-- Does I keep an asserted IRQ out? Where I is 1 it does (R253), but for an IRQ that was pending when the instruction just
executed, a BRK, ran: R182, R265 and D12 have it taken, R253, R267 and D8 kept out. A free value, DESIGN CHOICE, log 37. -/
def State.irqMasked (s : State) : Bool := s.cpu.flags.i && !(s.bus.irqOpen && Config.irqAfterBrk s.bus.draws)

/-- IRQ is accepted: no NMI, the line asserted, not masked (R253). -/
def State.takeIrq (s : State) : Bool := !s.cpu.nmiPending && s.cpu.irqPending && !s.irqMasked

/-- The NMI latch is consumed (R254). -/
def State.consumeNmi (s : State) : State := { s with cpu := { s.cpu with nmiPending := false } }

/-- The boundary after BRK has come: what was open there is so no longer, and its draw is used up. At every other boundary nothing
changes (log 37). -/
def State.pastBrk (s : State) : State :=
  if s.bus.irqOpen then { s with bus := { s.bus.drawn with irqOpen := false } } else s

/-- What happens at an instruction boundary (R254): NMI entry, else IRQ entry, else fetch and execute. -/
def State.dispatch (s : State) : Host.Outcome State Fault Refusal :=
  if s.takeNmi then exec .nmi s.pastBrk.consumeNmi
  else if s.takeIrq then exec .irq s.pastBrk
  else exec s.pastBrk.fetch.1 s.pastBrk.fetch.2

/-- Go on from a next state. -/
def mapNext (f : State → State) (o : Host.Outcome State Fault Refusal) : Host.Outcome State Fault Refusal :=
  match o with
  | .next s => .next (f s)
  | .fault r => .fault r
  | .refused r => .refused r

/-- `cycles_left <- cycles_left - 1` (R296). -/
def State.countDown (s : State) : State := s.setCycles (s.cpu.cyclesLeft - 1)

/-- The CPU step (R296). -/
def State.cpuStep (s : State) : Host.Outcome State Fault Refusal :=
  if s.cpu.cyclesLeft = 0 then mapNext State.countDown s.dispatch else .next s.countDown

/-- The level of the IRQ line: the OR of the three request flags (R258). -/
def IrqLines.asserted (q : IrqLines) : Bool := q.mapper || q.frame || q.dmc

/-- The part of a system cycle before the CPU (R257): controller latch, then the IRQ line. -/
def State.beginCycle (s : State) : State :=
  { s with
    bus := s.bus.controllerLatchStep
    cpu := { s.cpu with irqPending := s.bus.irq.asserted } }

/-- One PPU dot (R257, R259, R261, R271): its events, NMI, the mapper's hook, the next dot. -/
def State.ppuDot (s : State) : State :=
  { s with
    cpu := { s.cpu with nmiPending := s.cpu.nmiPending || s.bus.ppu.raisesNmi }
    bus := { s.bus with ppu := s.bus.ppu.dotEvents.nextDot }.mapperHook }

/-- The part of a system cycle after the CPU (R257): APU, three PPU dots, the cycle count. -/
def State.endCycle (s : State) : State :=
  let s := { s with bus := s.bus.apuStep }.ppuDot.ppuDot.ppuDot
  { s with bus := { s.bus with sysCycles := s.bus.sysCycles + 1 } }

/-- One system cycle (R257): either the CPU or, while it is active, one DMA half-cycle. -/
def State.systemCycle (s : State) : Host.Outcome State Fault Refusal :=
  let s := s.beginCycle
  mapNext State.endCycle (if s.bus.dma.active then .next { s with bus := s.bus.dmaStep } else s.cpuStep)

end Sys2Proof.Machine
end

