-- ==== Sys2Proof/Machine/Place.lean ====
section
/-! DEFINITION. Placing one instruction where the next system cycle runs it: what stands in for the host's loading of a program
(R295, log 4). -/

namespace Sys2Proof.Machine

/-- Put a byte of a program at an address: into working RAM, or into the cartridge, whatever its kind there; a cartridge
address the layout gives to the mapper becomes ROM. A device address holds no program. -/
def Bus.place (a : Addr) (v : Byte) (b : Bus) : Bus :=
  if a.toNat < 0x2000 then { b with mem := b.mem.write (ramIndex a) v }
  else if a.toNat < 0x4020 then b
  else
    let b := { b with mem := b.mem.write a.toNat v }
    match b.cart.kindAt a.toNat with
    | .prgRam | .prgRom => b
    | .mapper => { b with cart := { b.cart with regions := ⟨a.toNat, 1, .prgRom⟩ :: b.cart.regions } }

/-- Can a program byte stand at an address? Not among the devices. -/
def placeable (a : Addr) : Bool := decide (a.toNat < 0x2000) || decide (0x4020 ≤ a.toNat)

/-- The address of the next instruction; 0x0000 if a device stands at one of its three bytes. -/
def State.home (s : State) : Addr :=
  if placeable s.cpu.pc && placeable (s.cpu.pc + 1) && placeable (s.cpu.pc + 2) then s.cpu.pc else 0x0000#16

/-- The next system cycle is an instruction boundary, and not the one after BRK: no cycle is owed, no DMA is active. -/
def State.atBoundary (s : State) : State :=
  { (s.setCycles 0).setIrqOpen false with bus := { s.bus with dma := { s.bus.dma with active := false } } }

/-- No interrupt is accepted at the next boundary: the NMI latch is clear, and if I is clear so are the request flags. -/
def State.quiet (s : State) : State :=
  { s with
    cpu := { s.cpu with nmiPending := false }
    bus := if s.cpu.flags.i then s.bus else { s.bus with irq := { mapper := false, frame := false, dmc := false } } }

/-- The next boundary fetches the three bytes `b0 b1 b2`. -/
def State.placeBytes (b0 b1 b2 : Byte) (s : State) : State :=
  let a := s.home
  let s := s.atBoundary.quiet.setPC a
  { s with bus := ((s.bus.place a b0).place (a + 1) b1).place (a + 2) b2 }

/-- The next boundary accepts an NMI (R253). -/
def State.placeNmi (s : State) : State := { s.atBoundary with cpu := { s.atBoundary.cpu with nmiPending := true } }

/-- The next boundary accepts an IRQ: no NMI, I clear, a request flag set (R253, R258). -/
def State.placeIrq (s : State) : State :=
  let s := s.atBoundary
  { cpu := { s.cpu with nmiPending := false, flags := { s.cpu.flags with i := false } }
    bus := { s.bus with irq := { s.bus.irq with mapper := true } } }

/-- The next boundary runs the instruction a table row's bits stand for (see decodeTableWord; logs 4, 7). -/
def State.placeTableWord (nbits w : Nat) (s : State) : State :=
  if 8 < nbits ∧ w = 0x100 then s.placeNmi
  else if 8 < nbits ∧ w = 0x101 then s.placeIrq
  else s.placeBytes (byteOfNat w 0) (byteOfNat w 1) (byteOfNat w 2)

end Sys2Proof.Machine
end

