-- ==== Sys2Proof/Machine/Step.lean ====
section
/-! DEFINITION. One step of the machine is one system cycle: `step_cycle()` of the host interface (R257, R308, log 5). -/

namespace Sys2Proof.Machine

def step (s : State) : Host.Outcome State Fault Refusal := s.systemCycle

/-- `s` with an instruction of `nbits` bits `w` where the very next step fetches, or the interrupt a pseudo-row stands for
made acceptable there (log 4). -/
def State.withFetchWord (s : State) (nbits w : Nat) : State := s.placeTableWord nbits w

end Sys2Proof.Machine
end

