-- ==== Sys2Proof/Machine/HostOps.lean ====
section
/-! DEFINITION. What the host does to the machine between system cycles: reset, load_rom, savestates, buttons, run_frame, and
the trace it takes (R19, R273, R290 to R295, R308). -/

namespace Sys2Proof.Machine

/-- Working RAM cleared: every cell below 0x800 goes back to 0x00; cartridge memory stays. -/
def Memory.clearRam (m : Memory) : Memory := m.keepOnly fun k => decide (0x800 ≤ k)

/-- The controller after reset: the shift register 0, the host's button state kept (R291, log 26). -/
def Pad.afterReset (p : Pad) : Pad := { Pad.reset with buttons := p.buttons }

/-- The platform after reset, before the vector is read (R291). The cartridge of this model has no bank state to reset, and
keeps its memory (log 29). -/
def Bus.afterReset (hard : Bool) (b : Bus) : Bus :=
  { b with
    mem := if hard || b.params.softResetClearsRam then b.mem.clearRam else b.mem
    irq := { mapper := false, frame := false, dmc := false }
    dma := Dma.reset
    strobe := false
    pad1 := b.pad1.afterReset
    pad2 := b.pad2.afterReset
    ppu := Ppu.reset
    apu := Apu.reset
    sysCycles := 0
    irqOpen := false }

/-- `reset(hard)` (R291): the platform, the CPU's registers, and PC read through the mapper from the reset vector. -/
def State.resetTo (hard : Bool) (s : State) : State :=
  let (pc, s) := { s with bus := s.bus.afterReset hard }.read16 resetVector
  { s with cpu := { Cpu.reset with pc := pc } }

/-- `load_rom`: a rejected image changes nothing; an accepted one installs its cartridge and contents and is a hard reset (R295). -/
def State.loadRom (image : Option (Cart × Memory)) (s : State) : State :=
  match image with
  | none => s
  | some (cart, contents) => { s with bus := { s.bus with cart := cart, mem := contents } }.resetTo true

/-- `get_savestate` (R294). -/
def State.getSavestate (s : State) : State := s

/-- A controller from a savestate, with the host's present button state. -/
def Pad.withButtonsOf (host p : Pad) : Pad := { p with buttons := host.buttons }

/-- `set_savestate`: all component state is overwritten, or nothing if the tag mismatches (R294). What is no component state
stays: the draw counter (so that no draw repeats one made before), the parameters of R9 and the host's buttons. DESIGN CHOICE,
log 35. -/
def State.setSavestate (tagMatches : Bool) (s saved : State) : State :=
  if tagMatches then
    { saved with bus := { saved.bus with
        draws := s.bus.draws
        params := s.bus.params
        pad1 := saved.bus.pad1.withButtonsOf s.bus.pad1
        pad2 := saved.bus.pad2.withButtonsOf s.bus.pad2 } }
  else s

/-- Set or clear one bit of a button byte. -/
def setButtonBit (k : Fin 8) (pressed : Bool) (v : Byte) : Byte :=
  if pressed then v ||| (1#8 <<< k.val) else v &&& ~~~(1#8 <<< k.val)

/-- `set_button(player, button, pressed)`: player 1 or 2, buttons 0..7 in the order of R273. -/
def State.setButton (player2 : Bool) (k : Fin 8) (pressed : Bool) (s : State) : State :=
  let press (p : Pad) : Pad := { p with buttons := setButtonBit k pressed p.buttons }
  { s with bus :=
      if player2 then { s.bus with pad2 := press s.bus.pad2 } else { s.bus with pad1 := press s.bus.pad1 } }

/-- The host places PC, as for the reference test (R294, D30). -/
def State.overridePc (pc : Addr) (s : State) : State := s.setPC pc

/-- Has the PPU just passed the dot at which vblank starts: was it before it, and is it not any more (R308)? -/
def reachedVblank (before after : State) : Bool :=
  let position (p : Ppu) : Nat := p.scanline * 341 + p.dot
  decide (position before.bus.ppu ≤ 241 * 341 + 1) && decide (241 * 341 + 1 < position after.bus.ppu)

/-- `run_frame()`: system cycles until the PPU reaches the start of vblank, at most `fuel` of them (R308; a frame is under
29,782 of them, R307). -/
def runFrame : Nat → State → Host.Outcome State Fault Refusal
  | 0, s => .next s
  | fuel + 1, s =>
    match step s with
    | .next s' => if reachedVblank s s' then .next s' else runFrame fuel s'
    | .fault r => .fault r
    | .refused r => .refused r

/-- What a trace line holds: PC, A, X, Y, P with B = 0, SP, cycle count (R19). The cycle count is `sys_cycles`, which
counts the reset's 7 (R291). -/
structure Trace where
  pc : Addr
  a  : Byte
  x  : Byte
  y  : Byte
  p  : Byte
  sp : Byte
  cycles : Nat
  deriving DecidableEq, Repr

def State.trace (s : State) : Trace where
  pc := s.cpu.pc
  a := s.cpu.a
  x := s.cpu.x
  y := s.cpu.y
  p := s.cpu.flags.statusByte false
  sp := s.cpu.sp
  cycles := s.bus.sysCycles

/-- The next system cycle is an instruction boundary: a CPU step with `cycles_left` 0, no DMA half-cycle (R252, R264). -/
def State.boundaryNext (s : State) : Bool := s.cpu.cyclesLeft == 0 && !s.bus.dma.active

/-- The trace line taken before the next system cycle: one at each instruction boundary, none inside an instruction's owed
cycles or a DMA (R19). A boundary that accepts an interrupt has its line too (log 36). -/
def State.traceLine? (s : State) : Option Trace := if s.boundaryNext then some s.trace else none

/-- The trace of a run of at most `n` system cycles: the line of each boundary, in order (R19). -/
def traceRun : Nat → State → List Trace
  | 0, _ => []
  | n + 1, s => s.traceLine?.toList ++
    match step s with
    | .next s' => traceRun n s'
    | .fault _ => []
    | .refused _ => []

end Sys2Proof.Machine
end

