-- ==== Sys2Proof/Machine/Timing.lean ====
section
/-! DEFINITION. The per-opcode cycle table of R99 as plain data (R36): base cycle count and penalty of all 256 opcodes and of
the two pseudo-opcodes. The meanings compute their counts by operand form; a statement says that the two agree. -/

namespace Sys2Proof.Machine

/-- Which penalty an opcode can pay: none, the page-cross cycle (`+p`), the taken-branch cycles (`+b`) (R97, R99). -/
inductive Penalty where
  | none
  | page
  | branch
  deriving DecidableEq, Repr

/-- The cycle columns of one row of spec/opcode_table.json. -/
structure Cost where
  base    : Nat
  penalty : Penalty
  deriving DecidableEq, Repr

/-- R99, row 0x: base cycles and penalty. -/
def cycleRow0 : Vector Cost 16 := #v[
  ⟨7, .none⟩, ⟨6, .none⟩, ⟨2, .none⟩, ⟨8, .none⟩, ⟨3, .none⟩, ⟨3, .none⟩, ⟨5, .none⟩, ⟨5, .none⟩,
  ⟨3, .none⟩, ⟨2, .none⟩, ⟨2, .none⟩, ⟨2, .none⟩, ⟨4, .none⟩, ⟨4, .none⟩, ⟨6, .none⟩, ⟨6, .none⟩]

/-- R99, row 1x: base cycles and penalty. -/
def cycleRow1 : Vector Cost 16 := #v[
  ⟨2, .branch⟩, ⟨5, .page⟩, ⟨2, .none⟩, ⟨8, .none⟩, ⟨4, .none⟩, ⟨4, .none⟩, ⟨6, .none⟩, ⟨6, .none⟩,
  ⟨2, .none⟩, ⟨4, .page⟩, ⟨2, .none⟩, ⟨7, .none⟩, ⟨4, .page⟩, ⟨4, .page⟩, ⟨7, .none⟩, ⟨7, .none⟩]

/-- R99, row 2x: base cycles and penalty. -/
def cycleRow2 : Vector Cost 16 := #v[
  ⟨6, .none⟩, ⟨6, .none⟩, ⟨2, .none⟩, ⟨8, .none⟩, ⟨3, .none⟩, ⟨3, .none⟩, ⟨5, .none⟩, ⟨5, .none⟩,
  ⟨4, .none⟩, ⟨2, .none⟩, ⟨2, .none⟩, ⟨2, .none⟩, ⟨4, .none⟩, ⟨4, .none⟩, ⟨6, .none⟩, ⟨6, .none⟩]

/-- R99, row 3x: base cycles and penalty. -/
def cycleRow3 : Vector Cost 16 := #v[
  ⟨2, .branch⟩, ⟨5, .page⟩, ⟨2, .none⟩, ⟨8, .none⟩, ⟨4, .none⟩, ⟨4, .none⟩, ⟨6, .none⟩, ⟨6, .none⟩,
  ⟨2, .none⟩, ⟨4, .page⟩, ⟨2, .none⟩, ⟨7, .none⟩, ⟨4, .page⟩, ⟨4, .page⟩, ⟨7, .none⟩, ⟨7, .none⟩]

/-- R99, row 4x: base cycles and penalty. -/
def cycleRow4 : Vector Cost 16 := #v[
  ⟨6, .none⟩, ⟨6, .none⟩, ⟨2, .none⟩, ⟨8, .none⟩, ⟨3, .none⟩, ⟨3, .none⟩, ⟨5, .none⟩, ⟨5, .none⟩,
  ⟨3, .none⟩, ⟨2, .none⟩, ⟨2, .none⟩, ⟨2, .none⟩, ⟨3, .none⟩, ⟨4, .none⟩, ⟨6, .none⟩, ⟨6, .none⟩]

/-- R99, row 5x: base cycles and penalty. -/
def cycleRow5 : Vector Cost 16 := #v[
  ⟨2, .branch⟩, ⟨5, .page⟩, ⟨2, .none⟩, ⟨8, .none⟩, ⟨4, .none⟩, ⟨4, .none⟩, ⟨6, .none⟩, ⟨6, .none⟩,
  ⟨2, .none⟩, ⟨4, .page⟩, ⟨2, .none⟩, ⟨7, .none⟩, ⟨4, .page⟩, ⟨4, .page⟩, ⟨7, .none⟩, ⟨7, .none⟩]

/-- R99, row 6x: base cycles and penalty. -/
def cycleRow6 : Vector Cost 16 := #v[
  ⟨6, .none⟩, ⟨6, .none⟩, ⟨2, .none⟩, ⟨8, .none⟩, ⟨3, .none⟩, ⟨3, .none⟩, ⟨5, .none⟩, ⟨5, .none⟩,
  ⟨4, .none⟩, ⟨2, .none⟩, ⟨2, .none⟩, ⟨2, .none⟩, ⟨5, .none⟩, ⟨4, .none⟩, ⟨6, .none⟩, ⟨6, .none⟩]

/-- R99, row 7x: base cycles and penalty. -/
def cycleRow7 : Vector Cost 16 := #v[
  ⟨2, .branch⟩, ⟨5, .page⟩, ⟨2, .none⟩, ⟨8, .none⟩, ⟨4, .none⟩, ⟨4, .none⟩, ⟨6, .none⟩, ⟨6, .none⟩,
  ⟨2, .none⟩, ⟨4, .page⟩, ⟨2, .none⟩, ⟨7, .none⟩, ⟨4, .page⟩, ⟨4, .page⟩, ⟨7, .none⟩, ⟨7, .none⟩]

/-- R99, row 8x: base cycles and penalty. -/
def cycleRow8 : Vector Cost 16 := #v[
  ⟨2, .none⟩, ⟨6, .none⟩, ⟨2, .none⟩, ⟨6, .none⟩, ⟨3, .none⟩, ⟨3, .none⟩, ⟨3, .none⟩, ⟨3, .none⟩,
  ⟨2, .none⟩, ⟨2, .none⟩, ⟨2, .none⟩, ⟨2, .none⟩, ⟨4, .none⟩, ⟨4, .none⟩, ⟨4, .none⟩, ⟨4, .none⟩]

/-- R99, row 9x: base cycles and penalty. -/
def cycleRow9 : Vector Cost 16 := #v[
  ⟨2, .branch⟩, ⟨6, .none⟩, ⟨2, .none⟩, ⟨6, .none⟩, ⟨4, .none⟩, ⟨4, .none⟩, ⟨4, .none⟩, ⟨4, .none⟩,
  ⟨2, .none⟩, ⟨5, .none⟩, ⟨2, .none⟩, ⟨5, .none⟩, ⟨5, .none⟩, ⟨5, .none⟩, ⟨5, .none⟩, ⟨5, .none⟩]

/-- R99, row Ax: base cycles and penalty. -/
def cycleRowA : Vector Cost 16 := #v[
  ⟨2, .none⟩, ⟨6, .none⟩, ⟨2, .none⟩, ⟨6, .none⟩, ⟨3, .none⟩, ⟨3, .none⟩, ⟨3, .none⟩, ⟨3, .none⟩,
  ⟨2, .none⟩, ⟨2, .none⟩, ⟨2, .none⟩, ⟨2, .none⟩, ⟨4, .none⟩, ⟨4, .none⟩, ⟨4, .none⟩, ⟨4, .none⟩]

/-- R99, row Bx: base cycles and penalty. -/
def cycleRowB : Vector Cost 16 := #v[
  ⟨2, .branch⟩, ⟨5, .page⟩, ⟨2, .none⟩, ⟨5, .page⟩, ⟨4, .none⟩, ⟨4, .none⟩, ⟨4, .none⟩, ⟨4, .none⟩,
  ⟨2, .none⟩, ⟨4, .page⟩, ⟨2, .none⟩, ⟨4, .page⟩, ⟨4, .page⟩, ⟨4, .page⟩, ⟨4, .page⟩, ⟨4, .page⟩]

/-- R99, row Cx: base cycles and penalty. -/
def cycleRowC : Vector Cost 16 := #v[
  ⟨2, .none⟩, ⟨6, .none⟩, ⟨2, .none⟩, ⟨8, .none⟩, ⟨3, .none⟩, ⟨3, .none⟩, ⟨5, .none⟩, ⟨5, .none⟩,
  ⟨2, .none⟩, ⟨2, .none⟩, ⟨2, .none⟩, ⟨2, .none⟩, ⟨4, .none⟩, ⟨4, .none⟩, ⟨6, .none⟩, ⟨6, .none⟩]

/-- R99, row Dx: base cycles and penalty. -/
def cycleRowD : Vector Cost 16 := #v[
  ⟨2, .branch⟩, ⟨5, .page⟩, ⟨2, .none⟩, ⟨8, .none⟩, ⟨4, .none⟩, ⟨4, .none⟩, ⟨6, .none⟩, ⟨6, .none⟩,
  ⟨2, .none⟩, ⟨4, .page⟩, ⟨2, .none⟩, ⟨7, .none⟩, ⟨4, .page⟩, ⟨4, .page⟩, ⟨7, .none⟩, ⟨7, .none⟩]

/-- R99, row Ex: base cycles and penalty. -/
def cycleRowE : Vector Cost 16 := #v[
  ⟨2, .none⟩, ⟨6, .none⟩, ⟨2, .none⟩, ⟨8, .none⟩, ⟨3, .none⟩, ⟨3, .none⟩, ⟨5, .none⟩, ⟨5, .none⟩,
  ⟨2, .none⟩, ⟨2, .none⟩, ⟨2, .none⟩, ⟨2, .none⟩, ⟨4, .none⟩, ⟨4, .none⟩, ⟨6, .none⟩, ⟨6, .none⟩]

/-- R99, row Fx: base cycles and penalty. -/
def cycleRowF : Vector Cost 16 := #v[
  ⟨2, .branch⟩, ⟨5, .page⟩, ⟨2, .none⟩, ⟨8, .none⟩, ⟨4, .none⟩, ⟨4, .none⟩, ⟨6, .none⟩, ⟨6, .none⟩,
  ⟨2, .none⟩, ⟨4, .page⟩, ⟨2, .none⟩, ⟨7, .none⟩, ⟨4, .page⟩, ⟨4, .page⟩, ⟨7, .none⟩, ⟨7, .none⟩]

/-- The cycle table of R99: row = high hex digit, column = low hex digit. -/
def cycleMap : Vector (Vector Cost 16) 16 := #v[
  cycleRow0, cycleRow1, cycleRow2, cycleRow3, cycleRow4, cycleRow5, cycleRow6, cycleRow7,
  cycleRow8, cycleRow9, cycleRowA, cycleRowB, cycleRowC, cycleRowD, cycleRowE, cycleRowF]

/-- The base count and penalty of an opcode (R99, R303). -/
def opcodeCost (op : Byte) : Cost :=
  have hrow : op.toNat / 16 < 16 := by have := op.isLt; omega
  have hcol : op.toNat % 16 < 16 := Nat.mod_lt _ (by decide)
  cycleMap[op.toNat / 16][op.toNat % 16]

/-- The cost of the table rows 0x100 and 0x101 (R101). -/
def interruptCost : Cost := ⟨7, .none⟩

end Sys2Proof.Machine
end

