-- ==== Sys2Proof/Safety.lean ====
section
/-! DEFINITION. What a safe state and a safe run are, and the words the statements use: the operand an instruction reads, the
addresses it stores to, the registers and flags it may write. -/

namespace Sys2Proof.Machine

/-! The invariant. -/

/-- A key of the storage memory: a location of working RAM (R55) or an address of the cartridge region (R54). -/
def storageKey (k : Nat) : Bool := decide (k < 0x800) || (decide (0x4020 ≤ k) && decide (k < 0x10000))

/-- The PPU's tables are canonical and within their sizes, and its counters are within the frame (R270, R271). -/
structure Ppu.Inv (p : Ppu) : Prop where
  oam_wf       : p.oam.wf = true
  oam_keys     : p.oam.keysIn (fun k => decide (k < 256)) = true
  palette_wf   : p.palette.wf = true
  palette_keys : p.palette.keysIn (fun k => decide (k < 32)) = true
  scanline     : p.scanline ≤ 261
  dot          : p.dot ≤ 340

/-- The APU's register file is canonical and names only 0x4000-0x4017; a DMC sample has at most 16 * 255 + 1 bytes (R272). -/
structure Apu.Inv (a : Apu) : Prop where
  regs_wf   : a.regs.wf = true
  regs_keys : a.regs.keysIn (fun k => decide (k < 0x18)) = true
  dmcLeft   : a.dmcLeft ≤ 4081

/-- Storage is canonical and lies where storage can lie; the DMA index and the controllers' bit counts are in range. -/
structure Bus.Inv (b : Bus) : Prop where
  mem_wf   : b.mem.wf = true
  mem_keys : b.mem.keysIn storageKey = true
  dma      : b.dma.index ≤ 512
  pad1     : b.pad1.left ≤ 8
  pad2     : b.pad2.left ≤ 8
  ppu      : b.ppu.Inv
  apu      : b.apu.Inv

/-- The machine's invariant: the bus's, and at most 7 cycles owed between system cycles (R296, R303). -/
structure State.Inv (s : State) : Prop where
  bus    : s.bus.Inv
  cycles : s.cpu.cyclesLeft ≤ 7

/-! The words of the statements. -/

/-- The next system cycle is an instruction boundary that fetches: no cycle is owed, no DMA runs, no interrupt is accepted
(R252, R253), and none is open (log 37). -/
def State.AtQuietBoundary (s : State) : Prop :=
  s.cpu.cyclesLeft = 0 ∧ s.bus.dma.active = false ∧ s.cpu.nmiPending = false ∧
    s.bus.irqOpen = false ∧ (s.cpu.flags.i = true ∨ s.bus.irq.asserted = false)

/-- The bus after `k` reads of one address. -/
def readTimes : Nat → Addr → Bus → Bus
  | 0, _, b => b
  | k + 1, a, b => readTimes k a (b.read a).2

/-- The PPU after `n` dots with no access to it in between. -/
def dotTimes : Nat → Ppu → Ppu
  | 0, p => p
  | n + 1, p => dotTimes n p.dotEvents.nextDot

/-- The step gives a next state: no fault and no refusal. -/
def GoesOn (s : State) : Prop := ∃ t, step s = .next t

/-- The byte a read instruction works on: the immediate byte, or the byte one bus read at the effective address gives. -/
def operandByte (src : Src) (s : State) : Byte :=
  match src with
  | .imm b => b
  | .mem m => ((s.resolve m).2.bus.read (s.resolve m).1.ea).1

/-- The bus after that read: unchanged for an immediate byte. -/
def busAfterOperand (src : Src) (s : State) : Bus :=
  match src with
  | .imm _ => s.bus
  | .mem m => ((s.resolve m).2.bus.read (s.resolve m).1.ea).2

/-- The page penalty of a read operand: 1 if an indexed address lies in another page than its base (R97). -/
def pagePenalty (src : Src) (s : State) : Nat :=
  match src with
  | .imm _ => 0
  | .mem m => if (s.resolve m).1.crossed then 1 else 0

/-- The bus after one write of `v` at the effective address of a memory operand. -/
def busAfterStore (m : Mem) (v : Byte) (s : State) : Bus := (s.resolve m).2.bus.write (s.resolve m).1.ea v

/-- The bus after one read and then one write of `v` at the effective address of a memory operand. -/
def busAfterModify (m : Mem) (v : Byte) (s : State) : Bus :=
  (busAfterOperand (.mem m) s).write (s.resolve m).1.ea v

/-- The CPU record with N and Z set from a result `r` (R12), and the cycles owed. -/
def Cpu.resultNZ (c : Cpu) (r : Byte) (cycles : Nat) : Cpu :=
  { c with flags := { c.flags with z := decide (r = 0#8), n := r.getLsbD 7 }, cyclesLeft := cycles }

/-- The address an `nmos` unstable store writes to, for the byte `v` (R234). -/
def unstableAddr (m : Mem) (v : Byte) (s : State) : Addr :=
  if (s.resolve m).1.crossed then word (loByte (s.resolve m).1.ea) v else (s.resolve m).1.ea

/-- The byte an `nmos` unstable store writes (R229 to R232). -/
def unstableByte (m : Mem) (src : Byte) (s : State) : Byte := src &&& (hiByte (s.resolve m).1.base + 1)

/-- The addresses an instruction stores to, computed as its meaning computes them. -/
def storesAt (i : Instr) (s : State) : List Addr :=
  match i with
  | .sta m | .stx m | .sty m | .sax m | .inc m | .dec m | .slo m | .rla m | .sre m | .rra m | .dcp m | .isc m
  | .asl (.mem m) | .lsr (.mem m) | .rol (.mem m) | .ror (.mem m) => [(s.resolve m).1.ea]
  | .pha | .php => [stackAddr s.cpu.sp]
  | .jsr _ => [stackAddr s.cpu.sp, stackAddr (s.cpu.sp - 1)]
  | .brk | .nmi | .irq => [stackAddr s.cpu.sp, stackAddr (s.cpu.sp - 1), stackAddr (s.cpu.sp - 2)]
  | .ahx m => match s.bus.params.unstableOps with
    | .degraded => []
    | .nmos => [unstableAddr m (unstableByte m (s.cpu.a &&& s.cpu.x) s) s]
  | .tas w => match s.bus.params.unstableOps with
    | .degraded => []
    | .nmos => [unstableAddr (.aby w) (unstableByte (.aby w) (s.cpu.a &&& s.cpu.x) s) s]
  | .shy w => match s.bus.params.unstableOps with
    | .degraded => []
    | .nmos => [unstableAddr (.abx w) (unstableByte (.abx w) s.cpu.y s) s]
  | .shx w => match s.bus.params.unstableOps with
    | .degraded => []
    | .nmos => [unstableAddr (.aby w) (unstableByte (.aby w) s.cpu.x s) s]
  | _ => []

/-! The rows of an instruction's "Encodings" line: opcode byte, operand made of the bytes `l` and `h` after it, cycles owed. The
opcode arguments stand in the order imm, zp, zpx, abs, abx, aby, izx, izy. -/

/-- Opcode byte, operand, cycles owed. -/
abbrev Row (α : Type) := Byte × α × Nat

/-- An indexed read of base cost `n` with the page penalty (`n+p`). -/
def pagedRow (op : Byte) (m : Mem) (n : Nat) (s : State) : Row Src := (op, .mem m, n + pagePenalty (.mem m) s)

/-- The eight read forms of the accumulator instructions. -/
def accReads (imm zp zpx abs abx aby izx izy l h : Byte) (s : State) : List (Row Src) :=
  [(imm, .imm l, 2), (zp, .mem (.zp l), 3), (zpx, .mem (.zpx l), 4), (abs, .mem (.abs (word l h)), 4),
    pagedRow abx (.abx (word l h)) 4 s, pagedRow aby (.aby (word l h)) 4 s, (izx, .mem (.izx l), 6),
    pagedRow izy (.izy l) 5 s]

/-- The three read forms of CPX and CPY. -/
def indexReads (imm zp abs l h : Byte) : List (Row Src) :=
  [(imm, .imm l, 2), (zp, .mem (.zp l), 3), (abs, .mem (.abs (word l h)), 4)]

/-- The four read-modify-write forms of INC, DEC and the shifts. -/
def memModifies (zp zpx abs abx l h : Byte) : List (Row Mem) :=
  [(zp, .zp l, 5), (zpx, .zpx l, 6), (abs, .abs (word l h), 6), (abx, .abx (word l h), 7)]

/-- The seven read-modify-write forms of the combined instructions. -/
def combinedModifies (zp zpx abs abx aby izx izy l h : Byte) : List (Row Mem) :=
  memModifies zp zpx abs abx l h ++ [(aby, .aby (word l h), 7), (izx, .izx l, 8), (izy, .izy l, 8)]

/-- The CPU record after an addition of `m` and the carry `carry` to A (R29, R131). -/
def Cpu.added (c : Cpu) (m : Byte) (carry : Bool) (cycles : Nat) : Cpu :=
  let sum := c.a.toNat + m.toNat + carry.toNat
  let r := BitVec.ofNat 8 sum
  { c with
    a := r
    flags := { c.flags with
      n := r.getLsbD 7
      z := decide (r = 0#8)
      c := decide (0xFF < sum)
      v := ((c.a ^^^ r) &&& (m ^^^ r)).getLsbD 7 }
    cyclesLeft := cycles }

/-- The CPU record after a comparison of `r` with `m` (R136). -/
def Cpu.compared (c : Cpu) (r m : Byte) (cycles : Nat) : Cpu :=
  { c with
    flags := { c.flags with c := decide (m.toNat ≤ r.toNat), z := decide (r = m), n := (r - m).getLsbD 7 }
    cyclesLeft := cycles }

/-- The CPU record with the carry set to `carry`. -/
def Cpu.withCarry (c : Cpu) (carry : Bool) : Cpu := { c with flags := { c.flags with c := carry } }

/-- The status byte of R27 as arithmetic: `N<<7 | V<<6 | 1<<5 | b<<4 | D<<3 | I<<2 | Z<<1 | C`. -/
def statusSum (b : Bool) (f : Flags) : Byte :=
  BitVec.ofNat 8 (128 * f.n.toNat + 64 * f.v.toNat + 32 + 16 * b.toNat + 8 * f.d.toNat + 4 * f.i.toNat + 2 * f.z.toNat
    + f.c.toNat)

/-- The bus after the three pushes of entering a handler: return address high, low, status byte (R182, R255, R256). -/
def busAfterEntryPushes (ret : Addr) (status : Byte) (s : State) : Bus :=
  ((s.bus.write (stackAddr s.cpu.sp) (hiByte ret)).write (stackAddr (s.cpu.sp - 1)) (loByte ret)).write
    (stackAddr (s.cpu.sp - 2)) status

/-- The state after entering a handler through `vector`. -/
def enteredAt (ret vector : Addr) (status : Byte) (s : State) : State :=
  let pushed := busAfterEntryPushes ret status s
  let lo := pushed.read vector
  let hi := lo.2.read (vector + 1)
  { cpu := { s.cpu with
      sp := s.cpu.sp - 3
      pc := word lo.1 hi.1
      flags := { s.cpu.flags with i := true }
      cyclesLeft := 7 }
    bus := hi.2 }

/-! The shapes of an instruction's rule: its rows decode to it, and `exec` answers exactly the next state its pseudocode gives. -/

/-- A read instruction: `cpu'` gives the CPU record from the old one, the operand byte and the cycles. -/
def ReadLaw (mk : Src → Instr) (rows : Byte → Byte → State → List (Row Src)) (cpu' : Cpu → Byte → Nat → Cpu) : Prop :=
  ∀ (s : State) (l h : Byte), ∀ r ∈ rows l h s,
    decodeOp r.1 l h = mk r.2.1 ∧
    exec (mk r.2.1) s = .next
      { cpu := cpu' s.cpu (operandByte r.2.1 s) r.2.2, bus := busAfterOperand r.2.1 s }

/-- A read instruction that has memory forms alone. -/
def MemReadLaw (mk : Mem → Instr) (rows : Byte → Byte → State → List (Row Mem)) (cpu' : Cpu → Byte → Nat → Cpu) : Prop :=
  ∀ (s : State) (l h : Byte), ∀ r ∈ rows l h s,
    decodeOp r.1 l h = mk r.2.1 ∧
    exec (mk r.2.1) s = .next
      { cpu := cpu' s.cpu (operandByte (.mem r.2.1) s) r.2.2, bus := busAfterOperand (.mem r.2.1) s }

/-- A store: one write of `value` at the effective address, and nothing else but the cycles. -/
def StoreLaw (mk : Mem → Instr) (rows : Byte → Byte → List (Row Mem)) (value : Cpu → Byte) : Prop :=
  ∀ (s : State) (l h : Byte), ∀ r ∈ rows l h,
    decodeOp r.1 l h = mk r.2.1 ∧
    exec (mk r.2.1) s = .next
      { cpu := { s.cpu with cyclesLeft := r.2.2 }, bus := busAfterStore r.2.1 (value s.cpu) s }

/-- A read-modify-write instruction: `result` gives the byte written from the byte read and the carry, `cpu'` the CPU record
from the old one, the byte read, the byte written and the cycles. -/
def ModifyLaw (mk : Mem → Instr) (rows : Byte → Byte → List (Row Mem)) (result : Byte → Bool → Byte)
    (cpu' : Cpu → Byte → Byte → Nat → Cpu) : Prop :=
  ∀ (s : State) (l h : Byte), ∀ r ∈ rows l h,
    let v := operandByte (.mem r.2.1) s
    let w := result v s.cpu.flags.c
    decodeOp r.1 l h = mk r.2.1 ∧
    exec (mk r.2.1) s = .next { cpu := cpu' s.cpu v w r.2.2, bus := busAfterModify r.2.1 w s }

/-- An instruction of one opcode byte and no operand that works on the CPU record alone. -/
def RegisterLaw (op : Byte) (i : Instr) (cpu' : Cpu → Cpu) : Prop :=
  ∀ (s : State) (l h : Byte), decodeOp op l h = i ∧ exec i s = .next { s with cpu := cpu' s.cpu }

/-- An instruction of an opcode byte and an immediate byte that works on the CPU record alone. -/
def ImmediateLaw (op : Byte) (mk : Byte → Instr) (cpu' : Cpu → Byte → Cpu) : Prop :=
  ∀ (s : State) (l h : Byte), decodeOp op l h = mk l ∧ exec (mk l) s = .next { s with cpu := cpu' s.cpu l }

/-- A shift or rotate (R160): the accumulator form, and the memory forms with one read and one write. -/
def ShiftLaw (mk : Dst → Instr) (acc zp zpx abs abx : Byte) (result : Byte → Bool → Byte) (carry : Byte → Bool) : Prop :=
  RegisterLaw acc (mk .acc) (fun c =>
    let r := result c.a c.flags.c
    ({ c with a := r }.withCarry (carry c.a)).resultNZ r 2) ∧
  ModifyLaw (fun m => mk (.mem m)) (memModifies zp zpx abs abx) result (fun c v r n => (c.withCarry (carry v)).resultNZ r n)

/-- A conditional branch (R170): PC is past the branch, `l` is the offset byte. -/
def BranchLaw (op : Byte) (mk : Byte → Instr) (taken : Flags → Bool) : Prop :=
  ∀ (s : State) (l h : Byte),
    let t := s.cpu.pc + BitVec.ofInt 16 l.toInt
    let cost := if s.cpu.pc.toNat / 256 = t.toNat / 256 then 3 else 4
    decodeOp op l h = mk l ∧ exec (mk l) s = .next
      (if taken s.cpu.flags = true then { s with cpu := { s.cpu with pc := t, cyclesLeft := cost } }
        else { s with cpu := { s.cpu with cyclesLeft := 2 } })

/-! What an instruction costs. -/

/-- The memory operand of a read-class instruction, the class that can pay the page penalty (R97). -/
def readOperand? : Instr → Option Mem
  | .lda (.mem m) | .ldx (.mem m) | .ldy (.mem m) | .adc (.mem m) | .sbc (.mem m) | .and (.mem m) | .ora (.mem m)
  | .eor (.mem m) | .cmp (.mem m) | .cpx (.mem m) | .cpy (.mem m) | .bit m | .lax m | .nopUndoc _ (.mem m) => some m
  | .las w => some (.aby w)
  | _ => none

/-- The offset and the condition of a branch (R171 to R178). -/
def branchOf? (f : Flags) : Instr → Option (Byte × Bool)
  | .bpl off => some (off, !f.n)
  | .bmi off => some (off, f.n)
  | .bvc off => some (off, !f.v)
  | .bvs off => some (off, f.v)
  | .bcc off => some (off, !f.c)
  | .bcs off => some (off, f.c)
  | .bne off => some (off, !f.z)
  | .beq off => some (off, f.z)
  | _ => none

/-- The cycles a penalty adds for an instruction in a state, PC past the instruction (R97, R170). -/
def penaltyCycles (p : Penalty) (i : Instr) (s : State) : Nat :=
  match p, readOperand? i, branchOf? s.cpu.flags i with
  | .page, some m, _ => pagePenalty (.mem m) s
  | .branch, _, some (off, true) => if otherPage s.cpu.pc (s.cpu.pc + branchOffset off) then 2 else 1
  | _, _, _ => 0

/-! The writers of each register and flag, as R21 to R24 and R26 list them. -/

/-- Instructions that may write A (R21). -/
def writesA : Instr → Bool
  | .lda _ | .pla | .txa | .tya | .adc _ | .sbc _ | .and _ | .eor _ | .ora _ => true
  | .asl .acc | .lsr .acc | .rol .acc | .ror .acc => true
  | .lax _ | .slo _ | .rla _ | .sre _ | .rra _ | .isc _ | .anc _ _ | .alr _ | .arr _ | .las _ | .sbcUndoc _ => true
  | .xaa _ | .lxa _ => true
  | _ => false

/-- Instructions that may write X (R22). -/
def writesX : Instr → Bool
  | .ldx _ | .tax | .tsx | .inx | .dex | .lax _ | .axs _ | .las _ | .lxa _ => true
  | _ => false

/-- Instructions that may write Y (R23). -/
def writesY : Instr → Bool
  | .ldy _ | .tay | .iny | .dey => true
  | _ => false

/-- Instructions that may write SP (R24). -/
def writesSP : Instr → Bool
  | .txs | .pha | .php | .pla | .plp | .jsr _ | .rts | .rti | .brk | .nmi | .irq | .las _ | .tas _ => true
  | _ => false

/-- Instructions that set PC themselves: control transfers, interrupt entries and KIL (R25). -/
def writesPC : Instr → Bool
  | .bpl _ | .bmi _ | .bvc _ | .bvs _ | .bcc _ | .bcs _ | .bne _ | .beq _ | .jmp _ | .jsr _ | .rts | .brk | .rti
  | .nmi | .irq | .kil _ => true
  | _ => false

/-- Instructions that may write C (R26). -/
def writesC : Instr → Bool
  | .adc _ | .sbc _ | .cmp _ | .cpx _ | .cpy _ | .asl _ | .lsr _ | .rol _ | .ror _ | .clc | .sec | .plp | .rti => true
  | .slo _ | .rla _ | .sre _ | .rra _ | .dcp _ | .isc _ | .anc _ _ | .alr _ | .arr _ | .axs _ | .sbcUndoc _ => true
  | _ => false

/-- Instructions that may write N and Z (R26, and XAA and LXA in `nmos` mode). -/
def writesNZ : Instr → Bool
  | .lda _ | .ldx _ | .ldy _ | .tax | .tay | .txa | .tya | .tsx | .pla | .and _ | .ora _ | .eor _ | .adc _ | .sbc _
  | .cmp _ | .cpx _ | .cpy _ | .bit _ | .inc _ | .dec _ | .inx | .iny | .dex | .dey | .asl _ | .lsr _ | .rol _ | .ror _
  | .plp | .rti => true
  | .slo _ | .rla _ | .sre _ | .rra _ | .lax _ | .dcp _ | .isc _ | .anc _ _ | .alr _ | .arr _ | .axs _ | .las _
  | .sbcUndoc _ | .xaa _ | .lxa _ => true
  | _ => false

/-- Instructions that may write V (R26). -/
def writesV : Instr → Bool
  | .adc _ | .sbc _ | .bit _ | .clv | .plp | .rti | .rra _ | .isc _ | .arr _ | .sbcUndoc _ => true
  | _ => false

/-- Instructions that may write D (R26). -/
def writesD : Instr → Bool
  | .cld | .sed | .plp | .rti => true
  | _ => false

/-- Instructions that may write I (R26). -/
def writesI : Instr → Bool
  | .cli | .sei | .plp | .rti | .brk | .nmi | .irq => true
  | _ => false

end Sys2Proof.Machine
end

