-- ==== Sys2Proof/Certificates/Slice0/Obligations.lean ====
section
/-! DEFINITION. The statements for the provers. Each says whether it formalises a rule of spec/ (OBLIGATIONS.json, basis
`stated`) or rests on a choice of the spec's or the model's (basis `derived`). -/

section

open Sys2Proof Sys2Proof.Machine

/-! Encoding. -/

/-- Decoding the bytes of a well-formed instruction, whatever follows them, gives the instruction and what follows. -/
def Obligations.DecodeOfEncode : Prop :=
  ∀ (i : Instr) (rest : List Byte), i.wf = true → i.isPseudo = false →
    ∃ bs, encode i = some bs ∧ decode (bs ++ rest) = .ok (i, rest)

/-- Every byte value is the opcode of a well-formed instruction, and encoding it gives the bytes back (R102). -/
def Obligations.EncodeOfDecode : Prop :=
  ∀ op l h : Byte,
    (decodeOp op l h).wf = true ∧ (decodeOp op l h).isPseudo = false ∧
      encode (decodeOp op l h) = some ([op, l, h].take (1 + operandCount op))

/-- Words the spec writes out as examples decode to the instructions it says they are. -/
def Obligations.ExampleWordsDecode : Prop :=
  decode [0xA9#8, 0x80#8] = .ok (.lda (.imm 0x80#8), []) ∧               -- R111
  decode [0x8D#8, 0x00#8, 0x60#8] = .ok (.sta (.abs 0x6000#16), []) ∧    -- R114
  decode [0x94#8, 0x02#8] = .ok (.sty (.zpx 0x02#8), []) ∧               -- R116
  decode [0x69#8, 0x50#8] = .ok (.adc (.imm 0x50#8), []) ∧               -- R131
  decode [0x1E#8, 0xFF#8, 0x12#8] = .ok (.asl (.mem (.abx 0x12FF#16)), []) ∧   -- V58
  decode [0xD0#8, 0xF9#8] = .ok (.bne 0xF9#8, []) ∧                      -- R177
  decode [0x6C#8, 0xFF#8, 0x10#8] = .ok (.jmp (.ind 0x10FF#16), []) ∧    -- V83
  decode [0x20#8, 0x0D#8, 0x80#8] = .ok (.jsr 0x800D#16, []) ∧           -- R180
  decode [0x08#8] = .ok (.php, []) ∧                                     -- V85
  decode [0xC7#8, 0x10#8] = .ok (.dcp (.zp 0x10#8), []) ∧                -- V89d
  decode [0x1C#8, 0xF0#8, 0x12#8] = .ok (.nopUndoc 0x1C#8 (.mem (.abx 0x12F0#16)), []) ∧   -- R224
  decode [0x9F#8, 0xF8#8, 0x12#8] = .ok (.ahx (.aby 0x12F8#16), [])      -- V89s

/-- Every opcode owes the base cycles of the table of R99 and the penalty that table gives it, and so do the two entries. -/
def Obligations.CyclesMatchTable : Prop :=
  (∀ (op l h : Byte) (s : State), ∃ t, exec (decodeOp op l h) s = .next t ∧
    t.cpu.cyclesLeft = (opcodeCost op).base + penaltyCycles (opcodeCost op).penalty (decodeOp op l h) s) ∧
  (∀ s : State, ∀ i ∈ [Instr.nmi, Instr.irq], ∃ t, exec i s = .next t ∧ t.cpu.cyclesLeft = interruptCost.base)

/-! Loads, stores, transfers. -/

/-- LDA, LDX, LDY (R111 to R113). -/
def Obligations.LoadsCopyOperand : Prop :=
  ReadLaw .lda (accReads 0xA9#8 0xA5#8 0xB5#8 0xAD#8 0xBD#8 0xB9#8 0xA1#8 0xB1#8)
    (fun c m n => { c with a := m }.resultNZ m n) ∧
  ReadLaw .ldx (fun l h s => [(0xA2#8, .imm l, 2), (0xA6#8, .mem (.zp l), 3), (0xB6#8, .mem (.zpy l), 4),
      (0xAE#8, .mem (.abs (word l h)), 4), pagedRow 0xBE#8 (.aby (word l h)) 4 s])
    (fun c m n => { c with x := m }.resultNZ m n) ∧
  ReadLaw .ldy (fun l h s => [(0xA0#8, .imm l, 2), (0xA4#8, .mem (.zp l), 3), (0xB4#8, .mem (.zpx l), 4),
      (0xAC#8, .mem (.abs (word l h)), 4), pagedRow 0xBC#8 (.abx (word l h)) 4 s])
    (fun c m n => { c with y := m }.resultNZ m n)

/-- STA, STX, STY (R114 to R116). A store to 0x4014 starts OAM DMA, with the alignment cycle of decision D22; that a store into
PRG-ROM leaves the whole bus as it was is the model's choice (log 9). -/
def Obligations.StoresWriteRegister : Prop :=
  StoreLaw .sta (fun l h => [(0x85#8, .zp l, 3), (0x95#8, .zpx l, 4), (0x8D#8, .abs (word l h), 4),
      (0x9D#8, .abx (word l h), 5), (0x99#8, .aby (word l h), 5), (0x81#8, .izx l, 6), (0x91#8, .izy l, 6)])
    (fun c => c.a) ∧
  StoreLaw .stx (fun l h => [(0x86#8, .zp l, 3), (0x96#8, .zpy l, 4), (0x8E#8, .abs (word l h), 4)]) (fun c => c.x) ∧
  StoreLaw .sty (fun l h => [(0x84#8, .zp l, 3), (0x94#8, .zpx l, 4), (0x8C#8, .abs (word l h), 4)]) (fun c => c.y) ∧
  (∀ (s : State) (m : Mem) (v : Byte), (s.resolve m).1.ea = 0x4014#16 → busAfterStore m v s =
    { s.bus with dma :=
      { s.bus.dma with active := true, page := v, index := 0, align := decide (s.bus.sysCycles % 2 = 1) } }) ∧
  (∀ (s : State) (m : Mem) (v : Byte), 0x4020 ≤ (s.resolve m).1.ea.toNat →
    s.bus.cart.kindAt (s.resolve m).1.ea.toNat = .prgRom → busAfterStore m v s = s.bus)

/-- TAX, TAY, TXA, TYA, TSX, TXS (R117 to R122): TXS alone writes no flag. -/
def Obligations.TransfersCopyRegister : Prop :=
  RegisterLaw 0xAA#8 .tax (fun c => { c with x := c.a }.resultNZ c.a 2) ∧
  RegisterLaw 0xA8#8 .tay (fun c => { c with y := c.a }.resultNZ c.a 2) ∧
  RegisterLaw 0x8A#8 .txa (fun c => { c with a := c.x }.resultNZ c.x 2) ∧
  RegisterLaw 0x98#8 .tya (fun c => { c with a := c.y }.resultNZ c.y 2) ∧
  RegisterLaw 0xBA#8 .tsx (fun c => { c with x := c.sp }.resultNZ c.sp 2) ∧
  RegisterLaw 0x9A#8 .txs (fun c => { c with sp := c.x, cyclesLeft := 2 })

/-! Arithmetic and logic. -/

/-- ADC (R131): binary, whatever D holds. -/
def Obligations.AdcAddsWithCarry : Prop :=
  ReadLaw .adc (accReads 0x69#8 0x65#8 0x75#8 0x6D#8 0x7D#8 0x79#8 0x61#8 0x71#8) (fun c m n => c.added m c.flags.c n)

/-- SBC (R132) and its undocumented duplicate 0xEB (R223): the addition of the complement. -/
def Obligations.SbcAddsComplement : Prop :=
  ReadLaw .sbc (accReads 0xE9#8 0xE5#8 0xF5#8 0xED#8 0xFD#8 0xF9#8 0xE1#8 0xF1#8)
    (fun c m n => c.added (m ^^^ 0xFF#8) c.flags.c n) ∧
  ImmediateLaw 0xEB#8 .sbcUndoc (fun c m => c.added (m ^^^ 0xFF#8) c.flags.c 2)

/-- The adder's laws in numbers (R29): the result modulo 256, C the unsigned and V the signed overflow, Z and N the result's;
and SBC's C is "no borrow", V the signed overflow of the difference. -/
def Obligations.AdderFlagsAreOverflows : Prop :=
  ∀ (s : State) (src : Src),
    let a := s.cpu.a
    let m := operandByte src s
    let c := s.cpu.flags.c.toNat
    (∃ t, exec (.adc src) s = .next t ∧
      t.cpu.a.toNat = (a.toNat + m.toNat + c) % 256 ∧
      (t.cpu.flags.c = true ↔ 255 < a.toNat + m.toNat + c) ∧
      (t.cpu.flags.v = true ↔ a.toInt + m.toInt + c < -128 ∨ 127 < a.toInt + m.toInt + c) ∧
      (t.cpu.flags.z = true ↔ t.cpu.a = 0#8) ∧ (t.cpu.flags.n = true ↔ t.cpu.a.toInt < 0)) ∧
    (∃ t, exec (.sbc src) s = .next t ∧
      t.cpu.a = a - m - (1 - BitVec.ofNat 8 c) ∧
      (t.cpu.flags.c = true ↔ m.toNat + (1 - c) ≤ a.toNat) ∧
      (t.cpu.flags.v = true ↔ a.toInt - m.toInt - (1 - (c : Int)) < -128 ∨ 127 < a.toInt - m.toInt - (1 - (c : Int))) ∧
      (t.cpu.flags.z = true ↔ t.cpu.a = 0#8) ∧ (t.cpu.flags.n = true ↔ t.cpu.a.toInt < 0))

/-- AND, ORA, EOR (R133 to R135): V and C are kept. -/
def Obligations.LogicCombinesWithA : Prop :=
  ReadLaw .and (accReads 0x29#8 0x25#8 0x35#8 0x2D#8 0x3D#8 0x39#8 0x21#8 0x31#8)
    (fun c m n => { c with a := c.a &&& m }.resultNZ (c.a &&& m) n) ∧
  ReadLaw .ora (accReads 0x09#8 0x05#8 0x15#8 0x0D#8 0x1D#8 0x19#8 0x01#8 0x11#8)
    (fun c m n => { c with a := c.a ||| m }.resultNZ (c.a ||| m) n) ∧
  ReadLaw .eor (accReads 0x49#8 0x45#8 0x55#8 0x4D#8 0x5D#8 0x59#8 0x41#8 0x51#8)
    (fun c m n => { c with a := c.a ^^^ m }.resultNZ (c.a ^^^ m) n)

/-- CMP, CPX, CPY (R136 to R138): no register is written and no carry is used. -/
def Obligations.ComparesSetFlags : Prop :=
  ReadLaw .cmp (accReads 0xC9#8 0xC5#8 0xD5#8 0xCD#8 0xDD#8 0xD9#8 0xC1#8 0xD1#8) (fun c m n => c.compared c.a m n) ∧
  ReadLaw .cpx (fun l h _ => indexReads 0xE0#8 0xE4#8 0xEC#8 l h) (fun c m n => c.compared c.x m n) ∧
  ReadLaw .cpy (fun l h _ => indexReads 0xC0#8 0xC4#8 0xCC#8 l h) (fun c m n => c.compared c.y m n)

/-- BIT (R139): Z from A and the byte, N and V from the byte's bits 7 and 6; as any read of 0x2002 does, one by BIT clears the
vblank flag and the write toggle. -/
def Obligations.BitTestsOperand : Prop :=
  MemReadLaw .bit (fun l h _ => [(0x24#8, .zp l, 3), (0x2C#8, .abs (word l h), 4)])
    (fun c m n => { c with
      flags := { c.flags with z := decide (c.a &&& m = 0#8), n := m.getLsbD 7, v := m.getLsbD 6 }, cyclesLeft := n }) ∧
  (∀ s : State, ∃ t, exec (.bit (.abs 0x2002#16)) s = .next t ∧ t.bus.ppu.vblank = false ∧ t.bus.ppu.toggle = false)

/-- INC, DEC (R140, R141): one read, one write of the same address; C and V are kept. INX, INY, DEX, DEY (R142 to R145). -/
def Obligations.IncrementsAndDecrements : Prop :=
  ModifyLaw .inc (memModifies 0xE6#8 0xF6#8 0xEE#8 0xFE#8) (fun v _ => v + 1) (fun c _ r n => c.resultNZ r n) ∧
  ModifyLaw .dec (memModifies 0xC6#8 0xD6#8 0xCE#8 0xDE#8) (fun v _ => v - 1) (fun c _ r n => c.resultNZ r n) ∧
  RegisterLaw 0xE8#8 .inx (fun c => { c with x := c.x + 1 }.resultNZ (c.x + 1) 2) ∧
  RegisterLaw 0xC8#8 .iny (fun c => { c with y := c.y + 1 }.resultNZ (c.y + 1) 2) ∧
  RegisterLaw 0xCA#8 .dex (fun c => { c with x := c.x - 1 }.resultNZ (c.x - 1) 2) ∧
  RegisterLaw 0x88#8 .dey (fun c => { c with y := c.y - 1 }.resultNZ (c.y - 1) 2)

/-- ASL, LSR, ROL, ROR (R160 to R164). -/
def Obligations.ShiftsMoveOneBit : Prop :=
  ShiftLaw .asl 0x0A#8 0x06#8 0x16#8 0x0E#8 0x1E#8 (fun v _ => v <<< 1) (fun v => v.getLsbD 7) ∧
  ShiftLaw .lsr 0x4A#8 0x46#8 0x56#8 0x4E#8 0x5E#8 (fun v _ => v >>> 1) (fun v => v.getLsbD 0) ∧
  ShiftLaw .rol 0x2A#8 0x26#8 0x36#8 0x2E#8 0x3E#8 (fun v c => (v <<< 1) ||| BitVec.ofNat 8 c.toNat)
    (fun v => v.getLsbD 7) ∧
  ShiftLaw .ror 0x6A#8 0x66#8 0x76#8 0x6E#8 0x7E#8 (fun v c => (v >>> 1) ||| (BitVec.ofNat 8 c.toNat <<< 7))
    (fun v => v.getLsbD 0)

/-! Control transfer. -/

/-- The eight conditional branches (R170 to R178). -/
def Obligations.BranchesTestOneFlag : Prop :=
  BranchLaw 0x10#8 .bpl (fun f => !f.n) ∧ BranchLaw 0x30#8 .bmi (fun f => f.n) ∧
  BranchLaw 0x50#8 .bvc (fun f => !f.v) ∧ BranchLaw 0x70#8 .bvs (fun f => f.v) ∧
  BranchLaw 0x90#8 .bcc (fun f => !f.c) ∧ BranchLaw 0xB0#8 .bcs (fun f => f.c) ∧
  BranchLaw 0xD0#8 .bne (fun f => !f.z) ∧ BranchLaw 0xF0#8 .beq (fun f => f.z)

/-- JMP (R179): to the operand, or to the word at the pointer whose second byte is read from the pointer's own page (R95). -/
def Obligations.JumpLoadsTarget : Prop :=
  ∀ (s : State) (l h : Byte),
    (decodeOp 0x4C#8 l h = .jmp (.abs (word l h)) ∧
      exec (.jmp (.abs (word l h))) s = .next { s with cpu := { s.cpu with pc := word l h, cyclesLeft := 3 } }) ∧
    (decodeOp 0x6C#8 l h = .jmp (.ind (word l h)) ∧
      let lo := s.bus.read (word l h)
      let hi := lo.2.read (word (l + 1) h)
      exec (.jmp (.ind (word l h))) s = .next
        { cpu := { s.cpu with pc := word lo.1 hi.1, cyclesLeft := 5 }, bus := hi.2 })

/-- JSR (R180): the address of its last byte is pushed, high byte first. -/
def Obligations.JsrPushesReturn : Prop :=
  ∀ (s : State) (l h : Byte), decodeOp 0x20#8 l h = .jsr (word l h) ∧
    exec (.jsr (word l h)) s = .next
      { cpu := { s.cpu with sp := s.cpu.sp - 2, pc := word l h, cyclesLeft := 6 }
        bus := (s.bus.write (stackAddr s.cpu.sp) (hiByte (s.cpu.pc - 1))).write (stackAddr (s.cpu.sp - 1))
          (loByte (s.cpu.pc - 1)) }

/-- RTS (R181): the pulled word plus one; the stack is read and nothing is written. -/
def Obligations.RtsPullsReturn : Prop :=
  ∀ (s : State) (l h : Byte), decodeOp 0x60#8 l h = .rts ∧
    exec .rts s = .next { s with cpu := { s.cpu with
      sp := s.cpu.sp + 2
      pc := word (s.bus.read (stackAddr (s.cpu.sp + 1))).1 (s.bus.read (stackAddr (s.cpu.sp + 2))).1 + 1
      cyclesLeft := 6 } }

/-- BRK, NMI entry and IRQ entry (R182, R255, R256): three pushes, I set, the vector; B is 1 for BRK alone, and BRK's return
address skips the padding byte. BRK also remembers an IRQ pending while it executes: with no DMA active, at the boundary its 7
cycles lead to, a latched NMI is entered; else, if the line is still asserted, either that IRQ is, as R182, R265 and D12 say, or
BRK's handler goes on, as R253 and R267 say, whatever the free value of log 37 answers; else BRK's handler goes on. -/
def Obligations.HandlerEntries : Prop :=
  ∀ (s : State) (l h : Byte),
    decodeOp 0x00#8 l h = .brk ∧
    exec .brk s = .next ((enteredAt (s.cpu.pc + 1) 0xFFFE#16 (statusSum true s.cpu.flags) s).setIrqOpen s.cpu.irqPending) ∧
    exec .nmi s = .next (enteredAt s.cpu.pc 0xFFFA#16 (statusSum false s.cpu.flags) s) ∧
    exec .irq s = .next (enteredAt s.cpu.pc 0xFFFE#16 (statusSum false s.cpu.flags) s) ∧
    (s.bus.dma.active = false → s.cpu.irqPending = true → ∃ t u, exec .brk s = .next t ∧
      let finish (x : State) : State := x.countDown.endCycle
      Host.Core.run core 6 (finish t) = .next u ∧ u.cpu.cyclesLeft = 0 ∧ u.cpu.flags = t.cpu.flags ∧ u.cpu.pc = t.cpu.pc ∧
      u.cpu.sp = t.cpu.sp ∧
      let b := u.beginCycle.pastBrk
      step u = mapNext finish (if u.cpu.nmiPending then exec .nmi b.consumeNmi
        else if u.bus.irq.asserted && Config.irqAfterBrk u.bus.draws then exec .irq b
        else exec b.fetch.1 b.fetch.2))

/-- RTI (R183): the flags from the pulled byte, bits 5 and 4 discarded, then PC with no increment. At the next boundary, when
the RTI's 6 cycles are paid and if no NMI is latched there, the restored I decides whether an asserted IRQ is taken or the next
instruction is fetched (decision D8, R299). No step runs an RTI with an IRQ still remembered by BRK: the boundary
forgets it first (log 37). -/
def Obligations.RtiRestoresFlagsAndPC : Prop :=
  ∀ (s : State) (l h : Byte), decodeOp 0x40#8 l h = .rti ∧
    let p := (s.bus.read (stackAddr (s.cpu.sp + 1))).1
    let t : State := { s with cpu := { s.cpu with
      sp := s.cpu.sp + 3
      flags := { n := p.getLsbD 7, v := p.getLsbD 6, d := p.getLsbD 3, i := p.getLsbD 2, z := p.getLsbD 1, c := p.getLsbD 0 }
      pc := word (s.bus.read (stackAddr (s.cpu.sp + 2))).1 (s.bus.read (stackAddr (s.cpu.sp + 3))).1
      cyclesLeft := 6 } }
    let finish (x : State) : State := x.countDown.endCycle
    exec .rti s = .next t ∧
    (s.bus.dma.active = false → ∃ u, Host.Core.run core 5 (finish t) = .next u ∧
      u.cpu.cyclesLeft = 0 ∧ u.bus.dma.active = false ∧ u.cpu.flags = t.cpu.flags ∧ u.cpu.pc = t.cpu.pc ∧
      (u.cpu.nmiPending = false → p.getLsbD 2 = false → u.bus.irq.asserted = true →
        step u = mapNext finish (exec .irq u.beginCycle.pastBrk)) ∧
      (u.cpu.nmiPending = false → p.getLsbD 2 = true → s.bus.irqOpen = false →
        step u = mapNext finish (exec u.beginCycle.fetch.1 u.beginCycle.fetch.2)))

/-! Stack and flags. -/

/-- PHA, PHP, PLA, PLP (R191 to R194): one stack access each. -/
def Obligations.StackMovesOneByte : Prop :=
  ∀ (s : State) (l h : Byte),
    let p := (s.bus.read (stackAddr (s.cpu.sp + 1))).1
    (decodeOp 0x48#8 l h = .pha ∧ exec .pha s = .next
      { cpu := { s.cpu with sp := s.cpu.sp - 1, cyclesLeft := 3 }
        bus := s.bus.write (stackAddr s.cpu.sp) s.cpu.a }) ∧
    (decodeOp 0x08#8 l h = .php ∧ exec .php s = .next
      { cpu := { s.cpu with sp := s.cpu.sp - 1, cyclesLeft := 3 }
        bus := s.bus.write (stackAddr s.cpu.sp) (statusSum true s.cpu.flags) }) ∧
    (decodeOp 0x68#8 l h = .pla ∧ exec .pla s = .next
      { s with cpu := { s.cpu with sp := s.cpu.sp + 1, a := p }.resultNZ p 4 }) ∧
    (decodeOp 0x28#8 l h = .plp ∧ exec .plp s = .next
      { s with cpu := { s.cpu with
        sp := s.cpu.sp + 1
        flags := { n := p.getLsbD 7, v := p.getLsbD 6, d := p.getLsbD 3, i := p.getLsbD 2, z := p.getLsbD 1, c := p.getLsbD 0 }
        cyclesLeft := 4 } })

/-- CLC, SEC, CLI, SEI, CLD, SED, CLV (R195 to R201) write their one flag; NOP 0xEA (R202) writes nothing. -/
def Obligations.FlagInstructionsWriteOneFlag : Prop :=
  RegisterLaw 0x18#8 .clc (fun c => { c with flags := { c.flags with c := false }, cyclesLeft := 2 }) ∧
  RegisterLaw 0x38#8 .sec (fun c => { c with flags := { c.flags with c := true }, cyclesLeft := 2 }) ∧
  RegisterLaw 0x58#8 .cli (fun c => { c with flags := { c.flags with i := false }, cyclesLeft := 2 }) ∧
  RegisterLaw 0x78#8 .sei (fun c => { c with flags := { c.flags with i := true }, cyclesLeft := 2 }) ∧
  RegisterLaw 0xD8#8 .cld (fun c => { c with flags := { c.flags with d := false }, cyclesLeft := 2 }) ∧
  RegisterLaw 0xF8#8 .sed (fun c => { c with flags := { c.flags with d := true }, cyclesLeft := 2 }) ∧
  RegisterLaw 0xB8#8 .clv (fun c => { c with flags := { c.flags with v := false }, cyclesLeft := 2 }) ∧
  RegisterLaw 0xEA#8 .nop (fun c => { c with cyclesLeft := 2 })

/-- D is read by the status pushes alone: for every other instruction that does not write D, running it with D flipped gives
the same outcome with D flipped. So no arithmetic depends on D (D1). -/
def Obligations.DecimalFlagIsInert : Prop :=
  ∀ (i : Instr) (s : State), writesD i = false → i ∉ [.php, .brk, .nmi, .irq] →
    let flip (s : State) : State := { s with cpu := { s.cpu with flags := { s.cpu.flags with d := !s.cpu.flags.d } } }
    exec i (flip s) = mapNext flip (exec i s)

/-! Undocumented opcodes. -/

/-- SLO, RLA, SRE (R211 to R213): N and Z describe the new A, C the shift. -/
def Obligations.ShiftThenLogic : Prop :=
  ModifyLaw .slo (combinedModifies 0x07#8 0x17#8 0x0F#8 0x1F#8 0x1B#8 0x03#8 0x13#8) (fun v _ => v <<< 1)
    (fun c v r n => ({ c with a := c.a ||| r }.withCarry (v.getLsbD 7)).resultNZ (c.a ||| r) n) ∧
  ModifyLaw .rla (combinedModifies 0x27#8 0x37#8 0x2F#8 0x3F#8 0x3B#8 0x23#8 0x33#8)
    (fun v c => (v <<< 1) ||| BitVec.ofNat 8 c.toNat)
    (fun c v r n => ({ c with a := c.a &&& r }.withCarry (v.getLsbD 7)).resultNZ (c.a &&& r) n) ∧
  ModifyLaw .sre (combinedModifies 0x47#8 0x57#8 0x4F#8 0x5F#8 0x5B#8 0x43#8 0x53#8) (fun v _ => v >>> 1)
    (fun c v r n => ({ c with a := c.a ^^^ r }.withCarry (v.getLsbD 0)).resultNZ (c.a ^^^ r) n)

/-- RRA, ISC (R214, R218): RRA's addition takes the rotate's carry, ISC's subtraction the old one. -/
def Obligations.ModifyThenAdd : Prop :=
  ModifyLaw .rra (combinedModifies 0x67#8 0x77#8 0x6F#8 0x7F#8 0x7B#8 0x63#8 0x73#8)
    (fun v c => (v >>> 1) ||| (BitVec.ofNat 8 c.toNat <<< 7))
    (fun c v r n => c.added r (v.getLsbD 0) n) ∧
  ModifyLaw .isc (combinedModifies 0xE7#8 0xF7#8 0xEF#8 0xFF#8 0xFB#8 0xE3#8 0xF3#8) (fun v _ => v + 1)
    (fun c _ r n => c.added (r ^^^ 0xFF#8) c.flags.c n)

/-- SAX, LAX, DCP (R215 to R217). -/
def Obligations.StoreLoadCompareCombined : Prop :=
  StoreLaw .sax (fun l h => [(0x87#8, .zp l, 3), (0x97#8, .zpy l, 4), (0x8F#8, .abs (word l h), 4), (0x83#8, .izx l, 6)])
    (fun c => c.a &&& c.x) ∧
  MemReadLaw .lax (fun l h s => [(0xA7#8, .zp l, 3), (0xB7#8, .zpy l, 4), (0xAF#8, .abs (word l h), 4),
      (0xBF#8, .aby (word l h), 4 + pagePenalty (.mem (.aby (word l h))) s), (0xA3#8, .izx l, 6),
      (0xB3#8, .izy l, 5 + pagePenalty (.mem (.izy l)) s)])
    (fun c m n => { c with a := m, x := m }.resultNZ m n) ∧
  ModifyLaw .dcp (combinedModifies 0xC7#8 0xD7#8 0xCF#8 0xDF#8 0xDB#8 0xC3#8 0xD3#8) (fun v _ => v - 1)
    (fun c _ r n => c.compared c.a r n)

/-- ANC (both opcodes), ALR, ARR, AXS (R219 to R222). -/
def Obligations.ImmediateCombined : Prop :=
  (∀ op ∈ [0x0B#8, 0x2B#8], ImmediateLaw op (.anc op) (fun c m =>
    let r := c.a &&& m
    ({ c with a := r }.withCarry (r.getLsbD 7)).resultNZ r 2)) ∧
  ImmediateLaw 0x4B#8 .alr (fun c m =>
    let t := c.a &&& m
    ({ c with a := t >>> 1 }.withCarry (t.getLsbD 0)).resultNZ (t >>> 1) 2) ∧
  ImmediateLaw 0x6B#8 .arr (fun c m =>
    let r := ((c.a &&& m) >>> 1) ||| (BitVec.ofNat 8 c.flags.c.toNat <<< 7)
    { c with
      a := r
      flags := { c.flags with
        n := r.getLsbD 7, z := decide (r = 0#8), c := r.getLsbD 6, v := r.getLsbD 6 ^^ r.getLsbD 5 }
      cyclesLeft := 2 }) ∧
  ImmediateLaw 0xCB#8 .axs (fun c m =>
    let t := c.a &&& c.x
    ({ c with x := t - m }.withCarry (decide (m.toNat ≤ t.toNat))).resultNZ (t - m) 2)

/-- The 27 undocumented NOPs (R224): no data read, no register, no flag; the absolute,X forms pay the page penalty. -/
def Obligations.UndocumentedNopsOnlyCost : Prop :=
  ∀ (s : State) (l h : Byte),
    let costs (n : Nat) : State := { s with cpu := { s.cpu with cyclesLeft := n } }
    let nops (ops : List Byte) (arg : NopArg) (n : Nat) : Prop :=
      ∀ op ∈ ops, decodeOp op l h = .nopUndoc op arg ∧ exec (.nopUndoc op arg) s = .next (costs n)
    nops [0x1A#8, 0x3A#8, 0x5A#8, 0x7A#8, 0xDA#8, 0xFA#8] .imp 2 ∧
    nops [0x80#8, 0x82#8, 0x89#8, 0xC2#8, 0xE2#8] (.imm l) 2 ∧
    nops [0x04#8, 0x44#8, 0x64#8] (.mem (.zp l)) 3 ∧
    nops [0x14#8, 0x34#8, 0x54#8, 0x74#8, 0xD4#8, 0xF4#8] (.mem (.zpx l)) 4 ∧
    nops [0x0C#8] (.mem (.abs (word l h))) 4 ∧
    nops [0x1C#8, 0x3C#8, 0x5C#8, 0x7C#8, 0xDC#8, 0xFC#8] (.mem (.abx (word l h)))
      (4 + pagePenalty (.mem (.abx (word l h))) s)

/-- KIL (R225, R279): PC goes back to the KIL itself; so a system cycle that fetches one from storage leaves PC, the registers,
the flags and that byte as they were; and while IRQs are masked and the PPU raises no NMI the CPU executes it for ever: after any
number of its two cycles the CPU record is as it was but for the IRQ level, and storage too. -/
def Obligations.KilLocksPC : Prop :=
  (∀ (s : State) (l h : Byte), ∀ op ∈ kilOpcodes, decodeOp op l h = .kil op ∧
    exec (.kil op) s = .next { s with cpu := { s.cpu with pc := s.cpu.pc - 1, cyclesLeft := 2 } }) ∧
  (∀ s : State, ∀ op ∈ kilOpcodes, s.AtQuietBoundary → s.bus.peek s.cpu.pc = some op →
    ∃ t, step s = .next t ∧ t.cpu.pc = s.cpu.pc ∧ t.cpu.a = s.cpu.a ∧ t.cpu.x = s.cpu.x ∧ t.cpu.y = s.cpu.y ∧
      t.cpu.sp = s.cpu.sp ∧ t.cpu.flags = s.cpu.flags ∧ t.cpu.cyclesLeft = 1 ∧ t.bus.peek s.cpu.pc = some op) ∧
  (∀ (s : State) (n : Nat), ∀ op ∈ kilOpcodes, s.AtQuietBoundary → s.bus.peek s.cpu.pc = some op →
    s.cpu.flags.i = true → s.bus.ppu.ctrl.getLsbD 7 = false →
    ∃ t, Host.Core.run core (2 * n) s = .next t ∧
      t.cpu = { s.cpu with irqPending := t.cpu.irqPending } ∧
      t.bus.mem = s.bus.mem ∧ t.bus.peek s.cpu.pc = some op ∧ t.AtQuietBoundary)

/-- LAS (R226, D16). -/
def Obligations.LasMasksWithSP : Prop :=
  ∀ (s : State) (l h : Byte),
    let m := Mem.aby (word l h)
    let v := operandByte (.mem m) s &&& s.cpu.sp
    decodeOp 0xBB#8 l h = .las (word l h) ∧
    exec (.las (word l h)) s = .next
      { cpu := { s.cpu with a := v, x := v, sp := v }.resultNZ v (4 + pagePenalty (.mem m) s)
        bus := busAfterOperand (.mem m) s }

/-- The seven unstable opcodes in `degraded` mode (R233): nothing but the base cycles. -/
def Obligations.DegradedOpcodesAreNops : Prop :=
  ∀ (s : State) (l h : Byte), s.bus.params.unstableOps = .degraded →
    ∀ r ∈ [(0x8B#8, Instr.xaa l, 2), (0xAB#8, .lxa l, 2), (0x93#8, .ahx (.izy l), 6), (0x9F#8, .ahx (.aby (word l h)), 5),
      (0x9B#8, .tas (word l h), 5), (0x9C#8, .shy (word l h), 5), (0x9E#8, .shx (word l h), 5)],
      decodeOp r.1 l h = r.2.1 ∧ exec r.2.1 s = .next { s with cpu := { s.cpu with cyclesLeft := r.2.2 } }

/-- XAA and LXA in `nmos` mode (R227, R228, D15), for whatever byte XAA_MAGIC is (a free value, log 11). -/
def Obligations.NmosXaaLxa : Prop :=
  ∀ (s : State) (b : Byte), s.bus.params.unstableOps = .nmos →
    let r := (s.cpu.a ||| Config.xaaMagic) &&& s.cpu.x &&& b
    let v := (s.cpu.a ||| Config.xaaMagic) &&& b
    exec (.xaa b) s = .next { s with cpu := { s.cpu with a := r }.resultNZ r 2 } ∧
    exec (.lxa b) s = .next { s with cpu := { s.cpu with a := v, x := v }.resultNZ v 2 }

/-- AHX, TAS, SHY, SHX in `nmos` mode (R229 to R232, R234, D15). -/
def Obligations.NmosUnstableStores : Prop :=
  ∀ (s : State) (w : Addr) (b : Byte), s.bus.params.unstableOps = .nmos →
    let stored (m : Mem) (src : Byte) : Bus :=
      let v := unstableByte m src s
      s.bus.write (unstableAddr m v s) v
    let ax := s.cpu.a &&& s.cpu.x
    exec (.ahx (.izy b)) s = .next { cpu := { s.cpu with cyclesLeft := 6 }, bus := stored (.izy b) ax } ∧
    exec (.ahx (.aby w)) s = .next { cpu := { s.cpu with cyclesLeft := 5 }, bus := stored (.aby w) ax } ∧
    exec (.tas w) s = .next { cpu := { s.cpu with sp := ax, cyclesLeft := 5 }, bus := stored (.aby w) ax } ∧
    exec (.shy w) s = .next { cpu := { s.cpu with cyclesLeft := 5 }, bus := stored (.abx w) s.cpu.y } ∧
    exec (.shx w) s = .next { cpu := { s.cpu with cyclesLeft := 5 }, bus := stored (.aby w) s.cpu.x }

/-! Pushes and pulls together. -/

/-- An interrupt entry and the RTI that ends its handler restore the CPU record: registers, flags, SP and PC. -/
def Obligations.InterruptReturnRestores : Prop :=
  ∀ s : State, s.Inv → ∀ i ∈ [Instr.nmi, Instr.irq],
    ∃ t u, exec i s = .next t ∧ t.cpu.flags.i = true ∧ exec .rti t = .next u ∧ u.cpu = { s.cpu with cyclesLeft := 6 }

/-- A call and its return come back to the byte after the JSR with SP restored. -/
def Obligations.SubroutineReturnRestores : Prop :=
  ∀ (s : State) (w : Addr), s.Inv →
    ∃ t u, exec (.jsr w) s = .next t ∧ t.cpu.pc = w ∧ exec .rts t = .next u ∧ u.cpu = { s.cpu with cyclesLeft := 6 }

/-- The status byte (R27, R28): its bits, and that loading it gives the flags back. -/
def Obligations.StatusByteRoundTrip : Prop :=
  (∀ (f : Flags) (b : Bool), f.statusByte b = statusSum b f ∧ loadStatus (f.statusByte b) = f) ∧
  (∀ (p : Byte) (b : Bool), (loadStatus p).statusByte b = (p &&& 0xCF#8) ||| 0x20#8 ||| (BitVec.ofNat 8 b.toNat <<< 4))

/-! Frames. -/

/-- Every register an instruction is not listed as writing (R21 to R25) is unchanged, and so are the two pending inputs; BRK
alone writes the model's `irqOpen`, with the IRQ level (log 37). -/
def Obligations.RegisterFrame : Prop :=
  ∀ (i : Instr) (s t : State), exec i s = .next t →
    (writesA i = false → t.cpu.a = s.cpu.a) ∧ (writesX i = false → t.cpu.x = s.cpu.x) ∧
    (writesY i = false → t.cpu.y = s.cpu.y) ∧ (writesSP i = false → t.cpu.sp = s.cpu.sp) ∧
    (writesPC i = false → t.cpu.pc = s.cpu.pc) ∧
    t.cpu.irqPending = s.cpu.irqPending ∧ t.cpu.nmiPending = s.cpu.nmiPending ∧
    t.bus.irqOpen = (if i = .brk then s.cpu.irqPending else s.bus.irqOpen)

/-- Every flag an instruction is not listed as writing (R26) is unchanged. -/
def Obligations.FlagFrame : Prop :=
  ∀ (i : Instr) (s t : State), exec i s = .next t →
    (writesC i = false → t.cpu.flags.c = s.cpu.flags.c) ∧
    (writesNZ i = false → t.cpu.flags.n = s.cpu.flags.n ∧ t.cpu.flags.z = s.cpu.flags.z) ∧
    (writesV i = false → t.cpu.flags.v = s.cpu.flags.v) ∧
    (writesD i = false → t.cpu.flags.d = s.cpu.flags.d) ∧
    (writesI i = false → t.cpu.flags.i = s.cpu.flags.i)

/-- Every byte of storage is unchanged but those at the addresses the instruction stores to; an instruction that stores
nothing leaves OAM, palette, DMA, the controller strobe and the APU's registers as well. -/
def Obligations.MemoryFrame : Prop :=
  ∀ (i : Instr) (s t : State), exec i s = .next t →
    (∀ x : Addr, (∀ a ∈ storesAt i s, s.bus.cell x ≠ s.bus.cell a) → t.bus.peek x = s.bus.peek x) ∧
    (storesAt i s = [] → t.bus.ppu.oam = s.bus.ppu.oam ∧ t.bus.ppu.palette = s.bus.ppu.palette ∧
      t.bus.dma = s.bus.dma ∧ t.bus.strobe = s.bus.strobe ∧ t.bus.apu = s.bus.apu) ∧
    t.bus.cart = s.bus.cart ∧ t.bus.params = s.bus.params ∧ t.bus.sysCycles = s.bus.sysCycles

/-! The machine's step. -/

/-- A system cycle at a quiet boundary runs the instruction decoded from the bytes of storage at PC, with PC past them, and then
counts down, steps the APU and the PPU (R254, R257, R296). -/
def Obligations.StepRunsDecoded : Prop :=
  ∀ (s : State) (bs : List Byte) (i : Instr), s.AtQuietBoundary → decode bs = .ok (i, []) →
    (∀ k, (hk : k < bs.length) → s.bus.peek (s.cpu.pc + BitVec.ofNat 16 k) = some bs[k]) →
    step s = mapNext (fun t => t.countDown.endCycle)
      (exec i (s.beginCycle.setPC (s.cpu.pc + BitVec.ofNat 16 bs.length)))

/-- Fetching reads the opcode byte and the operand bytes one by one through the bus, in increasing address order, each read
seeing the side effects of those before it (R75, R80, R84); an ignored immediate byte is not read (R88, log 33). That
a read immediate byte is read here, and not in the semantic function, is the model's reading (log 6). -/
def Obligations.FetchReadsInOrder : Prop :=
  ∀ s : State,
    let r0 := s.bus.read s.cpu.pc
    let r1 := r0.2.read (s.cpu.pc + 1)
    let r2 := r1.2.read (s.cpu.pc + 2)
    (operandCount r0.1 = 0 →
      s.fetch = (decodeOp r0.1 0 0, { cpu := { s.cpu with pc := s.cpu.pc + 1 }, bus := r0.2 })) ∧
    (operandCount r0.1 = 1 → operandIgnored (decodeOp r0.1 0 0) s.bus.params.unstableOps = false →
      s.fetch = (decodeOp r0.1 r1.1 0, { cpu := { s.cpu with pc := s.cpu.pc + 2 }, bus := r1.2 })) ∧
    (operandCount r0.1 = 1 → operandIgnored (decodeOp r0.1 0 0) s.bus.params.unstableOps = true →
      s.fetch.2 = { cpu := { s.cpu with pc := s.cpu.pc + 2 }, bus := r0.2 }) ∧
    (operandCount r0.1 = 2 →
      s.fetch = (decodeOp r0.1 r1.1 r2.1, { cpu := { s.cpu with pc := s.cpu.pc + 3 }, bus := r2.2 }))

/-- While cycles are owed and no DMA runs, a system cycle is its beginning, the count-down and its end: the CPU makes no bus
access, and changes nothing in its record but the count, the IRQ level and the NMI latch, which can only be set (R296, R297). -/
def Obligations.OwedCyclesOnlyCountDown : Prop :=
  ∀ (s : State) (n : Nat), s.cpu.cyclesLeft = n + 1 → s.bus.dma.active = false →
    ∃ t, step s = .next t ∧
      t = (s.beginCycle.setCycles n).endCycle ∧
      t.cpu = { s.cpu with cyclesLeft := n, irqPending := s.bus.irq.asserted, nmiPending := t.cpu.nmiPending } ∧
      (s.cpu.nmiPending = true → t.cpu.nmiPending = true)

/-- At an instruction boundary (R252, R253, R254, D8): a latched NMI is entered and its latch cleared; else an asserted IRQ is
entered if I is 0; else an instruction is fetched and executed, as it is with I at 1 unless an IRQ was pending in a BRK just
executed (`irqOpen`). If one was and is still asserted, the spec contradicts itself: it is taken (R182, R265, D12), or I keeps it
out (R253, R267). There one of the two happens, whatever the free value `Config.irqAfterBrk` answers (log 37). In every case the
boundary forgets what BRK remembered. -/
def Obligations.BoundaryTakesNmiThenIrq : Prop :=
  ∀ s : State, s.cpu.cyclesLeft = 0 → s.bus.dma.active = false →
    let b := s.beginCycle.pastBrk
    let finish (t : State) : State := t.countDown.endCycle
    (s.cpu.nmiPending = true →
      step s = mapNext finish (exec .nmi { b with cpu := { b.cpu with nmiPending := false } })) ∧
    (s.cpu.nmiPending = false → s.cpu.flags.i = false → s.bus.irq.asserted = true → step s = mapNext finish (exec .irq b)) ∧
    (s.cpu.nmiPending = false → (s.cpu.flags.i = true ∧ s.bus.irqOpen = false) ∨ s.bus.irq.asserted = false →
      step s = mapNext finish (exec b.fetch.1 b.fetch.2)) ∧
    (s.cpu.nmiPending = false → s.bus.irq.asserted = true → s.cpu.flags.i = true → s.bus.irqOpen = true →
      step s = mapNext finish (if Config.irqAfterBrk s.bus.draws then exec .irq b else exec b.fetch.1 b.fetch.2)) ∧
    b = { cpu := { s.cpu with irqPending := s.bus.irq.asserted }
          bus := { s.bus.controllerLatchStep with
            irqOpen := false
            draws := if s.bus.irqOpen then s.bus.draws + 1 else s.bus.draws } }

/-- The two pending inputs. `irq_pending` after every system cycle is the OR of the three request flags at its beginning (R31):
the CPU never writes it. The NMI latch (R32) is cleared only by the boundary that accepts it, and set only by a PPU dot that
raises NMI (decision D34), which a dot does before it is left (log 19). -/
def Obligations.PendingInputs : Prop :=
  (∀ s : State, ∃ c : State, step s = .next c.endCycle ∧
    c.endCycle.cpu.irqPending = (s.bus.irq.mapper || s.bus.irq.frame || s.bus.irq.dmc) ∧
    c.cpu.nmiPending = (s.cpu.nmiPending && (s.bus.dma.active || decide (s.cpu.cyclesLeft ≠ 0)))) ∧
  (∀ c : State,
    let dot1 : State := { c with bus := c.bus.apuStep }
    let dot2 := dot1.ppuDot
    let dot3 := dot2.ppuDot
    c.endCycle.cpu.nmiPending = (c.cpu.nmiPending || dot1.bus.ppu.raisesNmi || dot2.bus.ppu.raisesNmi
      || dot3.bus.ppu.raisesNmi))

/-- While OAM DMA is active the CPU is not stepped (R264): no register, flag, `cycles_left` or PC changes, whatever is pending;
the IRQ level is still recomputed, a latched NMI stays latched, and the APU and PPU go on. -/
def Obligations.DmaFreezesCpu : Prop :=
  ∀ s : State, s.bus.dma.active = true →
    ∃ t, step s = .next t ∧
      t = State.endCycle { s.beginCycle with bus := s.beginCycle.bus.dmaStep } ∧
      t.cpu = { s.cpu with irqPending := s.bus.irq.asserted, nmiPending := t.cpu.nmiPending } ∧
      (s.cpu.nmiPending = true → t.cpu.nmiPending = true)

/-- An OAM DMA from working RAM copies its page: after 513 system cycles, or 514 with the alignment cycle, byte k of the page
stands in OAM k places after the OAM address, storage is as it was, the CPU has not moved, and DMA is over (R262, R263). -/
def Obligations.OamDmaCopiesPage : Prop :=
  ∀ s : State, s.Inv → s.bus.dma.active = true → s.bus.dma.index = 0 → s.bus.dma.page.toNat < 0x20 →
    ∃ t, Host.Core.run core (if s.bus.dma.align then 514 else 513) s = .next t ∧
      t.bus.dma.active = false ∧ t.bus.mem = s.bus.mem ∧ t.cpu.pc = s.cpu.pc ∧ t.cpu.cyclesLeft = s.cpu.cyclesLeft ∧
      ∀ k : Byte, t.bus.ppu.oam.read (s.bus.ppu.oamAddr + k).toNat = s.bus.mem.read (ramIndex (word k s.bus.dma.page))

/-- No instruction and no memory access faults (R102, R250): from every state a step gives a next state, one system cycle
later. -/
def Obligations.EveryStepGoesOn : Prop :=
  (∀ (i : Instr) (s : State), ∃ t, exec i s = .next t) ∧
  (∀ s : State, GoesOn s) ∧
  (∀ s t : State, step s = .next t → t.bus.sysCycles = s.bus.sysCycles + 1)

/-- Every step keeps the invariant: every byte memory in canonical form and within its addresses, the PPU's counters within
the frame, the DMA index at most 512, at most 7 cycles owed. -/
def Obligations.StepKeepsInvariant : Prop :=
  ∀ s t : State, s.Inv → step s = .next t → t.Inv

/-- The invariant holds after reset. -/
def Obligations.ResetMeetsInvariant : Prop := State.reset.Inv

/-! The bus. -/

/-- Working RAM (R55): four mirrors of 2 KB; a read has no side effect, and a write changes nothing but storage. -/
def Obligations.RamIsMirrored : Prop :=
  ∀ (b : Bus) (a x : Addr) (v : Byte), b.mem.wf = true → a.toNat < 0x2000 → x.toNat < 0x2000 →
    (b.read a).2 = b ∧
    b.write a v = { b with mem := (b.write a v).mem } ∧
    ((b.write a v).read x).1 = (if x.toNat % 0x800 = a.toNat % 0x800 then v else (b.read x).1)

/-- Cartridge storage (R60): PRG-RAM round-trips and a write does not change PRG-ROM. That a read of either has no side effect, and
that a write to PRG-ROM changes nothing at all, is the model's choice (log 9), since R58 and R59 leave both to the mapper; the unused block
0x4018-0x401F ignores writes, and its reads change nothing but the model's count of free values (R62, log 8). -/
def Obligations.CartridgeAndUnusedBlock : Prop :=
  (∀ (b : Bus) (a : Addr) (v : Byte), b.mem.wf = true → 0x4020 ≤ a.toNat →
    (b.cart.kindAt a.toNat = .prgRam → (b.write a v).read a = (v, b.write a v)) ∧
    (b.cart.kindAt a.toNat = .prgRom → b.write a v = b ∧ (b.read a).2 = b)) ∧
  (∀ (b : Bus) (a : Addr) (v : Byte), 0x4018 ≤ a.toNat → a.toNat < 0x4020 →
    b.write a v = b ∧ (b.read a).2 = { b with draws := b.draws + 1 })

/-- PPU registers (R57): every address of 0x2000-0x3FFF is the register of its low three bits. -/
def Obligations.PpuRegistersAreMirrored : Prop :=
  ∀ (b : Bus) (a : Addr) (v : Byte), 0x2000 ≤ a.toNat → a.toNat < 0x4000 →
    b.read a = b.read (0x2000#16 + (a &&& 7#16)) ∧ b.write a v = b.write (0x2000#16 + (a &&& 7#16)) v

/-- A read of PPU status (R58, R270): vblank, sprite-zero hit and sprite overflow in bits 7 to 5 (the two sprite bits as they
stand unless rendering may have changed them, log 20); it clears vblank and the write toggle and no other PPU register. -/
def Obligations.PpuStatusReadClears : Prop :=
  ∀ b : Bus,
    let r := b.read 0x2002#16
    r.1.getLsbD 7 = b.ppu.vblank ∧
    (b.ppu.spritesOpen = false → r.1.getLsbD 6 = b.ppu.spriteZero ∧ r.1.getLsbD 5 = b.ppu.spriteOverflow ∧
      r.2.ppu = { b.ppu with vblank := false, toggle := false }) ∧
    r.2.ppu.vblank = false ∧ r.2.ppu.toggle = false ∧ r.2.ppu.ctrl = b.ppu.ctrl ∧ r.2.ppu.mask = b.ppu.mask ∧
    r.2.ppu.v = b.ppu.v ∧ r.2.ppu.t = b.ppu.t ∧ r.2.mem = b.mem

/-- The PPU's ports (R270): OAM address and data, the scroll and address registers by two writes each (the scroll byte split as
log 24 reads it), the increment after data accesses outside active rendering (logs 21, 38), the read-ahead buffer below the palette,
and the palette's 32 entries with the four aliases of 95 S11 at 0x3F00-0x3FFF (log 22). A write to 0x2000 or 0x2001 is held in the
control or mask register and changes nothing else, and one to 0x2002 nothing at all (log 24). -/
def Obligations.PpuPorts : Prop :=
  ∀ (b : Bus) (x y : Byte),
    (b.ppu.oam.wf = true → ((b.write 0x2003#16 x).write 0x2004#16 y).ppu.oamAddr = x + 1 ∧
      ((((b.write 0x2003#16 x).write 0x2004#16 y).write 0x2003#16 x).read 0x2004#16).1 = y) ∧
    (b.ppu.toggle = false →
      let c := (b.write 0x2006#16 x).write 0x2006#16 y
      c.ppu.v.toNat = (x.toNat % 0x40) * 256 + y.toNat ∧ c.ppu.t = c.ppu.v ∧ c.ppu.toggle = false ∧
      (c.ppu.rendering = false → ∀ z : Byte,
        (c.write 0x2007#16 z).ppu.v = c.ppu.v + (if c.ppu.ctrl.getLsbD 2 then 32#15 else 1#15) ∧
        (c.read 0x2007#16).2.ppu.v = c.ppu.v + (if c.ppu.ctrl.getLsbD 2 then 32#15 else 1#15) ∧
        ((c.ppu.v.toNat < 0x3F00) → (c.read 0x2007#16).1 = c.ppu.readBuffer))) ∧
    (b.ppu.toggle = false →
      let c := (b.write 0x2005#16 x).write 0x2005#16 y
      c.ppu.fineX.toNat = x.toNat % 8 ∧ c.ppu.t.toNat % 32 = x.toNat / 8 ∧ c.ppu.t.toNat / 32 % 32 = y.toNat / 8 ∧
      c.ppu.t.toNat / 4096 = y.toNat % 8 ∧ c.ppu.t.toNat / 1024 % 4 = b.ppu.t.toNat / 1024 % 4 ∧ c.ppu.toggle = false) ∧
    (b.ppu.toggle = false → b.ppu.palette.wf = true → ∀ p q : Addr, 0x3F00 ≤ p.toNat → p.toNat < 0x4000 → 0x3F00 ≤ q.toNat →
      q.toNat < 0x4000 →
      let pointAt (a : Addr) (c : Bus) : Bus := (c.write 0x2006#16 (hiByte a)).write 0x2006#16 (loByte a)
      let aliases := p.toNat % 32 = q.toNat % 32 ∨ (p.toNat % 4 = 0 ∧ p.toNat % 16 = q.toNat % 16)
      ((pointAt q ((pointAt p b).write 0x2007#16 x)).read 0x2007#16).1 = if aliases then x else ((pointAt q b).read 0x2007#16).1) ∧
    b.write 0x2000#16 x = { b with ppu := { b.ppu with ctrl := x } } ∧
    b.write 0x2001#16 x = { b with ppu := { b.ppu with mask := x } } ∧
    b.write 0x2002#16 x = b

/-- The APU's registers (R58, R59, R260, R261, R272): what a read of 0x4015 gives and clears, and what a write to it clears, zeroes
and starts (an idle delta-modulation channel starts its sample, a running one goes on: log 18); every register holds the byte
written to it, so 0x4017 sets the mode and the inhibit (and restarts the sequence: log 15); a length load makes the channel's counter
one that may be above 0 (log 16). -/
def Obligations.ApuStatusPort : Prop :=
  ∀ (b : Bus) (v : Byte),
    let r := b.read 0x4015#16
    let w := b.write 0x4015#16 v
    r.1.getLsbD 7 = b.irq.dmc ∧ r.1.getLsbD 6 = b.irq.frame ∧ (r.1.getLsbD 4 = true ↔ 0 < b.apu.dmcLeft) ∧
    (b.apu.lengths.pulse1 = false → r.1.getLsbD 0 = false) ∧ (b.apu.lengths.pulse2 = false → r.1.getLsbD 1 = false) ∧
    (b.apu.lengths.triangle = false → r.1.getLsbD 2 = false) ∧ (b.apu.lengths.noise = false → r.1.getLsbD 3 = false) ∧
    r.2.irq = { b.irq with frame := false } ∧
    w.irq = { b.irq with dmc := false } ∧
    (v.getLsbD 0 = false → w.apu.lengths.pulse1 = false) ∧ (v.getLsbD 1 = false → w.apu.lengths.pulse2 = false) ∧
    (v.getLsbD 2 = false → w.apu.lengths.triangle = false) ∧ (v.getLsbD 3 = false → w.apu.lengths.noise = false) ∧
    (v.getLsbD 4 = false → w.apu.dmcLeft = 0) ∧
    (v.getLsbD 4 = true → b.apu.dmcLeft = 0 →
      w.apu.dmcAddr.toNat = 0xC000 + 64 * (b.apu.reg 0x12).toNat ∧ w.apu.dmcLeft = 16 * (b.apu.reg 0x13).toNat + 1) ∧
    (v.getLsbD 4 = true → b.apu.dmcLeft ≠ 0 → w.apu.dmcAddr = b.apu.dmcAddr ∧ w.apu.dmcLeft = b.apu.dmcLeft) ∧
    (b.apu.regs.wf = true →
      (∀ k < 0x18, k ≠ 0x14 → k ≠ 0x16 → ∀ j,
        (b.write (BitVec.ofNat 16 (0x4000 + k)) v).apu.reg j = if j = k then v else b.apu.reg j) ∧
      (b.write 0x4017#16 v).apu.fiveStep = v.getLsbD 7 ∧ (b.write 0x4017#16 v).apu.irqInhibit = v.getLsbD 6) ∧
    (b.write 0x4017#16 v).apu.frameCycle = 0 ∧
    (b.write 0x4003#16 v).apu.lengths.pulse1 = true ∧ (b.write 0x4007#16 v).apu.lengths.pulse2 = true ∧
    (b.write 0x400B#16 v).apu.lengths.triangle = true ∧ (b.write 0x400F#16 v).apu.lengths.noise = true

/-- The controller port (R273): with the strobe latch at 0 and the registers just loaded, eight reads of 0x4016 give the eight
buttons of player 1 in order, and eight of 0x4017 those of player 2. -/
def Obligations.ControllerReadsButtonsInOrder : Prop :=
  ∀ (b : Bus) (k : Fin 8), b.strobe = true →
    let loaded := b.controllerLatchStep.write 0x4016#16 0x00#8
    ((readTimes k.val 0x4016#16 loaded).read 0x4016#16).1.getLsbD 0 = b.pad1.buttons.getLsbD k.val ∧
    ((readTimes k.val 0x4017#16 loaded).read 0x4017#16).1.getLsbD 0 = b.pad2.buttons.getLsbD k.val

/-- The device interrupt sources (R259, R260, R261, R271). Raised: vblank and NMI at line 241 dot 1; the frame IRQ at the last
step of an uninhibited 4-step sequence and at no other (logs 14, 31); the DMC IRQ, if enabled, when the last byte of a sample that
does not loop has been read, and not before (log 17). Cleared: the PPU's three flags at line 261 dot 1; `frame_irq` by setting the
inhibit bit and by a read of 0x4015; `dmc_irq` by clearing its enable bit and by a write to 0x4015. And the counters that bring
these events about: three dots a cycle, 341 dots a line, 262 lines a frame, one dot fewer in an odd frame with rendering enabled
(log 38), so that line 241 dot 1 comes 82,182 dots into a frame; the frame sequence; the channel's address and remaining bytes, with
the restart of a looping sample (log 18). Rendering opens the sprite flags and `v` (logs 20, 21); only an IRQ-capable cartridge
changes `mapper_irq` (log 10). -/
def Obligations.DeviceInterruptSources : Prop :=
  (∀ p : Ppu, p.raisesNmi = true ↔ p.scanline = 241 ∧ p.dot = 1 ∧ p.ctrl.getLsbD 7 = true) ∧
  (∀ p : Ppu, p.dotEvents.vblank =
    if p.scanline = 241 ∧ p.dot = 1 then true else if p.scanline = 261 ∧ p.dot = 1 then false else p.vblank) ∧
  (∀ p : Ppu, p.scanline = 261 → p.dot = 1 → p.dotEvents.spriteZero = false ∧ p.dotEvents.spriteOverflow = false) ∧
  (∀ b : Bus, b.frameTick.irq.frame = true ↔ b.irq.frame = true ∨
    (b.apu.fiveStep = false ∧ b.apu.irqInhibit = false ∧ b.apu.frameCycle + 1 = b.params.frameSteps4)) ∧
  (∀ b : Bus, b.frameTick.irq.dmc = b.irq.dmc ∧ b.frameTick.irq.mapper = b.irq.mapper) ∧
  (∀ b : Bus, (b.apu.dmcLeft = 0 → b.dmcTick = b) ∧
    (b.apu.dmcLeft ≠ 0 → b.dmcTick = b.drawn ∨ b.dmcTick = (b.drawn.read b.apu.dmcAddr).2.dmcAdvance)) ∧
  (∀ b : Bus, (1 < b.apu.dmcLeft → b.dmcAdvance.irq = b.irq ∧ b.dmcAdvance.apu.dmcLeft = b.apu.dmcLeft - 1) ∧
    (b.apu.dmcLeft = 1 → b.dmcAdvance.irq =
      { b.irq with dmc := b.irq.dmc || (!(b.apu.reg 0x10).getLsbD 6 && (b.apu.reg 0x10).getLsbD 7) })) ∧
  (∀ (b : Bus) (v : Byte),
    (b.write 0x4017#16 v).irq = { b.irq with frame := b.irq.frame && !v.getLsbD 6 } ∧
    (b.read 0x4015#16).2.irq = { b.irq with frame := false } ∧
    (b.write 0x4010#16 v).irq = { b.irq with dmc := b.irq.dmc && v.getLsbD 7 } ∧
    (b.write 0x4015#16 v).irq = { b.irq with dmc := false }) ∧
  (∀ s : State, s.endCycle.bus.ppu = dotTimes 3 s.bus.apuStep.ppu) ∧
  (∀ (p : Ppu) (length : Nat), p.scanline = 0 → p.dot = 0 →
    length = (if p.oddFrame = true ∧ (p.mask.getLsbD 3 = true ∨ p.mask.getLsbD 4 = true) then 89341 else 89342) →
    (∀ n < length, (dotTimes n p).scanline = n / 341 ∧ (dotTimes n p).dot = n % 341 ∧ (dotTimes n p).oddFrame = p.oddFrame) ∧
    (dotTimes length p).scanline = 0 ∧ (dotTimes length p).dot = 0 ∧ (dotTimes length p).oddFrame = !p.oddFrame) ∧
  (∀ p : Ppu,
    let on := p.mask.getLsbD 3 || p.mask.getLsbD 4
    p.dotEvents.vOpen = (p.vOpen || on && (decide (p.scanline < 240) || decide (p.scanline = 261))) ∧
    p.dotEvents.spritesOpen =
      (!(decide (p.scanline = 261) && decide (p.dot = 1)) && (p.spritesOpen || on && decide (p.scanline < 240)))) ∧
  (∀ b : Bus, b.apuStep = b.frameTick.dmcTick ∧ b.frameTick.apu = { b.apu with frameCycle :=
    if (if b.apu.fiveStep then b.params.frameSteps5 else b.params.frameSteps4) ≤ b.apu.frameCycle then 0
    else b.apu.frameCycle + 1 }) ∧
  (∀ b : Bus, (1 < b.apu.dmcLeft → b.dmcAdvance.apu.dmcAddr = b.apu.dmcAddr + 1) ∧
    (b.apu.dmcLeft = 1 → (b.apu.reg 0x10).getLsbD 6 = false → b.dmcAdvance.apu.dmcLeft = 0) ∧
    (b.apu.dmcLeft = 1 → (b.apu.reg 0x10).getLsbD 6 = true →
      b.dmcAdvance.apu.dmcAddr.toNat = 0xC000 + 64 * (b.apu.reg 0x12).toNat ∧
      b.dmcAdvance.apu.dmcLeft = 16 * (b.apu.reg 0x13).toNat + 1)) ∧
  (∀ b : Bus, (b.cart.irqCapable = false → b.mapperHook = b) ∧
    b.mapperHook = { b with irq := { b.irq with mapper := b.mapperHook.irq.mapper }, draws := b.mapperHook.draws })

/-- Reset (R37, R39, R270, R291, D36): from every state, a reset gives these registers and this platform state; PC is the word at
the reset vector. Working RAM is cleared by a hard reset, and by a soft one if the parameter says so; else it is kept (R292). -/
def Obligations.ResetState : Prop :=
  ∀ (s : State) (hard : Bool),
    let t := s.resetTo hard
    t.cpu.a = 0 ∧ t.cpu.x = 0 ∧ t.cpu.y = 0 ∧ t.cpu.sp = 0xFD#8 ∧ t.cpu.flags.statusByte false = 0x24#8 ∧
    t.cpu.irqPending = false ∧ t.cpu.nmiPending = false ∧ t.cpu.cyclesLeft = 7 ∧
    t.bus.irq.asserted = false ∧ t.bus.dma = { active := false, page := 0, index := 0, latch := 0, align := false } ∧
    t.bus.strobe = false ∧ t.bus.pad1.shift = 0 ∧ t.bus.pad2.shift = 0 ∧ t.bus.sysCycles = 0 ∧
    t.bus.apu = { regs := t.bus.apu.regs, lengths := ⟨false, false, false, false⟩, frameCycle := 0, dmcAddr := 0, dmcLeft := 0 } ∧
    (∀ k, t.bus.apu.reg k = 0) ∧ t.bus.apu.fiveStep = false ∧ t.bus.apu.irqInhibit = false ∧
    t.bus.ppu = {
      ctrl := 0, mask := 0, vblank := false, spriteZero := false, spriteOverflow := false, spritesOpen := false, oamAddr := 0
      oam := t.bus.ppu.oam, t := 0, v := 0, vOpen := false, fineX := 0, toggle := false, readBuffer := 0
      palette := t.bus.ppu.palette, scanline := 0, dot := 0, oddFrame := false } ∧
    (∀ k, t.bus.ppu.oam.read k = 0 ∧ t.bus.ppu.palette.read k = 0) ∧
    (∀ x : Addr, x.toNat < 0x2000 → (hard || s.bus.params.softResetClearsRam) = true → t.bus.peek x = some 0) ∧
    (∀ x : Addr, x.toNat < 0x2000 → (hard || s.bus.params.softResetClearsRam) = false → t.bus.peek x = s.bus.peek x) ∧
    (∀ lo hi, t.bus.peek 0xFFFC#16 = some lo → t.bus.peek 0xFFFD#16 = some hi → t.cpu.pc = word lo hi)

/-- The effective addresses (R86 to R94): zero-page indexing and zero-page pointers wrap within page zero, indexed words modulo
2^16, and resolving changes nothing. The base of an indexed word is the word before the index is added, and the page penalty is
owed exactly where the sum leaves the base's page; no other form can owe it (R97). -/
def Obligations.EffectiveAddresses : Prop :=
  ∀ (s : State) (b l h : Byte),
    let x := s.cpu.x
    let y := s.cpu.y
    let pointer (p : Byte) : Addr := word (s.bus.read (word p 0)).1 (s.bus.read (word (p + 1) 0)).1
    (s.resolve (.zp b)).1.ea = word b 0 ∧
    (s.resolve (.zpx b)).1.ea = word (b + x) 0 ∧
    (s.resolve (.zpy b)).1.ea = word (b + y) 0 ∧
    (s.resolve (.abs (word l h))).1.ea = word l h ∧
    (s.resolve (.abx (word l h))).1.ea = BitVec.ofNat 16 (h.toNat * 256 + l.toNat + x.toNat) ∧
    (s.resolve (.aby (word l h))).1.ea = BitVec.ofNat 16 (h.toNat * 256 + l.toNat + y.toNat) ∧
    (s.resolve (.izx b)).1.ea = pointer (b + x) ∧
    (s.resolve (.izy b)).1.ea = BitVec.ofNat 16 ((pointer b).toNat + y.toNat) ∧
    (s.resolve (.abx (word l h))).1.base = word l h ∧
    (s.resolve (.aby (word l h))).1.base = word l h ∧
    (s.resolve (.izy b)).1.base = pointer b ∧
    pagePenalty (.mem (.abx (word l h))) s = (if l.toNat + x.toNat < 0x100 then 0 else 1) ∧
    pagePenalty (.mem (.aby (word l h))) s = (if l.toNat + y.toNat < 0x100 then 0 else 1) ∧
    pagePenalty (.mem (.izy b)) s = (if (pointer b).toNat % 0x100 + y.toNat < 0x100 then 0 else 1) ∧
    (∀ m ∈ [Mem.zp b, .zpx b, .zpy b, .abs (word l h), .izx b], pagePenalty (.mem m) s = 0) ∧
    (∀ m : Mem, (s.resolve m).2 = s) ∧
    (∀ m : Mem, pagePenalty (.mem m) s =
      if (s.resolve m).1.base.toNat / 256 = (s.resolve m).1.ea.toNat / 256 then 0 else 1)

end
end

