-- ==== Sys2Proof/Laws/Memory.lean ====
section
/-! SUPPORT. Byte memories: a read after a write, and that every operation keeps the canonical form. -/

namespace Sys2Proof.Machine

/-- Every address of the memory is above `k`. -/
theorem Memory.read_eq_unlisted_of_lt {m : Memory} {k : Nat} (h : m.all (fun c => decide (k < c.1)) = true) :
    m.read k = Memory.unlisted := by
  induction m with
  | nil => rfl
  | cons c m ih =>
    obtain ⟨k', v'⟩ := c
    simp only [List.all_cons, Bool.and_eq_true, decide_eq_true_eq] at h
    simp [Memory.read, Nat.ne_of_lt h.1, ih h.2]

theorem Memory.wf_cons {k : Nat} {v : Byte} {m : Memory} :
    Memory.wf ((k, v) :: m) = true ↔
      v ≠ Memory.unlisted ∧ m.all (fun c => decide (k < c.1)) = true ∧ m.wf = true := by
  simp [Memory.wf, and_assoc]

/-- A write adds no address but its own. -/
theorem Memory.write_keysIn {m : Memory} {p : Nat → Bool} (hm : m.keysIn p = true) {k : Nat} (hk : p k = true) (v : Byte) :
    (m.write k v).keysIn p = true := by
  induction m with
  | nil => by_cases hv : v = Memory.unlisted <;> simp [Memory.write, Memory.keysIn, hv, hk]
  | cons c m ih =>
    obtain ⟨k', v'⟩ := c
    simp only [Memory.keysIn, List.all_cons, Bool.and_eq_true] at hm ih ⊢
    unfold Memory.write
    split
    · split <;> simp [hm, hk]
    · split
      · split <;> simp [hm, hk]
      · simp [hm, ih hm.2]

/-- A write puts no address below both its own and the memory's lowest. -/
theorem Memory.write_all_gt {m : Memory} {j k : Nat} {v : Byte} (hj : j < k)
    (h : m.all (fun c => decide (j < c.1)) = true) : (m.write k v).all (fun c => decide (j < c.1)) = true :=
  Memory.write_keysIn (p := fun n => decide (j < n)) h (by simpa using hj) v

/-- A read at the address written gives the byte written. -/
theorem Memory.read_write_same {m : Memory} (hm : m.wf = true) (k : Nat) (v : Byte) : (m.write k v).read k = v := by
  induction m with
  | nil => by_cases hv : v = Memory.unlisted <;> simp [Memory.write, Memory.read, hv]
  | cons c m ih =>
    obtain ⟨k', v'⟩ := c
    obtain ⟨_, hall, hwf⟩ := Memory.wf_cons.mp hm
    unfold Memory.write
    split
    · rename_i hlt
      have hall' : Memory.read ((k', v') :: m) k = Memory.unlisted := by
        apply Memory.read_eq_unlisted_of_lt
        simp only [List.all_cons, Bool.and_eq_true, decide_eq_true_eq, hlt, true_and]
        refine List.all_eq_true.mpr fun c hc => ?_
        have := List.all_eq_true.mp hall c hc
        simp only [decide_eq_true_eq] at this ⊢
        omega
      split
      · rename_i hv; rw [hall', hv]
      · simp [Memory.read]
    · split
      · rename_i heq
        subst heq
        split
        · rename_i hv; rw [hv]; exact Memory.read_eq_unlisted_of_lt hall
        · simp [Memory.read]
      · rename_i _ hne
        simp [Memory.read, hne, ih hwf]

/-- A write leaves every other address alone. -/
theorem Memory.read_write_other (m : Memory) {j k : Nat} (h : j ≠ k) (v : Byte) : (m.write k v).read j = m.read j := by
  induction m with
  | nil => by_cases hv : v = Memory.unlisted <;> simp [Memory.write, Memory.read, hv, h]
  | cons c m ih =>
    obtain ⟨k', v'⟩ := c
    unfold Memory.write
    split
    · split <;> simp [Memory.read, h]
    · split
      · rename_i heq
        subst heq
        split <;> simp [Memory.read, h]
      · simp [Memory.read, ih]

/-- A write keeps the canonical form. -/
theorem Memory.write_wf {m : Memory} (hm : m.wf = true) (k : Nat) (v : Byte) : (m.write k v).wf = true := by
  induction m with
  | nil => by_cases hv : v = Memory.unlisted <;> simp [Memory.write, Memory.wf, hv]
  | cons c m ih =>
    obtain ⟨k', v'⟩ := c
    obtain ⟨hne, hall, hwf⟩ := Memory.wf_cons.mp hm
    unfold Memory.write
    split
    · rename_i hlt
      split
      · exact hm
      · rename_i hv
        refine Memory.wf_cons.mpr ⟨hv, ?_, hm⟩
        simp only [List.all_cons, Bool.and_eq_true, decide_eq_true_eq, hlt, true_and]
        refine List.all_eq_true.mpr fun c hc => ?_
        have := List.all_eq_true.mp hall c hc
        simp only [decide_eq_true_eq] at this ⊢
        omega
    · split
      · rename_i heq
        subst heq
        split
        · exact hwf
        · rename_i hv; exact Memory.wf_cons.mpr ⟨hv, hall, hwf⟩
      · refine Memory.wf_cons.mpr ⟨hne, Memory.write_all_gt (by omega) hall, ih hwf⟩

/-- Forgetting cells keeps the canonical form. -/
theorem Memory.keepOnly_wf {m : Memory} (hm : m.wf = true) (keep : Nat → Bool) : (m.keepOnly keep).wf = true := by
  induction m with
  | nil => rfl
  | cons c m ih =>
    obtain ⟨k', v'⟩ := c
    obtain ⟨hne, hall, hwf⟩ := Memory.wf_cons.mp hm
    unfold Memory.keepOnly
    rw [List.filter_cons]
    split
    · refine Memory.wf_cons.mpr ⟨hne, ?_, ih hwf⟩
      exact List.all_eq_true.mpr fun c hc => List.all_eq_true.mp hall c (List.mem_filter.mp hc).1
    · exact ih hwf

/-- Forgetting cells leaves the kept addresses as they were and the others unlisted. -/
theorem Memory.keepOnly_read (m : Memory) (keep : Nat → Bool) (k : Nat) :
    (m.keepOnly keep).read k = if keep k then m.read k else Memory.unlisted := by
  induction m with
  | nil => cases keep k <;> rfl
  | cons c m ih =>
    obtain ⟨j, v⟩ := c
    have ih' : Memory.read (List.filter (fun c => keep c.1) m) k = if keep k then Memory.read m k else Memory.unlisted := ih
    by_cases hk : k = j
    · subst hk
      cases h : keep k <;> simp [Memory.keepOnly, Memory.read, h, ih']
    · cases h : keep j <;> simp [Memory.keepOnly, Memory.read, h, hk, ih']

end Sys2Proof.Machine
end

