-- ==== Sys2Proof/Laws/Bus.lean ====
section
/-! SUPPORT. What a bus access can do (one lemma per kept field), the plain storage behind it, and that every bus operation
keeps the invariant. -/

namespace Sys2Proof.Machine

variable (b : Bus)

/-! The device reads. A device read changes the draw counter and the device's own fields alone. -/

/-- What every read keeps: storage, DMA, the strobe, the cartridge, the parameters, the cycle count. -/
structure Bus.ReadKeeps (b b' : Bus) : Prop where
  mem       : b'.mem = b.mem
  dma       : b'.dma = b.dma
  strobe    : b'.strobe = b.strobe
  cart      : b'.cart = b.cart
  params    : b'.params = b.params
  sysCycles : b'.sysCycles = b.sysCycles
  irqOpen   : b'.irqOpen = b.irqOpen
  apu       : b'.apu = b.apu
  mapperIrq : b'.irq.mapper = b.irq.mapper
  dmcIrq    : b'.irq.dmc = b.irq.dmc
  oam       : b'.ppu.oam = b.ppu.oam
  palette   : b'.ppu.palette = b.ppu.palette
  ctrl      : b'.ppu.ctrl = b.ppu.ctrl
  scanline  : b'.ppu.scanline = b.ppu.scanline
  dot       : b'.ppu.dot = b.ppu.dot

theorem Bus.ReadKeeps.rfl : Bus.ReadKeeps b b := by constructor <;> simp

theorem Bus.ppuAddr_keeps : b.ReadKeeps b.ppuAddr.2 := by
  unfold Bus.ppuAddr; split <;> constructor <;> simp [Bus.drawn]

theorem Bus.sampleSprites_keeps : b.ReadKeeps b.sampleSprites := by
  unfold Bus.sampleSprites; split <;> constructor <;> simp [Bus.drawn]

theorem Bus.readPpuStatus_keeps : b.ReadKeeps b.readPpuStatus.2 := by
  have h := b.sampleSprites_keeps
  unfold Bus.readPpuStatus
  constructor <;> simp [Bus.openBus, Bus.drawn, h.mem, h.dma, h.strobe, h.cart, h.params, h.sysCycles, h.irqOpen, h.apu, h.mapperIrq,
    h.dmcIrq, h.oam, h.palette, h.ctrl, h.scanline, h.dot]

theorem Bus.readPpuData_keeps : b.ReadKeeps b.readPpuData.2 := by
  have h := b.ppuAddr_keeps
  unfold Bus.readPpuData
  constructor <;> simp [Bus.drawn, Ppu.advanceV, h.mem, h.dma, h.strobe, h.cart, h.params, h.sysCycles, h.irqOpen, h.apu, h.mapperIrq,
    h.dmcIrq, h.oam, h.palette, h.ctrl, h.scanline, h.dot]

theorem Bus.readPpu_keeps (r : Nat) : b.ReadKeeps (b.readPpu r).2 := by
  unfold Bus.readPpu
  split
  · exact b.readPpuStatus_keeps
  · exact .rfl b
  · exact b.readPpuData_keeps
  · constructor <;> simp [Bus.openBus, Bus.drawn]

theorem Bus.readIo_keeps (k : Nat) : b.ReadKeeps (b.readIo k).2 := by
  unfold Bus.readIo
  split <;> [skip; split <;> [skip; split <;> [skip; split]]] <;> constructor <;>
    simp [Bus.readApuStatus, Bus.readPad1, Bus.readPad2, Bus.openBus, Bus.unmapped, Bus.drawn]

theorem Bus.readCart_keeps (a : Addr) : b.ReadKeeps (b.readCart a).2 := by
  unfold Bus.readCart
  split <;> constructor <;> simp [Bus.mapperByte, Bus.drawn]

/-- Everything a CPU read can do to the bus: whatever it changes is not among the fields `ReadKeeps` names. -/
theorem Bus.read_keeps (a : Addr) : b.ReadKeeps (b.read a).2 := by
  unfold Bus.read
  split
  · exact .rfl b
  · split
    · exact b.readPpu_keeps _
    · split
      · exact b.readIo_keeps _
      · exact b.readCart_keeps _

@[simp] theorem Bus.read_mem (a : Addr) : (b.read a).2.mem = b.mem := (b.read_keeps a).mem
@[simp] theorem Bus.read_dma (a : Addr) : (b.read a).2.dma = b.dma := (b.read_keeps a).dma
@[simp] theorem Bus.read_cart (a : Addr) : (b.read a).2.cart = b.cart := (b.read_keeps a).cart
@[simp] theorem Bus.read_params (a : Addr) : (b.read a).2.params = b.params := (b.read_keeps a).params
@[simp] theorem Bus.read_irqOpen (a : Addr) : (b.read a).2.irqOpen = b.irqOpen := (b.read_keeps a).irqOpen
@[simp] theorem Bus.read_sysCycles (a : Addr) : (b.read a).2.sysCycles = b.sysCycles := (b.read_keeps a).sysCycles

/-! Plain storage. -/

/-- Where a cell is depends on the cartridge alone. -/
theorem Bus.cell_congr {b b' : Bus} (h : b'.cart = b.cart) (a : Addr) : b'.cell a = b.cell a := by
  simp [Bus.cell, h]

theorem Bus.peek_congr {b b' : Bus} (hm : b'.mem = b.mem) (hc : b'.cart = b.cart) (a : Addr) : b'.peek a = b.peek a := by
  simp [Bus.peek, Bus.cell_congr hc, hm]

@[simp] theorem Bus.cell_read (a x : Addr) : (b.read a).2.cell x = b.cell x := Bus.cell_congr (b.read_cart a) x

/-- A read leaves every byte of storage. -/
@[simp] theorem Bus.peek_read (a x : Addr) : (b.read a).2.peek x = b.peek x :=
  Bus.peek_congr (b.read_mem a) (b.read_cart a) x

/-- A read of the cartridge region changes nothing but the draw counter (R60, log 9). -/
theorem Bus.read_cartridge {a : Addr} (h : 0x4020 ≤ a.toNat) : (b.read a).2 = { b with draws := (b.read a).2.draws } := by
  unfold Bus.read
  rw [if_neg (by omega), if_neg (by omega), if_neg (by omega)]
  unfold Bus.readCart
  split <;> rfl

/-- A read of storage gives the cell's byte and has no side effect. -/
theorem Bus.read_of_cell {b : Bus} {a : Addr} {k : Nat} (h : b.cell a = some k) : b.read a = (b.mem.read k, b) := by
  unfold Bus.cell at h
  unfold Bus.read
  split
  · simp_all
  · rename_i h0
    simp only [h0, if_false] at h
    split at h
    · cases h
    · rename_i h1
      have h2 : ¬ a.toNat < 0x4000 := by omega
      simp only [h1, h2, if_false, Bus.readCart]
      split at h <;> simp_all

/-- A read of storage gives what a peek gives. -/
theorem Bus.read_of_peek {b : Bus} {a : Addr} {v : Byte} (h : b.peek a = some v) : b.read a = (v, b) := by
  unfold Bus.peek at h
  obtain ⟨k, hk, rfl⟩ := Option.map_eq_some_iff.mp h
  exact Bus.read_of_cell hk

/-- Working RAM (R55). -/
theorem Bus.cell_ram {a : Addr} (h : a.toNat < 0x2000) : b.cell a = some (ramIndex a) := by simp [Bus.cell, h]

theorem ramIndex_lt (a : Addr) : ramIndex a < 0x800 := by
  have : ramIndex a = a.toNat % 2048 := by
    simp only [ramIndex, BitVec.toNat_and]
    exact Nat.and_two_pow_sub_one_eq_mod a.toNat 11
  omega

/-! Writes. -/

/-- What every write keeps. -/
structure Bus.WriteKeeps (b b' : Bus) : Prop where
  cart      : b'.cart = b.cart
  params    : b'.params = b.params
  sysCycles : b'.sysCycles = b.sysCycles
  irqOpen   : b'.irqOpen = b.irqOpen
  pad1      : b'.pad1 = b.pad1
  pad2      : b'.pad2 = b.pad2
  scanline  : b'.ppu.scanline = b.ppu.scanline
  dot       : b'.ppu.dot = b.ppu.dot
  mapperIrq : b'.irq.mapper = b.irq.mapper

theorem Bus.ppuAddr_pads : b.ppuAddr.2.pad1 = b.pad1 ∧ b.ppuAddr.2.pad2 = b.pad2 := by
  unfold Bus.ppuAddr; split <;> exact ⟨rfl, rfl⟩

/-- A write to 0x2007, with the address it uses named. -/
theorem Bus.writePpuData_eq (v : Byte) :
    b.writePpuData v =
      let p := b.ppuAddr.2.ppu
      let p := if isPalette b.ppuAddr.1 then { p with palette := p.palette.write (paletteIndex b.ppuAddr.1) v } else p
      { b.ppuAddr.2 with ppu := p.advanceV b.ppuAddr.1 } := rfl

theorem Bus.writePpuData_keeps (v : Byte) : b.WriteKeeps (b.writePpuData v) ∧ (b.writePpuData v).mem = b.mem := by
  have h := b.ppuAddr_keeps
  have q := b.ppuAddr_pads
  rw [Bus.writePpuData_eq]
  generalize b.ppuAddr = w at h q
  dsimp only
  refine ⟨?_, h.mem⟩
  constructor <;> simp only [Ppu.advanceV, h.cart, h.params, h.sysCycles, h.irqOpen, q.1, q.2, h.mapperIrq] <;> split <;>
    simp [h.scanline, h.dot]

theorem Bus.writePpu_keeps (r : Nat) (v : Byte) : b.WriteKeeps (b.writePpu r v) ∧ (b.writePpu r v).mem = b.mem := by
  unfold Bus.writePpu Ppu.writeScroll Ppu.writeAddr
  split
  case h_7 => exact b.writePpuData_keeps v
  all_goals refine ⟨?_, rfl⟩
  all_goals constructor <;> first | rfl | (dsimp only; split <;> rfl)

theorem Bus.writeIo_keeps (k : Nat) (v : Byte) : b.WriteKeeps (b.writeIo k v) ∧ (b.writeIo k v).mem = b.mem := by
  have hq : (b.irq.afterApuWrite k v).mapper = b.irq.mapper := by unfold IrqLines.afterApuWrite; split <;> rfl
  unfold Bus.writeIo
  split <;> [skip; split <;> [skip; split]] <;> refine ⟨?_, ?_⟩ <;> first
    | rfl
    | (constructor <;> simp [Bus.startDma, Bus.writeApu, hq])

/-- Everything a CPU write keeps. -/
theorem Bus.write_keeps (a : Addr) (v : Byte) : b.WriteKeeps (b.write a v) := by
  unfold Bus.write
  split
  · constructor <;> rfl
  · split
    · exact (b.writePpu_keeps _ v).1
    · split
      · exact (b.writeIo_keeps _ v).1
      · unfold Bus.writeCart
        split <;> constructor <;> rfl

@[simp] theorem Bus.write_cart (a : Addr) (v : Byte) : (b.write a v).cart = b.cart := (b.write_keeps a v).cart
@[simp] theorem Bus.write_params (a : Addr) (v : Byte) : (b.write a v).params = b.params := (b.write_keeps a v).params
@[simp] theorem Bus.write_sysCycles (a : Addr) (v : Byte) : (b.write a v).sysCycles = b.sysCycles :=
  (b.write_keeps a v).sysCycles
@[simp] theorem Bus.write_irqOpen (a : Addr) (v : Byte) : (b.write a v).irqOpen = b.irqOpen := (b.write_keeps a v).irqOpen

@[simp] theorem Bus.cell_write (a x : Addr) (v : Byte) : (b.write a v).cell x = b.cell x :=
  Bus.cell_congr (b.write_cart a v) x

/-- What a write does to storage: nothing, or the byte of the cell at its address. -/
theorem Bus.write_mem (a : Addr) (v : Byte) :
    (b.write a v).mem = b.mem ∨ ∃ k, b.cell a = some k ∧ (b.write a v).mem = b.mem.write k v := by
  unfold Bus.write Bus.cell
  split
  · exact .inr ⟨_, rfl, rfl⟩
  · split
    · exact .inl (b.writePpu_keeps _ v).2
    · split
      · exact .inl (b.writeIo_keeps _ v).2
      · unfold Bus.writeCart
        split
        · exact .inr ⟨_, rfl, rfl⟩
        · exact .inl rfl
        · exact .inl rfl

/-- A write leaves every byte of storage whose cell is not the written address's. -/
theorem Bus.peek_write_other {a x : Addr} (v : Byte) (h : b.cell x ≠ b.cell a) : (b.write a v).peek x = b.peek x := by
  simp only [Bus.peek, Bus.cell_write]
  obtain hm | ⟨k, hk, hm⟩ := b.write_mem a v
  · rw [hm]
  · rw [hm]
    cases hx : b.cell x with
    | none => rfl
    | some j =>
      have : j ≠ k := fun e => h (by rw [hx, hk, e])
      simp [Memory.read_write_other b.mem this v]

/-- A write to working RAM stores its byte. -/
theorem Bus.write_ram {a : Addr} (h : a.toNat < 0x2000) (v : Byte) :
    b.write a v = { b with mem := b.mem.write (ramIndex a) v } := by simp [Bus.write, h]

/-- A write to an APU register, with its offset from 0x4000; 0x4014 and 0x4016 are none. -/
theorem Bus.write_apu {k : Nat} (hk : k < 0x18) (h14 : k ≠ 0x14) (h16 : k ≠ 0x16) (v : Byte) :
    b.write (BitVec.ofNat 16 (0x4000 + k)) v = b.writeApu k v := by
  have e : (BitVec.ofNat 16 (0x4000 + k)).toNat = 0x4000 + k := by rw [BitVec.toNat_ofNat]; omega
  unfold Bus.write Bus.writeIo
  rw [e, if_neg (by omega), if_neg (by omega), if_pos (by omega), Nat.add_sub_cancel_left, if_neg h14, if_neg h16, if_pos hk]

/-- What an APU write does beyond being held leaves the register file. -/
theorem Apu.afterWrite_regs (k : Nat) (v : Byte) (a : Apu) : (a.afterWrite k v).regs = a.regs := by
  unfold Apu.afterWrite Apu.dmcEnabledBy Apu.loadLength
  split
  · split <;> [split; skip] <;> rfl
  · rfl
  · split <;> rfl

/-! The invariant. -/

theorem storageKey_cell {a : Addr} {k : Nat} (h : b.cell a = some k) : storageKey k = true := by
  unfold Bus.cell at h
  unfold storageKey
  have := a.isLt
  have := ramIndex_lt a
  split at h
  · cases h; simp; omega
  · split at h
    · cases h
    · split at h <;> first | (cases h; simp; omega) | cases h

variable {b}

theorem Ppu.Inv.of_keeps {p q : Ppu} (h : p.Inv) (ho : q.oam = p.oam) (hp : q.palette = p.palette)
    (hs : q.scanline = p.scanline) (hd : q.dot = p.dot) : q.Inv := by
  obtain ⟨h1, h2, h3, h4, h5, h6⟩ := h
  constructor <;> simp_all

theorem Pad.shifted_left (p : Pad) (st : Bool) (h : p.left ≤ 8) : (p.shifted st).left ≤ 8 := by
  unfold Pad.shifted
  split
  · exact h
  · exact Nat.le_trans (Nat.sub_le _ _) h

/-- The bit counts of the controllers stay in range over a read. -/
theorem Bus.read_pads (h : b.Inv) (a : Addr) : (b.read a).2.pad1.left ≤ 8 ∧ (b.read a).2.pad2.left ≤ 8 := by
  have h1 := h.pad1
  have h2 := h.pad2
  have q1 := fun st => Pad.shifted_left b.pad1 st h1
  have q2 := fun st => Pad.shifted_left b.pad2 st h2
  unfold Bus.read
  split
  · exact ⟨h1, h2⟩
  · split
    · unfold Bus.readPpu
      split
      · unfold Bus.readPpuStatus Bus.sampleSprites; split <;> exact ⟨h1, h2⟩
      · exact ⟨h1, h2⟩
      · have q := b.ppuAddr_pads
        exact ⟨q.1 ▸ h1, q.2 ▸ h2⟩
      · exact ⟨h1, h2⟩
    · split
      · unfold Bus.readIo
        split
        · exact ⟨h1, h2⟩
        · split
          · exact ⟨q1 _, h2⟩
          · split
            · exact ⟨h1, q2 _⟩
            · split <;> exact ⟨h1, h2⟩
      · unfold Bus.readCart
        split <;> exact ⟨h1, h2⟩

/-- A read keeps the invariant. -/
theorem Bus.read_inv (h : b.Inv) (a : Addr) : (b.read a).2.Inv := by
  have k := b.read_keeps a
  have q := Bus.read_pads h a
  constructor
  · rw [k.mem]; exact h.mem_wf
  · rw [k.mem]; exact h.mem_keys
  · rw [k.dma]; exact h.dma
  · exact q.1
  · exact q.2
  · exact h.ppu.of_keeps k.oam k.palette k.scanline k.dot
  · rw [k.apu]; exact h.apu

theorem paletteIndex_lt (a : BitVec 15) : paletteIndex a < 32 := by
  unfold paletteIndex
  have : a.toNat % 32 < 32 := Nat.mod_lt _ (by decide)
  dsimp only
  split <;> omega

theorem Ppu.write_inv {p : Ppu} (h : p.Inv) (v : Byte) (a : BitVec 15) :
    (p.writeOam v).Inv ∧ (p.writeScroll v).Inv ∧ (p.writeAddr v).Inv ∧
      ({ p with palette := p.palette.write (paletteIndex a) v } : Ppu).Inv := by
  obtain ⟨h1, h2, h3, h4, h5, h6⟩ := h
  refine ⟨⟨Memory.write_wf h1 _ v, Memory.write_keysIn h2 (by simpa using p.oamAddr.isLt) v, h3, h4, h5, h6⟩, ?_, ?_,
    ⟨h1, h2, Memory.write_wf h3 _ v, Memory.write_keysIn h4 (by simpa using paletteIndex_lt a) v, h5, h6⟩⟩
  · unfold Ppu.writeScroll; split <;> exact ⟨h1, h2, h3, h4, h5, h6⟩
  · unfold Ppu.writeAddr; split <;> exact ⟨h1, h2, h3, h4, h5, h6⟩

theorem Bus.Inv.setPpu (h : b.Inv) {p : Ppu} (hp : p.Inv) : ({ b with ppu := p } : Bus).Inv :=
  ⟨h.mem_wf, h.mem_keys, h.dma, h.pad1, h.pad2, hp, h.apu⟩

theorem Bus.writePpu_inv (h : b.Inv) (r : Nat) (v : Byte) : (b.writePpu r v).Inv := by
  have hw := fun a => Ppu.write_inv h.ppu v a
  unfold Bus.writePpu
  split
  · exact h.setPpu (h.ppu.of_keeps rfl rfl rfl rfl)
  · exact h.setPpu (h.ppu.of_keeps rfl rfl rfl rfl)
  · exact h.setPpu (h.ppu.of_keeps rfl rfl rfl rfl)
  · exact h.setPpu (hw 0).1
  · exact h.setPpu (hw 0).2.1
  · exact h.setPpu (hw 0).2.2.1
  · have k := b.ppuAddr_keeps
    have q := b.ppuAddr_pads
    rw [Bus.writePpuData_eq]
    generalize b.ppuAddr = w at k q
    have hp : w.2.ppu.Inv := h.ppu.of_keeps k.oam k.palette k.scanline k.dot
    refine ⟨k.mem ▸ h.mem_wf, k.mem ▸ h.mem_keys, k.dma ▸ h.dma, q.1 ▸ h.pad1, q.2 ▸ h.pad2, ?_, k.apu ▸ h.apu⟩
    dsimp only
    split
    · exact (Ppu.write_inv hp v w.1).2.2.2.of_keeps rfl rfl rfl rfl
    · exact hp.of_keeps rfl rfl rfl rfl
  · exact h

theorem Apu.restart_left (a : Apu) : a.dmcRestart.dmcLeft ≤ 4081 := by
  have := (a.reg 0x13).isLt
  simp only [Apu.dmcRestart]; omega

theorem Apu.write_inv {a : Apu} (h : a.Inv) {k : Nat} (hk : k < 0x18) (v : Byte) :
    (({ a with regs := a.regs.write k v } : Apu).afterWrite k v).Inv := by
  have hw : ({ a with regs := a.regs.write k v } : Apu).Inv :=
    ⟨Memory.write_wf h.regs_wf k v, Memory.write_keysIn h.regs_keys (by simpa using hk) v, h.dmcLeft⟩
  generalize ({ a with regs := a.regs.write k v } : Apu) = a' at hw
  unfold Apu.afterWrite
  split
  · unfold Apu.dmcEnabledBy
    split
    · split
      · exact ⟨hw.regs_wf, hw.regs_keys, Apu.restart_left a'⟩
      · exact ⟨hw.regs_wf, hw.regs_keys, hw.dmcLeft⟩
    · exact ⟨hw.regs_wf, hw.regs_keys, Nat.zero_le _⟩
  · exact ⟨hw.regs_wf, hw.regs_keys, hw.dmcLeft⟩
  · unfold Apu.loadLength
    split <;> exact ⟨hw.regs_wf, hw.regs_keys, hw.dmcLeft⟩

theorem Bus.writeIo_inv (h : b.Inv) (k : Nat) (v : Byte) : (b.writeIo k v).Inv := by
  unfold Bus.writeIo
  split
  · exact ⟨h.mem_wf, h.mem_keys, Nat.zero_le _, h.pad1, h.pad2, h.ppu, h.apu⟩
  · split
    · exact ⟨h.mem_wf, h.mem_keys, h.dma, h.pad1, h.pad2, h.ppu, h.apu⟩
    · split
      · rename_i hk
        exact ⟨h.mem_wf, h.mem_keys, h.dma, h.pad1, h.pad2, h.ppu, Apu.write_inv h.apu hk v⟩
      · exact h

/-- A write keeps the invariant. -/
theorem Bus.write_inv (h : b.Inv) (a : Addr) (v : Byte) : (b.write a v).Inv := by
  by_cases hd : a.toNat < 0x2000 ∨ 0x4020 ≤ a.toNat
  · have hrest : (b.write a v).dma = b.dma ∧ (b.write a v).pad1 = b.pad1 ∧ (b.write a v).pad2 = b.pad2 ∧
        (b.write a v).ppu = b.ppu ∧ (b.write a v).apu = b.apu := by
      unfold Bus.write
      split
      · simp
      · rw [if_neg (by omega), if_neg (by omega)]
        unfold Bus.writeCart
        split <;> simp
    obtain ⟨h1, h2, h3, h4, h5⟩ := hrest
    obtain hm | ⟨k, hk, hm⟩ := b.write_mem a v
    · exact ⟨hm ▸ h.mem_wf, hm ▸ h.mem_keys, h1 ▸ h.dma, h2 ▸ h.pad1, h3 ▸ h.pad2, h4 ▸ h.ppu, h5 ▸ h.apu⟩
    · exact ⟨hm ▸ Memory.write_wf h.mem_wf k v, hm ▸ Memory.write_keysIn h.mem_keys (storageKey_cell b hk) v,
        h1 ▸ h.dma, h2 ▸ h.pad1, h3 ▸ h.pad2, h4 ▸ h.ppu, h5 ▸ h.apu⟩
  · unfold Bus.write
    rw [if_neg (by omega)]
    split
    · exact Bus.writePpu_inv h _ v
    · rw [if_pos (by omega)]
      exact Bus.writeIo_inv h _ v

/-- A DMA half-cycle keeps the invariant while the index is below its end. -/
theorem Bus.dmaStep_inv (h : b.Inv) : b.dmaStep.Inv := by
  have hr := fun a => Bus.read_inv h a
  have hw := fun a v => Bus.write_inv h a v
  have hdma : ∀ a v, (b.write a v).dma.index ≤ 512 := fun a v => (hw a v).dma
  unfold Bus.dmaStep
  split
  · exact ⟨h.mem_wf, h.mem_keys, h.dma, h.pad1, h.pad2, h.ppu, h.apu⟩
  · dsimp only
    split
    · split
      · exact ⟨h.mem_wf, h.mem_keys, Nat.zero_le _, h.pad1, h.pad2, h.ppu, h.apu⟩
      · rename_i h0 _
        exact ⟨h.mem_wf, h.mem_keys, by simp [h0], h.pad1, h.pad2, h.ppu, h.apu⟩
    · split
      · have hx := hr (BitVec.ofNat 16 (b.dma.page.toNat * 256 + (b.dma.index - 1) / 2))
        have hi : (b.read (BitVec.ofNat 16 (b.dma.page.toNat * 256 + (b.dma.index - 1) / 2))).2.dma = b.dma := by simp
        split
        · exact ⟨hx.mem_wf, hx.mem_keys, Nat.zero_le _, hx.pad1, hx.pad2, hx.ppu, hx.apu⟩
        · rename_i hne
          refine ⟨hx.mem_wf, hx.mem_keys, ?_, hx.pad1, hx.pad2, hx.ppu, hx.apu⟩
          have := h.dma
          simp only [hi] at hne ⊢
          omega
      · have hx := hw 0x2004#16 b.dma.latch
        split
        · exact ⟨hx.mem_wf, hx.mem_keys, Nat.zero_le _, hx.pad1, hx.pad2, hx.ppu, hx.apu⟩
        · rename_i hne
          refine ⟨hx.mem_wf, hx.mem_keys, ?_, hx.pad1, hx.pad2, hx.ppu, hx.apu⟩
          have := hx.dma
          dsimp only
          omega

theorem Bus.dmcAdvance_inv (h : b.Inv) : b.dmcAdvance.Inv := by
  have ha := h.apu
  have hl : b.apu.dmcLeft - 1 ≤ 4081 := by have := ha.dmcLeft; omega
  unfold Bus.dmcAdvance
  dsimp only
  split
  · split
    · exact ⟨h.mem_wf, h.mem_keys, h.dma, h.pad1, h.pad2, h.ppu, ⟨ha.regs_wf, ha.regs_keys, Apu.restart_left _⟩⟩
    · exact ⟨h.mem_wf, h.mem_keys, h.dma, h.pad1, h.pad2, h.ppu, ⟨ha.regs_wf, ha.regs_keys, hl⟩⟩
  · exact ⟨h.mem_wf, h.mem_keys, h.dma, h.pad1, h.pad2, h.ppu, ⟨ha.regs_wf, ha.regs_keys, hl⟩⟩

theorem Bus.drawn_inv (h : b.Inv) : b.drawn.Inv := ⟨h.mem_wf, h.mem_keys, h.dma, h.pad1, h.pad2, h.ppu, h.apu⟩

/-- An APU cycle keeps the invariant. -/
theorem Bus.apuStep_inv (h : b.Inv) : b.apuStep.Inv := by
  have hf : b.frameTick.Inv :=
    ⟨h.mem_wf, h.mem_keys, h.dma, h.pad1, h.pad2, h.ppu, ⟨h.apu.regs_wf, h.apu.regs_keys, h.apu.dmcLeft⟩⟩
  unfold Bus.apuStep Bus.dmcTick
  split
  · exact hf
  · split
    · exact Bus.dmcAdvance_inv (Bus.read_inv (Bus.drawn_inv hf) _)
    · exact Bus.drawn_inv hf

/-- A PPU dot keeps the PPU's invariant. -/
theorem Ppu.dot_inv {p : Ppu} (h : p.Inv) : p.dotEvents.nextDot.Inv := by
  have he : p.dotEvents.Inv := by
    unfold Ppu.dotEvents
    dsimp only
    split <;> [skip; split] <;> exact h.of_keeps rfl rfl rfl rfl
  generalize p.dotEvents = q at he
  have hl : q.lastDot ≤ 340 := by unfold Ppu.lastDot; split <;> omega
  obtain ⟨h1, h2, h3, h4, h5, h6⟩ := he
  unfold Ppu.nextDot
  split
  · exact ⟨h1, h2, h3, h4, h5, by dsimp only; omega⟩
  · split
    · exact ⟨h1, h2, h3, h4, by dsimp only; omega, Nat.zero_le _⟩
    · exact ⟨h1, h2, h3, h4, Nat.zero_le _, Nat.zero_le _⟩

theorem Bus.mapperHook_inv (h : b.Inv) : b.mapperHook.Inv := by
  unfold Bus.mapperHook
  split
  · exact ⟨h.mem_wf, h.mem_keys, h.dma, h.pad1, h.pad2, h.ppu, h.apu⟩
  · exact h

theorem Bus.controllerLatchStep_inv (h : b.Inv) : b.controllerLatchStep.Inv := by
  unfold Bus.controllerLatchStep
  split
  · exact ⟨h.mem_wf, h.mem_keys, h.dma, Nat.le_refl _, Nat.le_refl _, h.ppu, h.apu⟩
  · exact h

end Sys2Proof.Machine
end

