-- ==== Sys2Proof/Laws/State.lean ====
section
/-! SUPPORT. What each update of the state leaves in each field: one lemma per field per update, so that no proof unfolds a
record update. -/

namespace Sys2Proof.Machine

variable (s : State)

/-- Two states are equal if their CPU records and their buses are. -/
theorem State.ext_parts {s t : State} (hcpu : s.cpu = t.cpu) (hbus : s.bus = t.bus) : s = t := by
  cases s; cases t; simp_all

/-! setA -/

@[simp] theorem State.setA_a (v : Byte) : (s.setA v).cpu.a = v := rfl
@[simp] theorem State.setA_x (v : Byte) : (s.setA v).cpu.x = s.cpu.x := rfl
@[simp] theorem State.setA_y (v : Byte) : (s.setA v).cpu.y = s.cpu.y := rfl
@[simp] theorem State.setA_sp (v : Byte) : (s.setA v).cpu.sp = s.cpu.sp := rfl
@[simp] theorem State.setA_pc (v : Byte) : (s.setA v).cpu.pc = s.cpu.pc := rfl
@[simp] theorem State.setA_flags (v : Byte) : (s.setA v).cpu.flags = s.cpu.flags := rfl
@[simp] theorem State.setA_irqPending (v : Byte) : (s.setA v).cpu.irqPending = s.cpu.irqPending := rfl
@[simp] theorem State.setA_nmiPending (v : Byte) : (s.setA v).cpu.nmiPending = s.cpu.nmiPending := rfl
@[simp] theorem State.setA_cyclesLeft (v : Byte) : (s.setA v).cpu.cyclesLeft = s.cpu.cyclesLeft := rfl
@[simp] theorem State.setA_bus (v : Byte) : (s.setA v).bus = s.bus := rfl

/-! setX -/

@[simp] theorem State.setX_a (v : Byte) : (s.setX v).cpu.a = s.cpu.a := rfl
@[simp] theorem State.setX_x (v : Byte) : (s.setX v).cpu.x = v := rfl
@[simp] theorem State.setX_y (v : Byte) : (s.setX v).cpu.y = s.cpu.y := rfl
@[simp] theorem State.setX_sp (v : Byte) : (s.setX v).cpu.sp = s.cpu.sp := rfl
@[simp] theorem State.setX_pc (v : Byte) : (s.setX v).cpu.pc = s.cpu.pc := rfl
@[simp] theorem State.setX_flags (v : Byte) : (s.setX v).cpu.flags = s.cpu.flags := rfl
@[simp] theorem State.setX_irqPending (v : Byte) : (s.setX v).cpu.irqPending = s.cpu.irqPending := rfl
@[simp] theorem State.setX_nmiPending (v : Byte) : (s.setX v).cpu.nmiPending = s.cpu.nmiPending := rfl
@[simp] theorem State.setX_cyclesLeft (v : Byte) : (s.setX v).cpu.cyclesLeft = s.cpu.cyclesLeft := rfl
@[simp] theorem State.setX_bus (v : Byte) : (s.setX v).bus = s.bus := rfl

/-! setY -/

@[simp] theorem State.setY_a (v : Byte) : (s.setY v).cpu.a = s.cpu.a := rfl
@[simp] theorem State.setY_x (v : Byte) : (s.setY v).cpu.x = s.cpu.x := rfl
@[simp] theorem State.setY_y (v : Byte) : (s.setY v).cpu.y = v := rfl
@[simp] theorem State.setY_sp (v : Byte) : (s.setY v).cpu.sp = s.cpu.sp := rfl
@[simp] theorem State.setY_pc (v : Byte) : (s.setY v).cpu.pc = s.cpu.pc := rfl
@[simp] theorem State.setY_flags (v : Byte) : (s.setY v).cpu.flags = s.cpu.flags := rfl
@[simp] theorem State.setY_irqPending (v : Byte) : (s.setY v).cpu.irqPending = s.cpu.irqPending := rfl
@[simp] theorem State.setY_nmiPending (v : Byte) : (s.setY v).cpu.nmiPending = s.cpu.nmiPending := rfl
@[simp] theorem State.setY_cyclesLeft (v : Byte) : (s.setY v).cpu.cyclesLeft = s.cpu.cyclesLeft := rfl
@[simp] theorem State.setY_bus (v : Byte) : (s.setY v).bus = s.bus := rfl

/-! setSP -/

@[simp] theorem State.setSP_a (v : Byte) : (s.setSP v).cpu.a = s.cpu.a := rfl
@[simp] theorem State.setSP_x (v : Byte) : (s.setSP v).cpu.x = s.cpu.x := rfl
@[simp] theorem State.setSP_y (v : Byte) : (s.setSP v).cpu.y = s.cpu.y := rfl
@[simp] theorem State.setSP_sp (v : Byte) : (s.setSP v).cpu.sp = v := rfl
@[simp] theorem State.setSP_pc (v : Byte) : (s.setSP v).cpu.pc = s.cpu.pc := rfl
@[simp] theorem State.setSP_flags (v : Byte) : (s.setSP v).cpu.flags = s.cpu.flags := rfl
@[simp] theorem State.setSP_irqPending (v : Byte) : (s.setSP v).cpu.irqPending = s.cpu.irqPending := rfl
@[simp] theorem State.setSP_nmiPending (v : Byte) : (s.setSP v).cpu.nmiPending = s.cpu.nmiPending := rfl
@[simp] theorem State.setSP_cyclesLeft (v : Byte) : (s.setSP v).cpu.cyclesLeft = s.cpu.cyclesLeft := rfl
@[simp] theorem State.setSP_bus (v : Byte) : (s.setSP v).bus = s.bus := rfl

/-! setPC -/

@[simp] theorem State.setPC_a (v : Addr) : (s.setPC v).cpu.a = s.cpu.a := rfl
@[simp] theorem State.setPC_x (v : Addr) : (s.setPC v).cpu.x = s.cpu.x := rfl
@[simp] theorem State.setPC_y (v : Addr) : (s.setPC v).cpu.y = s.cpu.y := rfl
@[simp] theorem State.setPC_sp (v : Addr) : (s.setPC v).cpu.sp = s.cpu.sp := rfl
@[simp] theorem State.setPC_pc (v : Addr) : (s.setPC v).cpu.pc = v := rfl
@[simp] theorem State.setPC_flags (v : Addr) : (s.setPC v).cpu.flags = s.cpu.flags := rfl
@[simp] theorem State.setPC_irqPending (v : Addr) : (s.setPC v).cpu.irqPending = s.cpu.irqPending := rfl
@[simp] theorem State.setPC_nmiPending (v : Addr) : (s.setPC v).cpu.nmiPending = s.cpu.nmiPending := rfl
@[simp] theorem State.setPC_cyclesLeft (v : Addr) : (s.setPC v).cpu.cyclesLeft = s.cpu.cyclesLeft := rfl
@[simp] theorem State.setPC_bus (v : Addr) : (s.setPC v).bus = s.bus := rfl

/-! setFlags -/

@[simp] theorem State.setFlags_a (v : Flags) : (s.setFlags v).cpu.a = s.cpu.a := rfl
@[simp] theorem State.setFlags_x (v : Flags) : (s.setFlags v).cpu.x = s.cpu.x := rfl
@[simp] theorem State.setFlags_y (v : Flags) : (s.setFlags v).cpu.y = s.cpu.y := rfl
@[simp] theorem State.setFlags_sp (v : Flags) : (s.setFlags v).cpu.sp = s.cpu.sp := rfl
@[simp] theorem State.setFlags_pc (v : Flags) : (s.setFlags v).cpu.pc = s.cpu.pc := rfl
@[simp] theorem State.setFlags_flags (v : Flags) : (s.setFlags v).cpu.flags = v := rfl
@[simp] theorem State.setFlags_irqPending (v : Flags) : (s.setFlags v).cpu.irqPending = s.cpu.irqPending := rfl
@[simp] theorem State.setFlags_nmiPending (v : Flags) : (s.setFlags v).cpu.nmiPending = s.cpu.nmiPending := rfl
@[simp] theorem State.setFlags_cyclesLeft (v : Flags) : (s.setFlags v).cpu.cyclesLeft = s.cpu.cyclesLeft := rfl
@[simp] theorem State.setFlags_bus (v : Flags) : (s.setFlags v).bus = s.bus := rfl

/-! setCycles -/

@[simp] theorem State.setCycles_a (v : Nat) : (s.setCycles v).cpu.a = s.cpu.a := rfl
@[simp] theorem State.setCycles_x (v : Nat) : (s.setCycles v).cpu.x = s.cpu.x := rfl
@[simp] theorem State.setCycles_y (v : Nat) : (s.setCycles v).cpu.y = s.cpu.y := rfl
@[simp] theorem State.setCycles_sp (v : Nat) : (s.setCycles v).cpu.sp = s.cpu.sp := rfl
@[simp] theorem State.setCycles_pc (v : Nat) : (s.setCycles v).cpu.pc = s.cpu.pc := rfl
@[simp] theorem State.setCycles_flags (v : Nat) : (s.setCycles v).cpu.flags = s.cpu.flags := rfl
@[simp] theorem State.setCycles_irqPending (v : Nat) : (s.setCycles v).cpu.irqPending = s.cpu.irqPending := rfl
@[simp] theorem State.setCycles_nmiPending (v : Nat) : (s.setCycles v).cpu.nmiPending = s.cpu.nmiPending := rfl
@[simp] theorem State.setCycles_cyclesLeft (v : Nat) : (s.setCycles v).cpu.cyclesLeft = v := rfl
@[simp] theorem State.setCycles_bus (v : Nat) : (s.setCycles v).bus = s.bus := rfl

/-! setNZ and addCycles are setFlags and setCycles. -/

theorem State.setNZ_eq (v : Byte) : s.setNZ v = s.setFlags (s.cpu.flags.setNZ v) := rfl

theorem State.addCycles_eq (n : Nat) : s.addCycles n = s.setCycles (s.cpu.cyclesLeft + n) := rfl

@[simp] theorem State.setNZ_a (v : Byte) : (s.setNZ v).cpu.a = s.cpu.a := rfl
@[simp] theorem State.setNZ_x (v : Byte) : (s.setNZ v).cpu.x = s.cpu.x := rfl
@[simp] theorem State.setNZ_y (v : Byte) : (s.setNZ v).cpu.y = s.cpu.y := rfl
@[simp] theorem State.setNZ_sp (v : Byte) : (s.setNZ v).cpu.sp = s.cpu.sp := rfl
@[simp] theorem State.setNZ_pc (v : Byte) : (s.setNZ v).cpu.pc = s.cpu.pc := rfl
@[simp] theorem State.setNZ_flags (v : Byte) : (s.setNZ v).cpu.flags = s.cpu.flags.setNZ v := rfl
@[simp] theorem State.setNZ_irqPending (v : Byte) : (s.setNZ v).cpu.irqPending = s.cpu.irqPending := rfl
@[simp] theorem State.setNZ_nmiPending (v : Byte) : (s.setNZ v).cpu.nmiPending = s.cpu.nmiPending := rfl
@[simp] theorem State.setNZ_cyclesLeft (v : Byte) : (s.setNZ v).cpu.cyclesLeft = s.cpu.cyclesLeft := rfl
@[simp] theorem State.setNZ_bus (v : Byte) : (s.setNZ v).bus = s.bus := rfl

@[simp] theorem State.addCycles_a (n : Nat) : (s.addCycles n).cpu.a = s.cpu.a := rfl
@[simp] theorem State.addCycles_x (n : Nat) : (s.addCycles n).cpu.x = s.cpu.x := rfl
@[simp] theorem State.addCycles_y (n : Nat) : (s.addCycles n).cpu.y = s.cpu.y := rfl
@[simp] theorem State.addCycles_sp (n : Nat) : (s.addCycles n).cpu.sp = s.cpu.sp := rfl
@[simp] theorem State.addCycles_pc (n : Nat) : (s.addCycles n).cpu.pc = s.cpu.pc := rfl
@[simp] theorem State.addCycles_flags (n : Nat) : (s.addCycles n).cpu.flags = s.cpu.flags := rfl
@[simp] theorem State.addCycles_irqPending (n : Nat) : (s.addCycles n).cpu.irqPending = s.cpu.irqPending := rfl
@[simp] theorem State.addCycles_nmiPending (n : Nat) : (s.addCycles n).cpu.nmiPending = s.cpu.nmiPending := rfl
@[simp] theorem State.addCycles_cyclesLeft (n : Nat) : (s.addCycles n).cpu.cyclesLeft = s.cpu.cyclesLeft + n := rfl
@[simp] theorem State.addCycles_bus (n : Nat) : (s.addCycles n).bus = s.bus := rfl

/-! setIrqOpen -/

@[simp] theorem State.setIrqOpen_cpu (b : Bool) : (s.setIrqOpen b).cpu = s.cpu := rfl
@[simp] theorem State.setIrqOpen_irqOpen (b : Bool) : (s.setIrqOpen b).bus.irqOpen = b := rfl
@[simp] theorem State.setIrqOpen_mem (b : Bool) : (s.setIrqOpen b).bus.mem = s.bus.mem := rfl
@[simp] theorem State.setIrqOpen_irq (b : Bool) : (s.setIrqOpen b).bus.irq = s.bus.irq := rfl
@[simp] theorem State.setIrqOpen_dma (b : Bool) : (s.setIrqOpen b).bus.dma = s.bus.dma := rfl
@[simp] theorem State.setIrqOpen_strobe (b : Bool) : (s.setIrqOpen b).bus.strobe = s.bus.strobe := rfl
@[simp] theorem State.setIrqOpen_pad1 (b : Bool) : (s.setIrqOpen b).bus.pad1 = s.bus.pad1 := rfl
@[simp] theorem State.setIrqOpen_pad2 (b : Bool) : (s.setIrqOpen b).bus.pad2 = s.bus.pad2 := rfl
@[simp] theorem State.setIrqOpen_ppu (b : Bool) : (s.setIrqOpen b).bus.ppu = s.bus.ppu := rfl
@[simp] theorem State.setIrqOpen_apu (b : Bool) : (s.setIrqOpen b).bus.apu = s.bus.apu := rfl
@[simp] theorem State.setIrqOpen_cart (b : Bool) : (s.setIrqOpen b).bus.cart = s.bus.cart := rfl
@[simp] theorem State.setIrqOpen_params (b : Bool) : (s.setIrqOpen b).bus.params = s.bus.params := rfl
@[simp] theorem State.setIrqOpen_sysCycles (b : Bool) : (s.setIrqOpen b).bus.sysCycles = s.bus.sysCycles := rfl
@[simp] theorem State.setIrqOpen_draws (b : Bool) : (s.setIrqOpen b).bus.draws = s.bus.draws := rfl

/-! Reads and writes of memory are the bus's, and keep the CPU record. -/

@[simp] theorem State.memRead_fst (a : Addr) : (s.memRead a).1 = (s.bus.read a).1 := rfl
@[simp] theorem State.memRead_cpu (a : Addr) : (s.memRead a).2.cpu = s.cpu := rfl
@[simp] theorem State.memRead_bus (a : Addr) : (s.memRead a).2.bus = (s.bus.read a).2 := rfl
@[simp] theorem State.memWrite_cpu (a : Addr) (v : Byte) : (s.memWrite a v).cpu = s.cpu := rfl
@[simp] theorem State.memWrite_bus (a : Addr) (v : Byte) : (s.memWrite a v).bus = s.bus.write a v := rfl

/-! Flags. -/

variable (f : Flags)

@[simp] theorem Flags.setNZ_n (v : Byte) : (f.setNZ v).n = v.getLsbD 7 := rfl
@[simp] theorem Flags.setNZ_z (v : Byte) : (f.setNZ v).z = (v == 0#8) := rfl
@[simp] theorem Flags.setNZ_v (v : Byte) : (f.setNZ v).v = f.v := rfl
@[simp] theorem Flags.setNZ_d (v : Byte) : (f.setNZ v).d = f.d := rfl
@[simp] theorem Flags.setNZ_i (v : Byte) : (f.setNZ v).i = f.i := rfl
@[simp] theorem Flags.setNZ_c (v : Byte) : (f.setNZ v).c = f.c := rfl

@[simp] theorem Flags.addWithCarry_d (a b : Byte) : (f.addWithCarry a b).2.d = f.d := rfl
@[simp] theorem Flags.addWithCarry_i (a b : Byte) : (f.addWithCarry a b).2.i = f.i := rfl
@[simp] theorem Flags.subWithBorrow_d (a b : Byte) : (f.subWithBorrow a b).2.d = f.d := rfl
@[simp] theorem Flags.subWithBorrow_i (a b : Byte) : (f.subWithBorrow a b).2.i = f.i := rfl
@[simp] theorem Flags.compare_v (a b : Byte) : (f.compare a b).v = f.v := rfl
@[simp] theorem Flags.compare_d (a b : Byte) : (f.compare a b).d = f.d := rfl
@[simp] theorem Flags.compare_i (a b : Byte) : (f.compare a b).i = f.i := rfl

/-- Each shift and rotate, INC and DEC write no flag but C. -/
def OnlyCarry (g : Byte → Flags → Byte × Flags) : Prop := ∀ v f, ∃ c, (g v f).2 = { f with c := c }

theorem shiftLeft_onlyCarry : OnlyCarry shiftLeft := fun _ _ => ⟨_, rfl⟩
theorem shiftRight_onlyCarry : OnlyCarry shiftRight := fun _ _ => ⟨_, rfl⟩
theorem rotateLeft_onlyCarry : OnlyCarry rotateLeft := fun _ _ => ⟨_, rfl⟩
theorem rotateRight_onlyCarry : OnlyCarry rotateRight := fun _ _ => ⟨_, rfl⟩
theorem incByte_onlyCarry : OnlyCarry incByte := fun _ f => ⟨f.c, rfl⟩
theorem decByte_onlyCarry : OnlyCarry decByte := fun _ f => ⟨f.c, rfl⟩

/-- The host's hard reset of the machine after reset is the machine after reset. -/
theorem reset_eq_hardReset : State.reset.resetTo true = State.reset := by decide

end Sys2Proof.Machine
end

