-- ==== Sys2Proof/Laws/Ops.lean ====
section
/-! SUPPORT. One lemma per shared operation that says everything it does: the CPU record and the bus it leaves. Provers cite
these and unfold nothing. -/

namespace Sys2Proof.Machine

variable (s : State)

/-! Chains of reads. -/

theorem Bus.ReadKeeps.trans {b c d : Bus} (h : b.ReadKeeps c) (k : c.ReadKeeps d) : b.ReadKeeps d := by
  constructor
  · rw [k.mem, h.mem]
  · rw [k.dma, h.dma]
  · rw [k.strobe, h.strobe]
  · rw [k.cart, h.cart]
  · rw [k.params, h.params]
  · rw [k.sysCycles, h.sysCycles]
  · rw [k.irqOpen, h.irqOpen]
  · rw [k.apu, h.apu]
  · rw [k.mapperIrq, h.mapperIrq]
  · rw [k.dmcIrq, h.dmcIrq]
  · rw [k.oam, h.oam]
  · rw [k.palette, h.palette]
  · rw [k.ctrl, h.ctrl]
  · rw [k.scanline, h.scanline]
  · rw [k.dot, h.dot]

theorem Bus.ReadKeeps.peek {b c : Bus} (h : b.ReadKeeps c) (x : Addr) : c.peek x = b.peek x := Bus.peek_congr h.mem h.cart x

theorem Bus.ReadKeeps.cell {b c : Bus} (h : b.ReadKeeps c) (x : Addr) : c.cell x = b.cell x := Bus.cell_congr h.cart x

/-! Words and their bytes. -/

@[simp] theorem loByte_word (l h : Byte) : loByte (word l h) = l := by
  unfold loByte word
  exact BitVec.extractLsb'_append_eq_right

@[simp] theorem hiByte_word (l h : Byte) : hiByte (word l h) = h := by
  unfold hiByte word
  exact BitVec.extractLsb'_append_eq_left

@[simp] theorem word_loByte_hiByte (w : Addr) : word (loByte w) (hiByte w) = w := by
  unfold word loByte hiByte
  exact BitVec.extractLsb'_append_extractLsb'_eq_extractLsb' (by decide) |>.trans (by simp)

@[simp] theorem otherPage_self (a : Addr) : otherPage a a = false := by simp [otherPage]

/-! Memory and stack operations. -/

/-- Two reads, low byte first. -/
theorem State.read16_eq (a : Addr) : s.read16 a =
    (word (s.bus.read a).1 ((s.bus.read a).2.read (a + 1)).1, { s with bus := ((s.bus.read a).2.read (a + 1)).2 }) := rfl

theorem State.fetchByte_eq : s.fetchByte =
    ((s.bus.read s.cpu.pc).1, { cpu := { s.cpu with pc := s.cpu.pc + 1 }, bus := (s.bus.read s.cpu.pc).2 }) := rfl

theorem State.push_eq (v : Byte) : s.push v =
    { cpu := { s.cpu with sp := s.cpu.sp - 1 }, bus := s.bus.write (stackAddr s.cpu.sp) v } := rfl

theorem State.pull_eq : s.pull =
    ((s.bus.read (stackAddr (s.cpu.sp + 1))).1,
      { cpu := { s.cpu with sp := s.cpu.sp + 1 }, bus := (s.bus.read (stackAddr (s.cpu.sp + 1))).2 }) := rfl

/-- A stack address is in working RAM. -/
theorem stackAddr_lt (sp : Byte) : (stackAddr sp).toNat < 0x2000 := by
  have h : ∀ x : Byte, (stackAddr x).toNat < 0x2000 := by decide
  exact h sp

/-- A zero-page address is in working RAM. -/
theorem zeroPage_lt (b : Byte) : (zeroPage b).toNat < 0x2000 := by
  have h : ∀ x : Byte, (zeroPage x).toNat < 0x2000 := by decide
  exact h b

/-- Different stack pointers name different bytes of working RAM. -/
theorem ramIndex_stackAddr (sp : Byte) : ramIndex (stackAddr sp) = 0x100 + sp.toNat := by
  have h : ∀ x : Byte, ramIndex (stackAddr x) = 0x100 + x.toNat := by decide
  exact h sp

/-- A pull is a storage read: the bus does not change. -/
theorem State.pull_ram : s.pull =
    (s.bus.mem.read (0x100 + (s.cpu.sp + 1).toNat), { s with cpu := { s.cpu with sp := s.cpu.sp + 1 } }) := by
  rw [State.pull_eq, Bus.read_of_cell (Bus.cell_ram s.bus (stackAddr_lt _)), ramIndex_stackAddr]

/-- Everything entering a handler does: the three pushes, I, the vector. -/
theorem State.enterHandler_eq (ret vector : Addr) (b : Bool) : s.enterHandler ret vector b =
    let pushed := ((s.push (hiByte ret)).push (loByte ret)).push (s.cpu.flags.statusByte b)
    let lo := pushed.bus.read vector
    let hi := lo.2.read (vector + 1)
    { cpu := { s.cpu with
        sp := s.cpu.sp - 1 - 1 - 1
        flags := { s.cpu.flags with i := true }
        pc := word lo.1 hi.1 }
      bus := hi.2 } := rfl

/-! The resolver and the operand operations. -/

@[simp] theorem State.resolve_cpu (m : Mem) : (s.resolve m).2.cpu = s.cpu := by cases m <;> rfl

theorem State.resolve_setCycles (n : Nat) (m : Mem) :
    (s.setCycles n).resolve m = ((s.resolve m).1, (s.resolve m).2.setCycles n) := by cases m <;> rfl

theorem State.resolve_setSP (v : Byte) (m : Mem) :
    (s.setSP v).resolve m = ((s.resolve m).1, (s.resolve m).2.setSP v) := by cases m <;> rfl

/-- The resolver's pointer reads are reads of page zero, hence of storage: they change nothing at all. -/
theorem State.resolve_bus (m : Mem) : (s.resolve m).2.bus = s.bus := by
  have h : ∀ (b : Bus) (p : Byte), (b.read (zeroPage p)).2 = b := fun b p => by
    rw [Bus.read_of_cell (Bus.cell_ram b (zeroPage_lt p))]
  cases m <;> first
    | rfl
    | (simp only [State.resolve, State.zeroPagePointer, State.memRead, h])

/-- Resolving an operand leaves the state as it is. -/
theorem State.resolve_snd (m : Mem) : (s.resolve m).2 = s :=
  State.ext_parts (s.resolve_cpu m) (s.resolve_bus m)

/-- Cycles owed for reading an operand: 2 for an immediate, else the form's base count and the page penalty. -/
def readCost (src : Src) (s : State) : Nat :=
  match src with
  | .imm _ => 2
  | .mem m => readCycles m + pagePenalty (.mem m) s

/-! The forms that cannot cross a page. -/

@[simp] theorem pagePenalty_imm (b : Byte) : pagePenalty (.imm b) s = 0 := rfl
@[simp] theorem pagePenalty_zp (b : Byte) : pagePenalty (.mem (.zp b)) s = 0 := by
  simp [pagePenalty, State.resolve, Resolved.crossed]
@[simp] theorem pagePenalty_zpx (b : Byte) : pagePenalty (.mem (.zpx b)) s = 0 := by
  simp [pagePenalty, State.resolve, Resolved.crossed]
@[simp] theorem pagePenalty_zpy (b : Byte) : pagePenalty (.mem (.zpy b)) s = 0 := by
  simp [pagePenalty, State.resolve, Resolved.crossed]
@[simp] theorem pagePenalty_abs (w : Addr) : pagePenalty (.mem (.abs w)) s = 0 := by
  simp [pagePenalty, State.resolve, Resolved.crossed]
@[simp] theorem pagePenalty_izx (b : Byte) : pagePenalty (.mem (.izx b)) s = 0 := by
  simp [pagePenalty, State.resolve, Resolved.crossed]

/-- Everything reading an operand does. -/
theorem State.readSrc_eq (src : Src) : s.readSrc src =
    (operandByte src s, { cpu := { s.cpu with cyclesLeft := readCost src s }, bus := busAfterOperand src s }) := by
  cases src with
  | imm b => rfl
  | mem m =>
    have e : s.readSrc (.mem m) =
        let r := (s.setCycles (readCycles m)).resolve m
        (if r.1.crossed then r.2.addCycles 1 else r.2).memRead r.1.ea := rfl
    rw [e, State.resolve_setCycles]
    simp only [operandByte, busAfterOperand, readCost, pagePenalty]
    cases hc : (s.resolve m).1.crossed <;> simp [State.memRead, State.addCycles, State.setCycles, State.resolve_snd]

/-- Everything a store does: one write, no flag. -/
theorem State.store_eq (m : Mem) (v : Byte) : s.store m v =
    { cpu := { s.cpu with cyclesLeft := storeCycles m }, bus := busAfterStore m v s } := by
  have e : s.store m v = (((s.setCycles (storeCycles m)).resolve m).2).memWrite ((s.setCycles (storeCycles m)).resolve m).1.ea v :=
    rfl
  rw [e, State.resolve_setCycles]
  simp [State.memWrite, State.setCycles, busAfterStore, State.resolve_snd]

/-- Everything a read-modify-write does: one read, one write at the same address, the flags `f` leaves. -/
theorem State.modify_eq (f : Byte → Flags → Byte × Flags) (m : Mem) : s.modify f m =
    let r := f (operandByte (.mem m) s) s.cpu.flags
    (r.1, { cpu := { s.cpu with flags := r.2, cyclesLeft := rmwCycles m }, bus := busAfterModify m r.1 s }) := by
  have e : s.modify f m =
      let r := (s.setCycles (rmwCycles m)).resolve m
      let v := r.2.memRead r.1.ea
      let w := f v.1 v.2.cpu.flags
      (w.1, (v.2.memWrite r.1.ea w.1).setFlags w.2) := rfl
  rw [e, State.resolve_setCycles]
  simp [State.memRead, State.memWrite, State.setCycles, State.setFlags, operandByte, busAfterModify, busAfterOperand,
    State.resolve_snd]

/-- Everything a branch does. -/
theorem State.branch_eq (cond : Bool) (off : Byte) : s.branch cond off =
    let t := s.cpu.pc + branchOffset off
    if cond then
      { s with cpu := { s.cpu with pc := t, cyclesLeft := if otherPage s.cpu.pc t then 4 else 3 } }
    else { s with cpu := { s.cpu with cyclesLeft := 2 } } := by
  cases cond with
  | false => rfl
  | true =>
    have e : s.branch true off =
        ((if otherPage s.cpu.pc (s.cpu.pc + branchOffset off) then ((s.setCycles 2).addCycles 1).addCycles 1
          else (s.setCycles 2).addCycles 1) : State).setPC (s.cpu.pc + branchOffset off) := rfl
    rw [e]
    dsimp only
    cases otherPage s.cpu.pc (s.cpu.pc + branchOffset off) <;> rfl

end Sys2Proof.Machine
end

