-- ==== Sys2Proof/Laws/Exec.lean ====
section
/-! SUPPORT. What any instruction can do to the bus: reads, and writes at the addresses `storesAt` names, in some order. And the
operations of the undocumented opcodes, said once. -/

namespace Sys2Proof.Machine

/-- `c` comes from `b` by reads, by writes at addresses in `w`, and, where there are such writes, by what BRK remembers (log 37). -/
inductive Bus.Touched (w : List Addr) (b : Bus) : Bus → Prop
  | same : Touched w b b
  | read {c : Bus} (h : Touched w b c) (a : Addr) : Touched w b (c.read a).2
  | write {c : Bus} (h : Touched w b c) {a : Addr} (ha : a ∈ w) (v : Byte) : Touched w b (c.write a v)
  | brk {c : Bus} (h : Touched w b c) (hw : w ≠ []) (o : Bool) : Touched w b { c with irqOpen := o }

/-- Everything resolving a read operand does: the base cycles and the page penalty. -/
theorem State.resolveRead_eq (s : State) (m : Mem) : s.resolveRead m =
    ((s.resolve m).1.ea, { s with cpu := { s.cpu with cyclesLeft := readCycles m + pagePenalty (.mem m) s } }) := by
  have e : s.resolveRead m =
      let r := (s.setCycles (readCycles m)).resolve m
      (r.1.ea, if r.1.crossed then r.2.addCycles 1 else r.2) := rfl
  rw [e, State.resolve_setCycles]
  simp only [pagePenalty]
  cases hc : (s.resolve m).1.crossed <;> simp [State.addCycles, State.setCycles, State.resolve_snd]

/-- Everything a degraded store opcode does: its base cycles. -/
theorem State.degraded_eq (s : State) (m : Mem) :
    s.degraded m = { s with cpu := { s.cpu with cyclesLeft := storeCycles m } } := by
  unfold State.degraded
  rw [State.resolve_setCycles, State.resolve_snd]
  rfl

/-- Everything an unstable store does in `nmos` mode: one write. -/
theorem State.storeUnstable_eq (s : State) (m : Mem) (src : Byte) : s.storeUnstable m src =
    { cpu := { s.cpu with cyclesLeft := storeCycles m }
      bus := s.bus.write (unstableAddr m (unstableByte m src s) s) (unstableByte m src s) } := by
  unfold State.storeUnstable
  rw [State.resolve_setCycles]
  simp only [State.resolve_snd]
  rfl

theorem unstableAddr_setSP (s : State) (m : Mem) (v sp : Byte) : unstableAddr m v (s.setSP sp) = unstableAddr m v s := by
  simp [unstableAddr, State.resolve_setSP]

theorem unstableByte_setSP (s : State) (m : Mem) (v sp : Byte) : unstableByte m v (s.setSP sp) = unstableByte m v s := by
  simp [unstableByte, State.resolve_setSP]

variable {s : State} {w : List Addr}

theorem Bus.Touched.of_operand (src : Src) : s.bus.Touched w (busAfterOperand src s) := by
  cases src with
  | imm b => exact .same
  | mem m =>
    simp only [busAfterOperand, State.resolve_snd]
    exact .read .same _

theorem Bus.Touched.of_store {m : Mem} (h : (s.resolve m).1.ea ∈ w) (v : Byte) : s.bus.Touched w (busAfterStore m v s) := by
  simp only [busAfterStore, State.resolve_snd]
  exact .write .same h v

theorem Bus.Touched.of_modify {m : Mem} (h : (s.resolve m).1.ea ∈ w) (v : Byte) : s.bus.Touched w (busAfterModify m v s) :=
  .write (.of_operand _) h v

/-- What every chain of reads and writes keeps. -/
theorem Bus.Touched.keeps {b c : Bus} (h : b.Touched w c) :
    c.cart = b.cart ∧ c.params = b.params ∧ c.sysCycles = b.sysCycles := by
  induction h with
  | same => exact ⟨rfl, rfl, rfl⟩
  | read _ a ih => simpa using ih
  | write _ _ v ih => simpa using ih
  | brk _ _ _ ih => exact ih

/-- It leaves every byte of storage whose cell is none of the written addresses'. -/
theorem Bus.Touched.peek {b c : Bus} (h : b.Touched w c) {x : Addr} (hx : ∀ a ∈ w, b.cell x ≠ b.cell a) :
    c.peek x = b.peek x := by
  induction h with
  | same => rfl
  | read _ a ih => simpa using ih
  | @write c h a ha v ih =>
    rw [Bus.peek_write_other c v, ih]
    rw [Bus.cell_congr h.keeps.1, Bus.cell_congr h.keeps.1]
    exact hx a ha
  | brk _ _ _ ih => exact ih

/-- It keeps the invariant. -/
theorem Bus.Touched.inv {b c : Bus} (h : b.Touched w c) (hb : b.Inv) : c.Inv := by
  induction h with
  | same => exact hb
  | read _ a ih => exact Bus.read_inv ih a
  | write _ _ v ih => exact Bus.write_inv ih _ v
  | brk _ _ _ ih => exact { ih with }

/-- With nothing written, it is a chain of reads. -/
theorem Bus.Touched.readKeeps {b c : Bus} (h : b.Touched [] c) : b.ReadKeeps c := by
  induction h with
  | same => exact .rfl b
  | read _ a ih => exact ih.trans (Bus.read_keeps _ a)
  | write _ ha => cases ha
  | brk _ hw _ _ => exact absurd rfl hw

/-! Cycle counts are small. -/

theorem pagePenalty_le (src : Src) (s : State) : pagePenalty src s ≤ 1 := by
  cases src with
  | imm _ => simp [pagePenalty]
  | mem m => simp only [pagePenalty]; split <;> omega

theorem readCost_range (src : Src) (s : State) : 2 ≤ readCost src s ∧ readCost src s ≤ 8 := by
  have := pagePenalty_le src s
  cases src with
  | imm _ => simp [readCost]
  | mem m => cases m <;> simp only [readCost, readCycles] <;> omega

theorem storeCycles_range (m : Mem) : 2 ≤ storeCycles m ∧ storeCycles m ≤ 8 := by cases m <;> simp [storeCycles]

theorem rmwCycles_range (m : Mem) : 2 ≤ rmwCycles m ∧ rmwCycles m ≤ 8 := by cases m <;> simp [rmwCycles]

/-! What every instruction does. -/

/-- `t` comes from `s` by reads and by writes at `w`, and owes 2 to 8 cycles. -/
structure State.Does (w : List Addr) (s t : State) : Prop where
  touched : s.bus.Touched w t.bus
  cycles  : 2 ≤ t.cpu.cyclesLeft ∧ t.cpu.cyclesLeft ≤ 8

namespace State.Does

theorem fit {n : Nat} (h : (Nat.ble 2 n && Nat.ble n 8) = true) : 2 ≤ n ∧ n ≤ 8 := by
  rw [Bool.and_eq_true] at h
  exact ⟨Nat.le_of_ble_eq_true h.1, Nat.le_of_ble_eq_true h.2⟩

theorem of_next {i : Instr} {t u : State} (h : exec i s = .next t) (e : exec i s = .next u) (d : Does w s u) : Does w s t :=
  Host.Outcome.next.inj (e.symm.trans h) ▸ d

theorem of_next' {t u : State} (h : Host.Outcome.next (φ := Fault) (ρ := Refusal) u = .next t) (d : Does w s u) : Does w s t :=
  Host.Outcome.next.inj h ▸ d

theorem same (c : Cpu) (h : 2 ≤ c.cyclesLeft ∧ c.cyclesLeft ≤ 8) : Does w s { cpu := c, bus := s.bus } := ⟨.same, h⟩

theorem of_bus {c : Cpu} {b : Bus} (hb : s.bus.Touched w b) (h : 2 ≤ c.cyclesLeft ∧ c.cyclesLeft ≤ 8) :
    Does w s { cpu := c, bus := b } := ⟨hb, h⟩

theorem read (src : Src) (c : Cpu) (h : c.cyclesLeft = readCost src s) :
    Does w s { cpu := c, bus := busAfterOperand src s } := ⟨.of_operand src, h ▸ readCost_range src s⟩

theorem store (m : Mem) (v : Byte) (c : Cpu) (h : c.cyclesLeft = storeCycles m) :
    Does [(s.resolve m).1.ea] s { cpu := c, bus := busAfterStore m v s } :=
  ⟨.of_store (by simp) v, h ▸ storeCycles_range m⟩

theorem modify (m : Mem) (v : Byte) (c : Cpu) (h : c.cyclesLeft = rmwCycles m) :
    Does [(s.resolve m).1.ea] s { cpu := c, bus := busAfterModify m v s } :=
  ⟨.of_modify (by simp) v, h ▸ rmwCycles_range m⟩

theorem branch {t : State} (cond : Bool) (off : Byte)
    (h : Host.Outcome.next (φ := Fault) (ρ := Refusal) (s.branch cond off) = .next t) : Does w s t := by
  rw [State.branch_eq] at h
  dsimp only at h
  split at h
  · exact of_next' h (same _ (by dsimp only; split <;> omega))
  · exact of_next' h (same _ (fit rfl))

theorem entry (n : Nat) (ret vector : Addr) (b : Bool) (h : 2 ≤ n ∧ n ≤ 8) :
    Does [stackAddr s.cpu.sp, stackAddr (s.cpu.sp - 1), stackAddr (s.cpu.sp - 2)] s
      ((s.setCycles n).enterHandler ret vector b) := by
  have e : s.cpu.sp - 1 - 1 = s.cpu.sp - 2 := by bv_omega
  simp only [State.enterHandler_eq, State.push_eq, State.setCycles, e]
  exact .of_bus (.read (.read (.write (.write (.write .same (by simp) _) (by simp) _) (by simp) _) _) _) h

theorem setIrqOpen {t : State} (d : Does w s t) (hw : w ≠ []) (b : Bool) : Does w s (t.setIrqOpen b) :=
  ⟨.brk d.touched hw b, d.cycles⟩

end State.Does

/-- What every instruction that gives a next state does: reads, writes where `storesAt` says, 2 to 8 cycles. -/
theorem exec_does {i : Instr} {t : State} (h : exec i s = .next t) : State.Does (storesAt i s) s t := by
  cases i
  case lda src => exact .of_next h (by simp only [exec, execLda, State.readSrc_eq]; rfl) (.read src _ rfl)
  case ldx src => exact .of_next h (by simp only [exec, execLdx, State.readSrc_eq]; rfl) (.read src _ rfl)
  case ldy src => exact .of_next h (by simp only [exec, execLdy, State.readSrc_eq]; rfl) (.read src _ rfl)
  case adc src => exact .of_next h (by simp only [exec, execAdc, State.readSrc_eq]; rfl) (.read src _ rfl)
  case sbc src => exact .of_next h (by simp only [exec, execSbc, State.readSrc_eq]; rfl) (.read src _ rfl)
  case and src => exact .of_next h (by simp only [exec, execAnd, State.readSrc_eq]; rfl) (.read src _ rfl)
  case ora src => exact .of_next h (by simp only [exec, execOra, State.readSrc_eq]; rfl) (.read src _ rfl)
  case eor src => exact .of_next h (by simp only [exec, execEor, State.readSrc_eq]; rfl) (.read src _ rfl)
  case cmp src => exact .of_next h (by simp only [exec, execCmp, State.readSrc_eq]; rfl) (.read src _ rfl)
  case cpx src => exact .of_next h (by simp only [exec, execCpx, State.readSrc_eq]; rfl) (.read src _ rfl)
  case cpy src => exact .of_next h (by simp only [exec, execCpy, State.readSrc_eq]; rfl) (.read src _ rfl)
  case bit m => exact .of_next h (by simp only [exec, execBit, State.readSrc_eq]; rfl) (.read (.mem m) _ rfl)
  case lax m => exact .of_next h (by simp only [exec, execLax, State.readSrc_eq]; rfl) (.read (.mem m) _ rfl)
  case las w => exact .of_next h (by simp only [exec, execLas, State.readSrc_eq]; rfl) (.read (.mem (.aby w)) _ rfl)
  case sta m => exact .of_next h (by simp only [exec, execSta, State.store_eq]; rfl) (.store m _ _ rfl)
  case stx m => exact .of_next h (by simp only [exec, execStx, State.store_eq]; rfl) (.store m _ _ rfl)
  case sty m => exact .of_next h (by simp only [exec, execSty, State.store_eq]; rfl) (.store m _ _ rfl)
  case sax m => exact .of_next h (by simp only [exec, execSax, State.store_eq]; rfl) (.store m _ _ rfl)
  case inc m => exact .of_next h (by simp only [exec, execInc, State.modify_eq]; rfl) (.modify m _ _ rfl)
  case dec m => exact .of_next h (by simp only [exec, execDec, State.modify_eq]; rfl) (.modify m _ _ rfl)
  case slo m => exact .of_next h (by simp only [exec, execSlo, State.modify_eq]; rfl) (.modify m _ _ rfl)
  case rla m => exact .of_next h (by simp only [exec, execRla, State.modify_eq]; rfl) (.modify m _ _ rfl)
  case sre m => exact .of_next h (by simp only [exec, execSre, State.modify_eq]; rfl) (.modify m _ _ rfl)
  case rra m => exact .of_next h (by simp only [exec, execRra, State.modify_eq]; rfl) (.modify m _ _ rfl)
  case dcp m => exact .of_next h (by simp only [exec, execDcp, State.modify_eq]; rfl) (.modify m _ _ rfl)
  case isc m => exact .of_next h (by simp only [exec, execIsc, State.modify_eq]; rfl) (.modify m _ _ rfl)
  case asl d =>
    cases d with
    | acc => exact .of_next h rfl (.same _ (by exact State.Does.fit rfl))
    | mem m => exact .of_next h (by simp only [exec, execAsl, State.shift, State.modify_eq]; rfl) (.modify m _ _ rfl)
  case lsr d =>
    cases d with
    | acc => exact .of_next h rfl (.same _ (by exact State.Does.fit rfl))
    | mem m => exact .of_next h (by simp only [exec, execLsr, State.shift, State.modify_eq]; rfl) (.modify m _ _ rfl)
  case rol d =>
    cases d with
    | acc => exact .of_next h rfl (.same _ (by exact State.Does.fit rfl))
    | mem m => exact .of_next h (by simp only [exec, execRol, State.shift, State.modify_eq]; rfl) (.modify m _ _ rfl)
  case ror d =>
    cases d with
    | acc => exact .of_next h rfl (.same _ (by exact State.Does.fit rfl))
    | mem m => exact .of_next h (by simp only [exec, execRor, State.shift, State.modify_eq]; rfl) (.modify m _ _ rfl)
  case bpl off => exact .branch _ off h
  case bmi off => exact .branch _ off h
  case bvc off => exact .branch _ off h
  case bvs off => exact .branch _ off h
  case bcc off => exact .branch _ off h
  case bcs off => exact .branch _ off h
  case bne off => exact .branch _ off h
  case beq off => exact .branch _ off h
  case jmp t =>
    cases t with
    | abs w => exact .of_next h rfl (.same _ (by exact State.Does.fit rfl))
    | ind w => exact .of_next h rfl (.of_bus (c := _) (b := ((s.bus.read w).2.read (word (loByte w + 1) (hiByte w))).2)
        (.read (.read .same _) _) (by exact State.Does.fit rfl))
  case jsr w =>
    show State.Does [stackAddr s.cpu.sp, stackAddr (s.cpu.sp - 1)] s t
    simp only [exec, execJsr, State.pushWord, State.push_eq, State.setCycles, State.setPC] at h
    exact .of_next' h (.of_bus (.write (.write .same (by simp) _) (by simp) _) (by exact State.Does.fit rfl))
  case rts =>
    simp only [exec, execRts, State.pullWord, State.pull_eq, State.setCycles, State.setPC] at h
    exact .of_next' h (.of_bus (.read (.read .same _) _) (by exact State.Does.fit rfl))
  case rti =>
    simp only [exec, execRti, State.leaveHandler, State.pullWord, State.pull_eq, State.setCycles, State.setPC, State.setFlags] at h
    exact .of_next' h (.of_bus (.read (.read (.read .same _) _) _) (by exact State.Does.fit rfl))
  case brk =>
    simp only [exec, execBrk] at h
    exact .of_next' h (.setIrqOpen (.entry 7 _ _ _ (by decide)) (List.cons_ne_nil _ _) _)
  case nmi =>
    simp only [exec, execNmi] at h
    exact .of_next' h (.entry 7 _ _ _ (by decide))
  case irq =>
    simp only [exec, execIrq] at h
    exact .of_next' h (.entry 7 _ _ _ (by decide))
  case pha =>
    show State.Does [stackAddr s.cpu.sp] s t
    simp only [exec, execPha, State.push_eq, State.setCycles] at h
    exact .of_next' h (.of_bus (.write .same (by simp) _) (by exact State.Does.fit rfl))
  case php =>
    show State.Does [stackAddr s.cpu.sp] s t
    simp only [exec, execPhp, State.push_eq, State.setCycles] at h
    exact .of_next' h (.of_bus (.write .same (by simp) _) (by exact State.Does.fit rfl))
  case pla =>
    simp only [exec, execPla, State.pull_eq, State.setCycles, State.setA, State.setNZ, State.setFlags] at h
    exact .of_next' h (.of_bus (.read .same _) (by exact State.Does.fit rfl))
  case plp =>
    simp only [exec, execPlp, State.pull_eq, State.setCycles, State.setFlags] at h
    exact .of_next' h (.of_bus (.read .same _) (by exact State.Does.fit rfl))
  case nopUndoc op arg =>
    cases arg with
    | imp => exact .of_next h rfl (.same _ (by exact State.Does.fit rfl))
    | imm b => exact .of_next h rfl (.same _ (by exact State.Does.fit rfl))
    | mem m => exact .of_next h (by simp only [exec, execNopUndoc, State.resolveRead_eq]; rfl) (.same _ (readCost_range (.mem m) s))
  case xaa b =>
    simp only [exec, execXaa] at h
    split at h <;> exact .of_next' h (.same _ (by exact State.Does.fit rfl))
  case lxa b =>
    simp only [exec, execLxa] at h
    split at h <;> exact .of_next' h (.same _ (by exact State.Does.fit rfl))
  case ahx m =>
    show State.Does (match s.bus.params.unstableOps with
      | .degraded => []
      | .nmos => [unstableAddr m (unstableByte m (s.cpu.a &&& s.cpu.x) s) s]) s t
    simp only [exec, execAhx, State.degraded_eq, State.storeUnstable_eq] at h
    cases mode : s.bus.params.unstableOps <;> simp only [mode] at h ⊢
    · exact .of_next' h (.of_bus .same (storeCycles_range m))
    · exact .of_next' h (.of_bus (.write .same (by simp) _) (storeCycles_range m))
  case tas w =>
    show State.Does (match s.bus.params.unstableOps with
      | .degraded => []
      | .nmos => [unstableAddr (.aby w) (unstableByte (.aby w) (s.cpu.a &&& s.cpu.x) s) s]) s t
    simp only [exec, execTas, State.degraded_eq, State.storeUnstable_eq, unstableAddr_setSP, unstableByte_setSP] at h
    cases mode : s.bus.params.unstableOps <;> simp only [mode] at h ⊢
    · exact .of_next' h (.of_bus .same (storeCycles_range (.aby w)))
    · exact .of_next' h (.of_bus (.write .same (by simp) _) (storeCycles_range (.aby w)))
  case shy w =>
    show State.Does (match s.bus.params.unstableOps with
      | .degraded => []
      | .nmos => [unstableAddr (.abx w) (unstableByte (.abx w) s.cpu.y s) s]) s t
    simp only [exec, execShy, State.degraded_eq, State.storeUnstable_eq] at h
    cases mode : s.bus.params.unstableOps <;> simp only [mode] at h ⊢
    · exact .of_next' h (.of_bus .same (storeCycles_range (.abx w)))
    · exact .of_next' h (.of_bus (.write .same (by simp) _) (storeCycles_range (.abx w)))
  case shx w =>
    show State.Does (match s.bus.params.unstableOps with
      | .degraded => []
      | .nmos => [unstableAddr (.aby w) (unstableByte (.aby w) s.cpu.x s) s]) s t
    simp only [exec, execShx, State.degraded_eq, State.storeUnstable_eq] at h
    cases mode : s.bus.params.unstableOps <;> simp only [mode] at h ⊢
    · exact .of_next' h (.of_bus .same (storeCycles_range (.aby w)))
    · exact .of_next' h (.of_bus (.write .same (by simp) _) (storeCycles_range (.aby w)))
  all_goals exact .of_next h rfl (.same _ (by exact State.Does.fit rfl))

end Sys2Proof.Machine
end

