-- ==== Sys2Proof/Laws/PerInstr.lean ====
section
/-! SUPPORT. The statements made for each instruction, by constructor. EncodedLength: a well-formed instruction that is no
pseudo-opcode has an encoding, and its length is one byte more than its operand's (R81). -/

namespace Sys2Proof.Laws.EncodedLength

/-- A well-formed instruction other than the two pseudo-opcodes is encoded in one opcode byte and its operand bytes (R80, R81). -/
def Statement (i : Instr) : Prop :=
  i.wf = true → i.isPseudo = false → ∃ bs, encode i = some bs ∧ bs.length = 1 + i.operandSize

theorem bytes_length (m : Mem) : m.bytes.length = m.size := by cases m <;> rfl

/-- A memory operand of an allowed form, with an opcode for every allowed form, has an encoding. -/
theorem encodeMem_length {fs : List Form} {ops : List (Form × Byte)} {m : Mem} (hm : m.hasForm fs = true)
    (hops : ∀ f ∈ fs, (ops.lookup f).isSome = true) : ∃ bs, encodeMem ops m = some bs ∧ bs.length = 1 + m.size := by
  obtain ⟨op, hop⟩ := Option.isSome_iff_exists.mp (hops m.form (by simpa [Mem.hasForm] using hm))
  exact ⟨op :: m.bytes, by simp [encodeMem, hop], by simp [bytes_length]; omega⟩

theorem encodeSrc_length {immOp : Byte} {fs : List Form} {ops : List (Form × Byte)} {src : Src}
    (hs : src.hasForm fs = true) (hops : ∀ f ∈ fs, (ops.lookup f).isSome = true) :
    ∃ bs, encodeSrc immOp ops src = some bs ∧ bs.length = 1 + src.size := by
  cases src with
  | imm b => exact ⟨_, rfl, rfl⟩
  | mem m => exact encodeMem_length hs hops

theorem encodeDst_length {accOp : Byte} {fs : List Form} {ops : List (Form × Byte)} {d : Dst}
    (hd : d.hasForm fs = true) (hops : ∀ f ∈ fs, (ops.lookup f).isSome = true) :
    ∃ bs, encodeDst accOp ops d = some bs ∧ bs.length = 1 + d.size := by
  cases d with
  | acc => exact ⟨_, rfl, rfl⟩
  | mem m => exact encodeMem_length hd hops

theorem lda (src : Src) : Statement (.lda src) := fun hw _ => encodeSrc_length hw (by decide)
theorem ldx (src : Src) : Statement (.ldx src) := fun hw _ => encodeSrc_length hw (by decide)
theorem ldy (src : Src) : Statement (.ldy src) := fun hw _ => encodeSrc_length hw (by decide)
theorem sta (m : Mem) : Statement (.sta m) := fun hw _ => encodeMem_length hw (by decide)
theorem stx (m : Mem) : Statement (.stx m) := fun hw _ => encodeMem_length hw (by decide)
theorem sty (m : Mem) : Statement (.sty m) := fun hw _ => encodeMem_length hw (by decide)
theorem tax : Statement .tax := fun _ _ => ⟨_, rfl, rfl⟩
theorem tay : Statement .tay := fun _ _ => ⟨_, rfl, rfl⟩
theorem txa : Statement .txa := fun _ _ => ⟨_, rfl, rfl⟩
theorem tya : Statement .tya := fun _ _ => ⟨_, rfl, rfl⟩
theorem tsx : Statement .tsx := fun _ _ => ⟨_, rfl, rfl⟩
theorem txs : Statement .txs := fun _ _ => ⟨_, rfl, rfl⟩
theorem adc (src : Src) : Statement (.adc src) := fun hw _ => encodeSrc_length hw (by decide)
theorem sbc (src : Src) : Statement (.sbc src) := fun hw _ => encodeSrc_length hw (by decide)
theorem and (src : Src) : Statement (.and src) := fun hw _ => encodeSrc_length hw (by decide)
theorem ora (src : Src) : Statement (.ora src) := fun hw _ => encodeSrc_length hw (by decide)
theorem eor (src : Src) : Statement (.eor src) := fun hw _ => encodeSrc_length hw (by decide)
theorem cmp (src : Src) : Statement (.cmp src) := fun hw _ => encodeSrc_length hw (by decide)
theorem cpx (src : Src) : Statement (.cpx src) := fun hw _ => encodeSrc_length hw (by decide)
theorem cpy (src : Src) : Statement (.cpy src) := fun hw _ => encodeSrc_length hw (by decide)
theorem bit (m : Mem) : Statement (.bit m) := fun hw _ => encodeMem_length hw (by decide)
theorem inc (m : Mem) : Statement (.inc m) := fun hw _ => encodeMem_length hw (by decide)
theorem dec (m : Mem) : Statement (.dec m) := fun hw _ => encodeMem_length hw (by decide)
theorem inx : Statement .inx := fun _ _ => ⟨_, rfl, rfl⟩
theorem iny : Statement .iny := fun _ _ => ⟨_, rfl, rfl⟩
theorem dex : Statement .dex := fun _ _ => ⟨_, rfl, rfl⟩
theorem dey : Statement .dey := fun _ _ => ⟨_, rfl, rfl⟩
theorem asl (d : Dst) : Statement (.asl d) := fun hw _ => encodeDst_length hw (by decide)
theorem lsr (d : Dst) : Statement (.lsr d) := fun hw _ => encodeDst_length hw (by decide)
theorem rol (d : Dst) : Statement (.rol d) := fun hw _ => encodeDst_length hw (by decide)
theorem ror (d : Dst) : Statement (.ror d) := fun hw _ => encodeDst_length hw (by decide)
theorem bpl (off : Byte) : Statement (.bpl off) := fun _ _ => ⟨_, rfl, rfl⟩
theorem bmi (off : Byte) : Statement (.bmi off) := fun _ _ => ⟨_, rfl, rfl⟩
theorem bvc (off : Byte) : Statement (.bvc off) := fun _ _ => ⟨_, rfl, rfl⟩
theorem bvs (off : Byte) : Statement (.bvs off) := fun _ _ => ⟨_, rfl, rfl⟩
theorem bcc (off : Byte) : Statement (.bcc off) := fun _ _ => ⟨_, rfl, rfl⟩
theorem bcs (off : Byte) : Statement (.bcs off) := fun _ _ => ⟨_, rfl, rfl⟩
theorem bne (off : Byte) : Statement (.bne off) := fun _ _ => ⟨_, rfl, rfl⟩
theorem beq (off : Byte) : Statement (.beq off) := fun _ _ => ⟨_, rfl, rfl⟩
theorem jmp (t : Target) : Statement (.jmp t) := fun _ _ => by cases t <;> exact ⟨_, rfl, rfl⟩
theorem jsr (w : Addr) : Statement (.jsr w) := fun _ _ => ⟨_, rfl, rfl⟩
theorem rts : Statement .rts := fun _ _ => ⟨_, rfl, rfl⟩
theorem brk : Statement .brk := fun _ _ => ⟨_, rfl, rfl⟩
theorem rti : Statement .rti := fun _ _ => ⟨_, rfl, rfl⟩
theorem pha : Statement .pha := fun _ _ => ⟨_, rfl, rfl⟩
theorem php : Statement .php := fun _ _ => ⟨_, rfl, rfl⟩
theorem pla : Statement .pla := fun _ _ => ⟨_, rfl, rfl⟩
theorem plp : Statement .plp := fun _ _ => ⟨_, rfl, rfl⟩
theorem clc : Statement .clc := fun _ _ => ⟨_, rfl, rfl⟩
theorem sec : Statement .sec := fun _ _ => ⟨_, rfl, rfl⟩
theorem cli : Statement .cli := fun _ _ => ⟨_, rfl, rfl⟩
theorem sei : Statement .sei := fun _ _ => ⟨_, rfl, rfl⟩
theorem cld : Statement .cld := fun _ _ => ⟨_, rfl, rfl⟩
theorem sed : Statement .sed := fun _ _ => ⟨_, rfl, rfl⟩
theorem clv : Statement .clv := fun _ _ => ⟨_, rfl, rfl⟩
theorem nop : Statement .nop := fun _ _ => ⟨_, rfl, rfl⟩
theorem slo (m : Mem) : Statement (.slo m) := fun hw _ => encodeMem_length hw (by decide)
theorem rla (m : Mem) : Statement (.rla m) := fun hw _ => encodeMem_length hw (by decide)
theorem sre (m : Mem) : Statement (.sre m) := fun hw _ => encodeMem_length hw (by decide)
theorem rra (m : Mem) : Statement (.rra m) := fun hw _ => encodeMem_length hw (by decide)
theorem sax (m : Mem) : Statement (.sax m) := fun hw _ => encodeMem_length hw (by decide)
theorem lax (m : Mem) : Statement (.lax m) := fun hw _ => encodeMem_length hw (by decide)
theorem dcp (m : Mem) : Statement (.dcp m) := fun hw _ => encodeMem_length hw (by decide)
theorem isc (m : Mem) : Statement (.isc m) := fun hw _ => encodeMem_length hw (by decide)
theorem anc (op : Byte) (b : Byte) : Statement (.anc op b) := fun hw _ => by
  replace hw : (op == 0x0B#8 || op == 0x2B#8) = true := hw
  simp only [encode, hw, if_true]
  exact ⟨_, rfl, rfl⟩
theorem alr (b : Byte) : Statement (.alr b) := fun _ _ => ⟨_, rfl, rfl⟩
theorem arr (b : Byte) : Statement (.arr b) := fun _ _ => ⟨_, rfl, rfl⟩
theorem axs (b : Byte) : Statement (.axs b) := fun _ _ => ⟨_, rfl, rfl⟩
theorem sbcUndoc (b : Byte) : Statement (.sbcUndoc b) := fun _ _ => ⟨_, rfl, rfl⟩
theorem nopUndoc (op : Byte) (arg : NopArg) : Statement (.nopUndoc op arg) := fun hw _ => by
  replace hw : (nopOpcodes arg).contains op = true := hw
  simp only [encode, hw, if_true]
  cases arg with
  | imp => exact ⟨_, rfl, rfl⟩
  | imm b => exact ⟨_, rfl, rfl⟩
  | mem m => exact ⟨_, rfl, by simp [Instr.operandSize, NopArg.size, bytes_length]; omega⟩
theorem kil (op : Byte) : Statement (.kil op) := fun hw _ => by
  replace hw : kilOpcodes.contains op = true := hw
  simp only [encode, hw, if_true]
  exact ⟨_, rfl, rfl⟩
theorem las (w : Addr) : Statement (.las w) := fun _ _ => ⟨_, rfl, rfl⟩
theorem xaa (b : Byte) : Statement (.xaa b) := fun _ _ => ⟨_, rfl, rfl⟩
theorem lxa (b : Byte) : Statement (.lxa b) := fun _ _ => ⟨_, rfl, rfl⟩
theorem ahx (m : Mem) : Statement (.ahx m) := fun hw _ => encodeMem_length hw (by decide)
theorem tas (w : Addr) : Statement (.tas w) := fun _ _ => ⟨_, rfl, rfl⟩
theorem shy (w : Addr) : Statement (.shy w) := fun _ _ => ⟨_, rfl, rfl⟩
theorem shx (w : Addr) : Statement (.shx w) := fun _ _ => ⟨_, rfl, rfl⟩
theorem nmi : Statement .nmi := fun _ hp => nomatch hp
theorem irq : Statement .irq := fun _ hp => nomatch hp

end Sys2Proof.Laws.EncodedLength
end

