-- ==== Sys2Proof/Laws/Step.lean ====
section
/-! SUPPORT. What the parts of a system cycle around the CPU can do (R257), the cycles an instruction still owes (R296), what a
boundary does (R254) and what a reset leaves behind the bus (R291). -/

namespace Sys2Proof.Machine

/-- What the devices' part of a system cycle keeps: the CPU record but for the NMI latch, which can only be set, and only with
NMI enabled; storage, the cartridge, DMA, the strobe, PPU control and OAM. -/
structure State.DevicesKeep (s t : State) : Prop where
  cpu    : t.cpu = { s.cpu with nmiPending := t.cpu.nmiPending }
  latch  : s.cpu.nmiPending = true → t.cpu.nmiPending = true
  nmiOff : s.bus.ppu.ctrl.getLsbD 7 = false → t.cpu.nmiPending = s.cpu.nmiPending
  mem    : t.bus.mem = s.bus.mem
  cart   : t.bus.cart = s.bus.cart
  params : t.bus.params = s.bus.params
  dma    : t.bus.dma = s.bus.dma
  strobe : t.bus.strobe = s.bus.strobe
  ctrl   : t.bus.ppu.ctrl = s.bus.ppu.ctrl
  oam    : t.bus.ppu.oam = s.bus.ppu.oam
  irqOpen : t.bus.irqOpen = s.bus.irqOpen

theorem State.DevicesKeep.trans {s t u : State} (h : s.DevicesKeep t) (k : t.DevicesKeep u) : s.DevicesKeep u where
  cpu := by rw [k.cpu, h.cpu]
  latch := fun q => k.latch (h.latch q)
  nmiOff := fun q => (k.nmiOff (h.ctrl ▸ q)).trans (h.nmiOff q)
  mem := k.mem.trans h.mem
  cart := k.cart.trans h.cart
  params := k.params.trans h.params
  dma := k.dma.trans h.dma
  strobe := k.strobe.trans h.strobe
  ctrl := k.ctrl.trans h.ctrl
  oam := k.oam.trans h.oam
  irqOpen := k.irqOpen.trans h.irqOpen

/-- The PPU's events and counters keep its control register and OAM. -/
theorem Ppu.dot_keeps (p : Ppu) : p.dotEvents.nextDot.ctrl = p.ctrl ∧ p.dotEvents.nextDot.oam = p.oam := by
  have he : p.dotEvents.ctrl = p.ctrl ∧ p.dotEvents.oam = p.oam := by
    unfold Ppu.dotEvents; dsimp only; split <;> [skip; split] <;> exact ⟨rfl, rfl⟩
  unfold Ppu.nextDot
  split <;> [skip; split] <;> exact he

/-- The mapper's hook changes the mapper's request and the draw counter alone. -/
theorem Bus.mapperHook_eq (b : Bus) : b.mapperHook = { b with draws := b.mapperHook.draws, irq := b.mapperHook.irq } := by
  unfold Bus.mapperHook; split <;> rfl

/-- The events of a dot move neither the position nor what the frame's length depends on. -/
theorem Ppu.dotEvents_position (p : Ppu) : p.dotEvents.scanline = p.scanline ∧ p.dotEvents.dot = p.dot ∧
    p.dotEvents.mask = p.mask ∧ p.dotEvents.oddFrame = p.oddFrame := by
  unfold Ppu.dotEvents; dsimp only; split <;> [skip; split] <;> exact ⟨rfl, rfl, rfl, rfl⟩

/-- A dot of the system cycle is a dot of the PPU. -/
theorem State.ppuDot_ppu (s : State) : s.ppuDot.bus.ppu = s.bus.ppu.dotEvents.nextDot := by
  show (Bus.mapperHook _).ppu = _
  rw [Bus.mapperHook_eq]

theorem State.ppuDot_keeps (s : State) : s.DevicesKeep s.ppuDot := by
  have hp := s.bus.ppu.dot_keeps
  have hb := Bus.mapperHook_eq { s.bus with ppu := s.bus.ppu.dotEvents.nextDot }
  have hn (h : s.bus.ppu.ctrl.getLsbD 7 = false) : s.bus.ppu.raisesNmi = false := by rw [Ppu.raisesNmi, h, Bool.and_false]
  unfold State.ppuDot
  constructor <;> rw [hb]
  · intro h; dsimp only; rw [h, Bool.true_or]
  · intro h; dsimp only; rw [hn h, Bool.or_false]
  · exact hp.1
  · exact hp.2

/-- The delta-modulation channel's advance changes the APU and the DMC request alone. -/
theorem Bus.dmcAdvance_eq (b : Bus) : b.dmcAdvance = { b with apu := b.dmcAdvance.apu, irq := b.dmcAdvance.irq } := by
  unfold Bus.dmcAdvance; dsimp only; split <;> [split; skip] <;> rfl

theorem State.apuStep_keeps (s : State) : s.DevicesKeep { s with bus := s.bus.apuStep } := by
  unfold Bus.apuStep Bus.dmcTick
  split <;> [skip; split]
  · constructor <;> first | rfl | exact id | exact fun _ => rfl
  · rw [Bus.dmcAdvance_eq]
    have k := Bus.read_keeps s.bus.frameTick.drawn s.bus.frameTick.apu.dmcAddr
    constructor <;> first | rfl | exact id | exact fun _ => rfl | skip
    · exact k.mem
    · exact k.cart
    · exact k.params
    · exact k.dma
    · exact k.strobe
    · exact k.ctrl
    · exact k.oam
    · exact k.irqOpen
  · constructor <;> first | rfl | exact id | exact fun _ => rfl

/-- The end of a system cycle: APU, three dots, the cycle count. -/
theorem State.endCycle_keeps (s : State) : s.DevicesKeep s.endCycle := by
  have h := (s.apuStep_keeps).trans ((State.ppuDot_keeps _).trans ((State.ppuDot_keeps _).trans (State.ppuDot_keeps _)))
  exact ⟨h.cpu, h.latch, h.nmiOff, h.mem, h.cart, h.params, h.dma, h.strobe, h.ctrl, h.oam, h.irqOpen⟩

/-- The controller latch step changes the two controllers alone. -/
theorem Bus.controllerLatchStep_eq (b : Bus) : b.controllerLatchStep =
    { b with pad1 := b.controllerLatchStep.pad1, pad2 := b.controllerLatchStep.pad2 } := by
  unfold Bus.controllerLatchStep; split <;> rfl

/-- A system cycle that finds cycles owed and no DMA only counts them down. -/
theorem step_owed {s : State} {n : Nat} (h : s.cpu.cyclesLeft = n + 1) (hd : s.bus.dma.active = false) :
    step s = .next (s.beginCycle.setCycles n).endCycle := by
  have hd' : s.beginCycle.bus.dma.active = false := by
    show s.bus.controllerLatchStep.dma.active = false
    rw [Bus.controllerLatchStep_eq]; exact hd
  have hc : s.beginCycle.cpu.cyclesLeft = n + 1 := h
  have hn : s.beginCycle.countDown = s.beginCycle.setCycles n := by unfold State.countDown; rw [hc]; rfl
  show mapNext State.endCycle (if s.beginCycle.bus.dma.active = true then _ else s.beginCycle.cpuStep) = _
  rw [hd', if_neg (by decide), State.cpuStep, hc, if_neg (Nat.succ_ne_zero n), hn]
  rfl

/-- What such a cycle keeps; the count is one lower and the IRQ level is that of the request flags. -/
theorem owed_keeps (s : State) (n : Nat) :
    let t := (s.beginCycle.setCycles n).endCycle
    t.cpu = { s.cpu with cyclesLeft := n, irqPending := s.bus.irq.asserted, nmiPending := t.cpu.nmiPending } ∧
      (s.cpu.nmiPending = true → t.cpu.nmiPending = true) ∧
      (s.bus.ppu.ctrl.getLsbD 7 = false → t.cpu.nmiPending = s.cpu.nmiPending) ∧
      t.bus.mem = s.bus.mem ∧ t.bus.cart = s.bus.cart ∧ t.bus.dma = s.bus.dma ∧ t.bus.ppu.ctrl = s.bus.ppu.ctrl ∧
      t.bus.irqOpen = s.bus.irqOpen := by
  have k := (s.beginCycle.setCycles n).endCycle_keeps
  have hb : (s.beginCycle.setCycles n).bus = s.bus.controllerLatchStep := rfl
  have e := Bus.controllerLatchStep_eq s.bus
  refine ⟨k.cpu, k.latch, fun h => k.nmiOff ?_, k.mem.trans ?_, k.cart.trans ?_, k.dma.trans ?_, k.ctrl.trans ?_,
    k.irqOpen.trans ?_⟩ <;>
    rw [hb, e]
  exact h

/-- A run whose first step answers `t` goes on from `t`. -/
theorem run_next {s t : State} (h : step s = .next t) (n : Nat) : Host.Core.run core (n + 1) s = Host.Core.run core n t := by
  have hc : core.step s = .next t := h
  simp only [Host.Core.run, hc]

/-- Paying the cycles owed: after as many system cycles the next one is a boundary, with the CPU record as it was but for the
two pending inputs. -/
theorem owed_run (n : Nat) : ∀ s : State, s.cpu.cyclesLeft = n → s.bus.dma.active = false →
    ∃ t, Host.Core.run core n s = .next t ∧
      t.cpu = { s.cpu with cyclesLeft := 0, irqPending := t.cpu.irqPending, nmiPending := t.cpu.nmiPending } ∧
      t.bus.dma.active = false ∧ t.bus.irqOpen = s.bus.irqOpen := by
  induction n with
  | zero => exact fun s h hd => ⟨s, rfl, by rw [← h], hd, rfl⟩
  | succ n ih =>
    intro s h hd
    have k := owed_keeps s n
    obtain ⟨t, ht, hc, hb, ho⟩ := ih (s.beginCycle.setCycles n).endCycle (by rw [k.1]) (by rw [k.2.2.2.2.2.1]; exact hd)
    exact ⟨t, (run_next (step_owed h hd) n).trans ht, by rw [hc, k.1], hb, ho.trans k.2.2.2.2.2.2.2⟩

/-- A system cycle at a boundary with no DMA active dispatches (R254, R296). -/
theorem step_boundary {s : State} (h : s.cpu.cyclesLeft = 0) (hd : s.bus.dma.active = false) :
    step s = mapNext (fun t => t.countDown.endCycle) s.beginCycle.dispatch := by
  have hd' : s.beginCycle.bus.dma.active = false := by
    show s.bus.controllerLatchStep.dma.active = false
    rw [Bus.controllerLatchStep_eq]; exact hd
  have hc : s.beginCycle.cpu.cyclesLeft = 0 := h
  show mapNext State.endCycle (if s.beginCycle.bus.dma.active = true then _ else s.beginCycle.cpuStep) = _
  rw [hd', if_neg (by decide), State.cpuStep, if_pos hc]
  cases s.beginCycle.dispatch <;> rfl

/-- With nothing open, I decides (R253). -/
theorem State.irqMasked_of (s : State) (h : s.bus.irqOpen = false) : s.irqMasked = s.cpu.flags.i := by
  rw [State.irqMasked, h, Bool.false_and, Bool.not_false, Bool.and_true]

/-- Where I is 0 nothing is masked. -/
theorem State.irqMasked_of_clear (s : State) (h : s.cpu.flags.i = false) : s.irqMasked = false := by
  rw [State.irqMasked, h, Bool.false_and]

theorem State.pastBrk_of (s : State) (h : s.bus.irqOpen = false) : s.pastBrk = s := by
  rw [State.pastBrk, h, if_neg Bool.false_ne_true]

/-- What passing the boundary after BRK changes. -/
theorem State.pastBrk_eq (s : State) : s.pastBrk =
    { s with bus := { s.bus with irqOpen := false, draws := if s.bus.irqOpen then s.bus.draws + 1 else s.bus.draws } } := by
  cases h : s.bus.irqOpen
  · rw [State.pastBrk_of s h, if_neg Bool.false_ne_true, ← h]
  · rw [State.pastBrk, if_pos h]; rfl

/-- A reset leaves the platform of R291 and, by its two reads of the vector, no more than draws. -/
theorem State.resetTo_bus (s : State) (hard : Bool) : ∃ d, (s.resetTo hard).bus = { s.bus.afterReset hard with draws := d } := by
  have h1 : ∃ d, ((s.bus.afterReset hard).read resetVector).2 = { s.bus.afterReset hard with draws := d } :=
    ⟨_, Bus.read_cartridge _ (by decide)⟩
  obtain ⟨d, h1⟩ := h1
  have h2 : ∃ d', (Bus.read (resetVector + 1) { s.bus.afterReset hard with draws := d }).2 =
      { s.bus.afterReset hard with draws := d' } := ⟨_, Bus.read_cartridge _ (by decide)⟩
  obtain ⟨d', h2⟩ := h2
  refine ⟨d', ?_⟩
  rw [← h2, ← h1]
  rfl

end Sys2Proof.Machine
end

