-- ==== Sys2Proof/Tests/Slice0.lean ====
section
/-! SUPPORT. The model's own tests. Expected results are those of spec/95_test_vectors.md (V and S numbers) or are worked by
hand from the rule named; none was taken from the model. Then, for every statement with hypotheses, a state and operands that
meet them together. -/

namespace Sys2Proof.Tests

open Sys2Proof Sys2Proof.Machine

/-! The start state of the vectors: code at 0x8000, SP = 0xFD, I set, at a boundary; unlisted memory 0x00. -/

/-- Memory with these cells. -/
def cells (cs : List (Nat × Byte)) : Memory := cs.foldl (fun m c => m.write c.1 c.2) []

/-- The start state with the CPU record changed and these cells in memory. -/
def start (f : Cpu → Cpu) (cs : List (Nat × Byte)) : State :=
  { cpu := f { Cpu.reset with pc := 0x8000#16, cyclesLeft := 0 }, bus := { Bus.reset with mem := cells cs } }

/-- The start state in `nmos` mode. -/
def startNmos (f : Cpu → Cpu) (cs : List (Nat × Byte)) : State :=
  let s := start f cs
  { s with bus := { s.bus with params := { s.bus.params with unstableOps := .nmos } } }

/-- Set the flags from a status byte. -/
def withP (p : Byte) (c : Cpu) : Cpu := { c with flags := loadStatus p }

/-- Decode bytes and run the instruction, PC past them. -/
def ran (bs : List Byte) (s : State) : Option State :=
  match decode bs with
  | .ok (i, _) => match exec i (s.setPC (s.cpu.pc + BitVec.ofNat 16 bs.length)) with
    | .next t => some t
    | _ => none
  | .error _ => none

/-- One system cycle. -/
def stepped (s : State) : Option State :=
  match step s with
  | .next t => some t
  | _ => none

/-- P as the trace prints it. -/
def p (s : State) : Byte := s.cpu.flags.statusByte false

/-! WellFormed: for each check, a term it refuses. -/

theorem test_wf_sevenForms : (Instr.lda (.mem (.zpy 0x10#8))).wf = false ∧ (Instr.sta (.zpy 0x10#8)).wf = false := by decide
theorem test_wf_ldx : (Instr.ldx (.mem (.zpx 0x10#8))).wf = false := by decide
theorem test_wf_ldy : (Instr.ldy (.mem (.aby 0x1234#16))).wf = false := by decide
theorem test_wf_cpx : (Instr.cpx (.mem (.abx 0x1234#16))).wf = false := by decide
theorem test_wf_stx : (Instr.stx (.zpx 0x10#8)).wf = false := by decide
theorem test_wf_sty : (Instr.sty (.zpy 0x10#8)).wf = false := by decide
theorem test_wf_bit : (Instr.bit (.zpx 0x10#8)).wf = false := by decide
theorem test_wf_inc : (Instr.inc (.aby 0x1234#16)).wf = false := by decide
theorem test_wf_shift : (Instr.asl (.mem (.izx 0x10#8))).wf = false := by decide
theorem test_wf_sax : (Instr.sax (.zpx 0x10#8)).wf = false := by decide
theorem test_wf_lax : (Instr.lax (.abx 0x1234#16)).wf = false := by decide
theorem test_wf_ahx : (Instr.ahx (.izx 0x10#8)).wf = false := by decide
theorem test_wf_anc : (Instr.anc 0x2C#8 0x00#8).wf = false := by decide
theorem test_wf_nopUndoc : (Instr.nopUndoc 0xEA#8 .imp).wf = false ∧ (Instr.nopUndoc 0x0C#8 (.mem (.zp 0x0C#8))).wf = false := by
  decide
theorem test_wf_kil : (Instr.kil 0x82#8).wf = false := by decide

/-! Decode: for every constructor, bytes written out from its rule's Encodings line. -/

theorem test_decode_load_store :
    decodeBytes [0xB1#8, 0x40#8] = some (.lda (.mem (.izy 0x40#8))) ∧
    decodeBytes [0xB6#8, 0xFE#8] = some (.ldx (.mem (.zpy 0xFE#8))) ∧
    decodeBytes [0xBC#8, 0x34#8, 0x12#8] = some (.ldy (.mem (.abx 0x1234#16))) ∧
    decodeBytes [0x81#8, 0x20#8] = some (.sta (.izx 0x20#8)) ∧
    decodeBytes [0x96#8, 0x20#8] = some (.stx (.zpy 0x20#8)) ∧
    decodeBytes [0x8C#8, 0x14#8, 0x40#8] = some (.sty (.abs 0x4014#16)) := by decide

theorem test_decode_transfer :
    decodeBytes [0xAA#8] = some .tax ∧ decodeBytes [0xA8#8] = some .tay ∧ decodeBytes [0x8A#8] = some .txa ∧
    decodeBytes [0x98#8] = some .tya ∧ decodeBytes [0xBA#8] = some .tsx ∧ decodeBytes [0x9A#8] = some .txs := by decide

theorem test_decode_arith :
    decodeBytes [0x7D#8, 0xFF#8, 0x02#8] = some (.adc (.mem (.abx 0x02FF#16))) ∧
    decodeBytes [0xF9#8, 0xFF#8, 0x02#8] = some (.sbc (.mem (.aby 0x02FF#16))) ∧
    decodeBytes [0x29#8, 0x0F#8] = some (.and (.imm 0x0F#8)) ∧
    decodeBytes [0x05#8, 0x0F#8] = some (.ora (.mem (.zp 0x0F#8))) ∧
    decodeBytes [0x55#8, 0x0F#8] = some (.eor (.mem (.zpx 0x0F#8))) ∧
    decodeBytes [0xC1#8, 0x0F#8] = some (.cmp (.mem (.izx 0x0F#8))) ∧
    decodeBytes [0xEC#8, 0x02#8, 0x20#8] = some (.cpx (.mem (.abs 0x2002#16))) ∧
    decodeBytes [0xC0#8, 0x20#8] = some (.cpy (.imm 0x20#8)) ∧
    decodeBytes [0x2C#8, 0x02#8, 0x20#8] = some (.bit (.abs 0x2002#16)) ∧
    decodeBytes [0xFE#8, 0x00#8, 0x03#8] = some (.inc (.abx 0x0300#16)) ∧
    decodeBytes [0xD6#8, 0x03#8] = some (.dec (.zpx 0x03#8)) ∧
    decodeBytes [0xE8#8] = some .inx ∧ decodeBytes [0xC8#8] = some .iny ∧
    decodeBytes [0xCA#8] = some .dex ∧ decodeBytes [0x88#8] = some .dey := by decide

theorem test_decode_shift :
    decodeBytes [0x0A#8] = some (.asl .acc) ∧ decodeBytes [0x5E#8, 0x01#8, 0x02#8] = some (.lsr (.mem (.abx 0x0201#16))) ∧
    decodeBytes [0x36#8, 0x10#8] = some (.rol (.mem (.zpx 0x10#8))) ∧
    decodeBytes [0x6E#8, 0x01#8, 0x02#8] = some (.ror (.mem (.abs 0x0201#16))) := by decide

theorem test_decode_control :
    decodeBytes [0x10#8, 0x02#8] = some (.bpl 0x02#8) ∧ decodeBytes [0x30#8, 0x02#8] = some (.bmi 0x02#8) ∧
    decodeBytes [0x50#8, 0x10#8] = some (.bvc 0x10#8) ∧ decodeBytes [0x70#8, 0xFE#8] = some (.bvs 0xFE#8) ∧
    decodeBytes [0x90#8, 0xFD#8] = some (.bcc 0xFD#8) ∧ decodeBytes [0xB0#8, 0x7F#8] = some (.bcs 0x7F#8) ∧
    decodeBytes [0xD0#8, 0xF9#8] = some (.bne 0xF9#8) ∧ decodeBytes [0xF0#8, 0x80#8] = some (.beq 0x80#8) ∧
    decodeBytes [0x4C#8, 0x05#8, 0x80#8] = some (.jmp (.abs 0x8005#16)) ∧
    decodeBytes [0x20#8, 0x0D#8, 0x80#8] = some (.jsr 0x800D#16) ∧
    decodeBytes [0x60#8] = some .rts ∧ decodeBytes [0x00#8] = some .brk ∧ decodeBytes [0x40#8] = some .rti := by decide

theorem test_decode_stack_flags :
    decodeBytes [0x48#8] = some .pha ∧ decodeBytes [0x08#8] = some .php ∧ decodeBytes [0x68#8] = some .pla ∧
    decodeBytes [0x28#8] = some .plp ∧ decodeBytes [0x18#8] = some .clc ∧ decodeBytes [0x38#8] = some .sec ∧
    decodeBytes [0x58#8] = some .cli ∧ decodeBytes [0x78#8] = some .sei ∧ decodeBytes [0xD8#8] = some .cld ∧
    decodeBytes [0xF8#8] = some .sed ∧ decodeBytes [0xB8#8] = some .clv ∧ decodeBytes [0xEA#8] = some .nop := by decide

theorem test_decode_undocumented_memory :
    decodeBytes [0x03#8, 0x10#8] = some (.slo (.izx 0x10#8)) ∧
    decodeBytes [0x3B#8, 0x34#8, 0x12#8] = some (.rla (.aby 0x1234#16)) ∧
    decodeBytes [0x5F#8, 0x34#8, 0x12#8] = some (.sre (.abx 0x1234#16)) ∧
    decodeBytes [0x73#8, 0x10#8] = some (.rra (.izy 0x10#8)) ∧
    decodeBytes [0x97#8, 0x10#8] = some (.sax (.zpy 0x10#8)) ∧
    decodeBytes [0xBF#8, 0x34#8, 0x12#8] = some (.lax (.aby 0x1234#16)) ∧
    decodeBytes [0xCF#8, 0x34#8, 0x12#8] = some (.dcp (.abs 0x1234#16)) ∧
    decodeBytes [0xF7#8, 0x10#8] = some (.isc (.zpx 0x10#8)) ∧
    decodeBytes [0xBB#8, 0x00#8, 0x02#8] = some (.las 0x0200#16) ∧
    decodeBytes [0x93#8, 0x40#8] = some (.ahx (.izy 0x40#8)) ∧
    decodeBytes [0x9B#8, 0x00#8, 0x02#8] = some (.tas 0x0200#16) ∧
    decodeBytes [0x9C#8, 0x00#8, 0x02#8] = some (.shy 0x0200#16) ∧
    decodeBytes [0x9E#8, 0x00#8, 0x02#8] = some (.shx 0x0200#16) := by decide

theorem test_decode_undocumented_other :
    decodeBytes [0x2B#8, 0x80#8] = some (.anc 0x2B#8 0x80#8) ∧ decodeBytes [0x4B#8, 0x03#8] = some (.alr 0x03#8) ∧
    decodeBytes [0x6B#8, 0xFF#8] = some (.arr 0xFF#8) ∧ decodeBytes [0xCB#8, 0x01#8] = some (.axs 0x01#8) ∧
    decodeBytes [0xEB#8, 0x05#8] = some (.sbcUndoc 0x05#8) ∧ decodeBytes [0x8B#8, 0xFF#8] = some (.xaa 0xFF#8) ∧
    decodeBytes [0xAB#8, 0xFF#8] = some (.lxa 0xFF#8) ∧ decodeBytes [0xF2#8] = some (.kil 0xF2#8) ∧
    decodeBytes [0x7A#8] = some (.nopUndoc 0x7A#8 .imp) ∧
    decodeBytes [0x89#8, 0x01#8] = some (.nopUndoc 0x89#8 (.imm 0x01#8)) ∧
    decodeBytes [0xFC#8, 0x34#8, 0x12#8] = some (.nopUndoc 0xFC#8 (.mem (.abx 0x1234#16))) := by decide

/-- A list that ends inside an instruction is refused by name. -/
theorem test_decode_short :
    decodeBytes [] = none ∧ decodeBytes [0xAD#8, 0x00#8] = none ∧ decodeBytes [0xA9#8] = none := by decide

/-- The table's bit numbering: the opcode in bits 7..0; the two pseudo-rows are no bytes (R101). -/
theorem test_decodeTableWord :
    decodeTableWord 24 0x6000AD = some (.lda (.mem (.abs 0x6000#16))) ∧ decodeTableWord 8 0xA9 = some (.lda (.imm 0x00#8)) ∧
    decodeTableWord 9 0x100 = some .nmi ∧ decodeTableWord 9 0x101 = some .irq := by decide

/-! Addressing (95, 2.1). -/

/-- V1: zero-page indexing wraps. -/
theorem test_lda_zpx_wraps : (ran [0xB5#8, 0xF0#8] (start (fun c => { c with x := 0x20#8 }) [(0x10, 0x7E#8)])).map
    (fun s => (s.cpu.a, s.cpu.cyclesLeft)) = some (0x7E#8, 4) := by decide

/-- V4: a page cross costs one more cycle. -/
theorem test_lda_izy_cross : (ran [0xB1#8, 0x40#8] (start (fun c => { c with y := 0x10#8 })
    [(0x40, 0xF8#8), (0x41, 0x12#8), (0x308, 0x99#8)])).map (fun s => (s.cpu.a, s.cpu.cyclesLeft)) = some (0x99#8, 6) := by
  decide

/-- V3: the pointer's high byte is read within page zero. -/
theorem test_resolve_izx_wraps : ((start (fun c => { c with x := 0x01#8 }) [(0x00, 0x34#8)]).resolve (.izx 0xFE#8)).1.ea
    = 0x3400#16 := by decide

/-- V11: an indexed word wraps modulo 2^16. -/
theorem test_resolve_aby_wraps : ((start (fun c => { c with y := 0x02#8 }) []).resolve (.aby 0xFFFF#16)).1.ea = 0x0001#16 := by
  decide

/-- V6: a store through (zp),Y never pays the penalty. -/
theorem test_sta_izy : (ran [0x91#8, 0x40#8] (start (fun c => { c with y := 0x10#8, a := 0x5A#8 })
    [(0x40, 0xF8#8), (0x41, 0x12#8)])).map (fun s => (s.bus.peek 0x1308#16, s.cpu.cyclesLeft)) = some (some 0x5A#8, 6) := by
  decide

/-! Loads, stores, transfers (95, 2.2). -/

/-- V17: stores write no flag. -/
theorem test_sta_abs : (ran [0x8D#8, 0x00#8, 0x60#8] (start (fun c => withP 0x82#8 { c with a := 0x42#8 }) [])).map
    (fun s => (s.bus.peek 0x6000#16, p s)) = some (some 0x42#8, 0xA2#8) := by decide

/-- V15. -/
theorem test_ldx_zp : (ran [0xA6#8, 0x10#8] (start id [(0x10, 0xFF#8)])).map (fun s => (s.cpu.x, p s)) = some (0xFF#8, 0xA4#8) := by
  decide

/-- R113: zero sets Z. -/
theorem test_ldy_zero : (ran [0xA0#8, 0x00#8] (start (fun c => { c with y := 0x01#8 }) [])).map (fun s => (s.cpu.y, p s))
    = some (0x00#8, 0x26#8) := by decide

/-- R115: the byte stored is X; Y indexes. -/
theorem test_stx_zpy : (ran [0x96#8, 0xFF#8] (start (fun c => { c with x := 0x11#8, y := 0x02#8 }) [])).map
    (fun s => s.bus.peek 0x0001#16) = some (some 0x11#8) := by decide

/-- V16. -/
theorem test_sty_zpx : (ran [0x94#8, 0x02#8] (start (fun c => { c with x := 0xFF#8, y := 0x01#8 }) [])).map
    (fun s => (s.bus.peek 0x0001#16, p s)) = some (some 0x01#8, 0x24#8) := by decide

/-- R117, R118: from A. -/
theorem test_tax : (ran [0xAA#8] (start (fun c => { c with a := 0x80#8 }) [])).map (fun s => (s.cpu.x, p s))
    = some (0x80#8, 0xA4#8) := by decide
theorem test_tay : (ran [0xA8#8] (start (fun c => { c with a := 0x01#8 }) [])).map (fun s => (s.cpu.y, p s))
    = some (0x01#8, 0x24#8) := by decide

/-- R119, R120: to A. -/
theorem test_txa : (ran [0x8A#8] (start (fun c => { c with x := 0x00#8, a := 0x09#8 }) [])).map (fun s => (s.cpu.a, p s))
    = some (0x00#8, 0x26#8) := by decide
theorem test_tya : (ran [0x98#8] (start (fun c => { c with y := 0xFE#8 }) [])).map (fun s => (s.cpu.a, p s))
    = some (0xFE#8, 0xA4#8) := by decide

/-- V18. -/
theorem test_tsx : (ran [0xBA#8] (start (fun c => { c with sp := 0x00#8, x := 0x05#8 }) [])).map (fun s => (s.cpu.x, p s))
    = some (0x00#8, 0x26#8) := by decide

/-- V19: TXS writes no flag. -/
theorem test_txs : (ran [0x9A#8] (start id [])).map (fun s => (s.cpu.sp, p s)) = some (0x00#8, 0x24#8) := by decide

/-! Arithmetic and logic (95, 2.3). -/

/-- V21: signed overflow. -/
theorem test_adc_overflow : (ran [0x69#8, 0x50#8] (start (fun c => { c with a := 0x50#8 }) [])).map (fun s => (s.cpu.a, p s))
    = some (0xA0#8, 0xE4#8) := by decide

/-- V32: D is ignored. -/
theorem test_adc_decimal : (ran [0x69#8, 0x01#8] (start (fun c => withP 0x0C#8 { c with a := 0x09#8 }) [])).map
    (fun s => (s.cpu.a, p s)) = some (0x0A#8, 0x2C#8) := by decide

/-- V29. -/
theorem test_sbc_overflow : (ran [0xE9#8, 0x01#8] (start (fun c => withP 0x05#8 { c with a := 0x80#8 }) [])).map
    (fun s => (s.cpu.a, p s)) = some (0x7F#8, 0x65#8) := by decide

/-- V30: the borrow. -/
theorem test_sbc_borrow : (ran [0xE9#8, 0x05#8] (start (fun c => { c with a := 0x05#8 }) [])).map (fun s => (s.cpu.a, p s))
    = some (0xFF#8, 0xA4#8) := by decide

/-- V42, V43, V44. -/
theorem test_and : (ran [0x29#8, 0x0F#8] (start (fun c => { c with a := 0xF0#8 }) [])).map (fun s => (s.cpu.a, p s))
    = some (0x00#8, 0x26#8) := by decide
theorem test_ora : (ran [0x09#8, 0x80#8] (start (fun c => { c with a := 0x01#8 }) [])).map (fun s => (s.cpu.a, p s))
    = some (0x81#8, 0xA4#8) := by decide
theorem test_eor : (ran [0x49#8, 0xFF#8] (start (fun c => { c with a := 0xFF#8 }) [])).map (fun s => (s.cpu.a, p s))
    = some (0x00#8, 0x26#8) := by decide

/-- V36, V37: the carry of a comparison is unsigned. -/
theorem test_cmp_below : (ran [0xC9#8, 0x80#8] (start id [])).map p = some 0xA4#8 := by decide
theorem test_cmp_above : (ran [0xC9#8, 0x00#8] (start (fun c => { c with a := 0x80#8 }) [])).map p = some 0xA5#8 := by decide

/-- V38, V39. -/
theorem test_cpx : (ran [0xE0#8, 0x05#8] (start (fun c => { c with x := 0x05#8 }) [])).map p = some 0x27#8 := by decide
theorem test_cpy : (ran [0xC0#8, 0x20#8] (start (fun c => { c with y := 0x10#8 }) [])).map p = some 0xA4#8 := by decide

/-- V40. -/
theorem test_bit : (ran [0x24#8, 0x10#8] (start (fun c => { c with a := 0x0F#8 }) [(0x10, 0xC0#8)])).map
    (fun s => (s.cpu.a, p s)) = some (0x0F#8, 0xE6#8) := by decide

/-- V45: C is kept. -/
theorem test_inc : (ran [0xE6#8, 0x10#8] (start (withP 0x05#8) [(0x10, 0xFF#8)])).map (fun s => (s.bus.peek 0x0010#16, p s))
    = some (some 0x00#8, 0x27#8) := by decide

/-- V46. -/
theorem test_dec : (ran [0xC6#8, 0x10#8] (start id [])).map (fun s => (s.bus.peek 0x0010#16, p s))
    = some (some 0xFF#8, 0xA4#8) := by decide

/-- V47, V48, and R143, R144. -/
theorem test_inx : (ran [0xE8#8] (start (fun c => { c with x := 0xFF#8 }) [])).map (fun s => (s.cpu.x, p s))
    = some (0x00#8, 0x26#8) := by decide
theorem test_iny : (ran [0xC8#8] (start (fun c => { c with y := 0x7F#8 }) [])).map (fun s => (s.cpu.y, p s))
    = some (0x80#8, 0xA4#8) := by decide
theorem test_dex : (ran [0xCA#8] (start (fun c => { c with x := 0x01#8 }) [])).map (fun s => (s.cpu.x, p s))
    = some (0x00#8, 0x26#8) := by decide
theorem test_dey : (ran [0x88#8] (start id [])).map (fun s => (s.cpu.y, p s)) = some (0xFF#8, 0xA4#8) := by decide

/-! Shifts (95, 2.4). -/

/-- V49, V58. -/
theorem test_asl_acc : (ran [0x0A#8] (start (fun c => { c with a := 0x80#8 }) [])).map (fun s => (s.cpu.a, p s))
    = some (0x00#8, 0x27#8) := by decide
theorem test_asl_abx : (ran [0x1E#8, 0xFF#8, 0x12#8] (start (fun c => { c with x := 0x01#8 }) [(0x300, 0x40#8)])).map
    (fun s => (s.bus.peek 0x1300#16, p s, s.cpu.cyclesLeft)) = some (some 0x80#8, 0xA4#8, 7) := by decide

/-- V52. -/
theorem test_lsr_acc : (ran [0x4A#8] (start (fun c => { c with a := 0x81#8 }) [])).map (fun s => (s.cpu.a, p s))
    = some (0x40#8, 0x25#8) := by decide

/-- V53, V57. -/
theorem test_rol_acc : (ran [0x2A#8] (start (fun c => withP 0x05#8 { c with a := 0x80#8 }) [])).map (fun s => (s.cpu.a, p s))
    = some (0x01#8, 0x25#8) := by decide
theorem test_rol_zp : (ran [0x26#8, 0x10#8] (start (withP 0x05#8) [(0x10, 0x55#8)])).map (fun s => (s.bus.peek 0x0010#16, p s))
    = some (some 0xAB#8, 0xA4#8) := by decide

/-- V55. -/
theorem test_ror_acc : (ran [0x6A#8] (start (fun c => withP 0x05#8 { c with a := 0x01#8 }) [])).map (fun s => (s.cpu.a, p s))
    = some (0x80#8, 0xA5#8) := by decide

/-! Control transfer (95, 2.5). -/

/-- V59 to V66: each branch. -/
theorem test_bpl : (ran [0x10#8, 0x02#8] (start id [])).map (fun s => (s.cpu.pc, s.cpu.cyclesLeft)) = some (0x8004#16, 3) := by decide
theorem test_bmi : (ran [0x30#8, 0x02#8] (start id [])).map (fun s => (s.cpu.pc, s.cpu.cyclesLeft)) = some (0x8002#16, 2) := by decide
theorem test_bvc : (ran [0x50#8, 0x10#8] (start (fun c => { c with pc := 0x80F0#16 }) [])).map
    (fun s => (s.cpu.pc, s.cpu.cyclesLeft)) = some (0x8102#16, 4) := by decide
theorem test_bvs : (ran [0x70#8, 0xFE#8] (start (withP 0x44#8) [])).map (fun s => (s.cpu.pc, s.cpu.cyclesLeft))
    = some (0x8000#16, 3) := by decide
theorem test_bcc : (ran [0x90#8, 0xFD#8] (start id [])).map (fun s => (s.cpu.pc, s.cpu.cyclesLeft)) = some (0x7FFF#16, 4) := by decide
theorem test_bcs : (ran [0xB0#8, 0x7F#8] (start (withP 0x05#8) [])).map (fun s => (s.cpu.pc, s.cpu.cyclesLeft))
    = some (0x8081#16, 3) := by decide
theorem test_bne : (ran [0xD0#8, 0xF9#8] (start (fun c => { c with pc := 0x800A#16 }) [])).map
    (fun s => (s.cpu.pc, s.cpu.cyclesLeft)) = some (0x8005#16, 3) := by decide
theorem test_beq : (ran [0xF0#8, 0x80#8] (start (withP 0x06#8) [])).map (fun s => (s.cpu.pc, s.cpu.cyclesLeft))
    = some (0x7F82#16, 4) := by decide

/-- V68: the page is compared with that of the byte after the branch. -/
theorem test_bne_page : (ran [0xD0#8, 0x00#8] (start (fun c => { c with pc := 0x80FE#16 }) [])).map
    (fun s => (s.cpu.pc, s.cpu.cyclesLeft)) = some (0x8100#16, 3) := by decide

/-- V67: a branch wraps modulo 2^16. -/
theorem test_beq_wraps : (ran [0xF0#8, 0x20#8] (start (fun c => withP 0x06#8 { c with pc := 0xFFF0#16 }) [])).map
    (fun s => (s.cpu.pc, s.cpu.cyclesLeft)) = some (0x0012#16, 4) := by decide

/-- V69, V83. -/
theorem test_jmp_abs : (ran [0x4C#8, 0x00#8, 0xC0#8] (start id [])).map (fun s => (s.cpu.pc, s.cpu.cyclesLeft))
    = some (0xC000#16, 3) := by decide
theorem test_jmp_ind_wraps : (ran [0x6C#8, 0xFF#8, 0x10#8] (start id [(0x00, 0x12#8), (0xFF, 0x34#8), (0x100, 0x56#8)])).map
    (fun s => (s.cpu.pc, s.cpu.cyclesLeft)) = some (0x1234#16, 5) := by decide

/-- V70, V72. -/
theorem test_jsr : (ran [0x20#8, 0x0D#8, 0x80#8] (start (fun c => { c with sp := 0xFF#8, pc := 0x8005#16 }) [])).map
    (fun s => (s.bus.peek 0x01FF#16, s.bus.peek 0x01FE#16, s.cpu.sp, s.cpu.pc)) =
    some (some 0x80#8, some 0x07#8, 0xFD#8, 0x800D#16) := by decide
theorem test_jsr_wraps : (ran [0x20#8, 0x00#8, 0x90#8] (start (fun c => { c with sp := 0x01#8 }) [])).map
    (fun s => (s.bus.peek 0x0101#16, s.bus.peek 0x0100#16, s.cpu.sp)) = some (some 0x80#8, some 0x02#8, 0xFF#8) := by decide

/-- V71. -/
theorem test_rts : (ran [0x60#8] (start id [(0x1FE, 0x07#8), (0x1FF, 0x80#8)])).map (fun s => (s.cpu.pc, s.cpu.sp))
    = some (0x8008#16, 0xFF#8) := by decide

/-- V74: B is pushed as 1, D is kept. -/
theorem test_brk : (ran [0x00#8] (start (withP 0x09#8) [(0xFFFE, 0x00#8), (0xFFFF, 0x90#8)])).map
    (fun s => (s.bus.peek 0x01FD#16, s.bus.peek 0x01FC#16, s.bus.peek 0x01FB#16, s.cpu.pc, p s)) =
    some (some 0x80#8, some 0x02#8, some 0x39#8, 0x9000#16, 0x2D#8) := by decide

/-- V76. -/
theorem test_rti : (ran [0x40#8] (start (fun c => { c with sp := 0xFA#8 }) [(0x1FB, 0xFF#8), (0x1FC, 0x00#8), (0x1FD, 0xC0#8)])).map
    (fun s => (s.cpu.pc, s.cpu.sp, p s)) = some (0xC000#16, 0xFD#8, 0xEF#8) := by decide

/-! Stack and flags (95, 2.6). -/

/-- V78: the stack pointer wraps. -/
theorem test_pha : (ran [0x48#8] (start (fun c => { c with sp := 0x00#8, a := 0x99#8 }) [])).map
    (fun s => (s.bus.peek 0x0100#16, s.cpu.sp)) = some (some 0x99#8, 0xFF#8) := by decide

/-- V79. -/
theorem test_php : (ran [0x08#8] (start (withP 0x06#8) [])).map (fun s => (s.bus.peek 0x01FD#16, p s))
    = some (some 0x36#8, 0x26#8) := by decide

/-- V80. -/
theorem test_pla : (ran [0x68#8] (start (fun c => { c with sp := 0xFE#8 }) [(0x1FF, 0x80#8)])).map
    (fun s => (s.cpu.a, s.cpu.sp, p s)) = some (0x80#8, 0xFF#8, 0xA4#8) := by decide

/-- V81. -/
theorem test_plp : (ran [0x28#8] (start (fun c => { c with sp := 0xFE#8 }) [(0x1FF, 0xC3#8)])).map p = some 0xE3#8 := by decide

/-- R195 to R201, V84: one flag each; R202: none. -/
theorem test_clc : (ran [0x18#8] (start (withP 0xFF#8) [])).map p = some 0xEE#8 := by decide
theorem test_sec : (ran [0x38#8] (start (withP 0x00#8) [])).map p = some 0x21#8 := by decide
theorem test_cli : (ran [0x58#8] (start (withP 0xFF#8) [])).map p = some 0xEB#8 := by decide
theorem test_sei : (ran [0x78#8] (start (withP 0x00#8) [])).map p = some 0x24#8 := by decide
theorem test_cld : (ran [0xD8#8] (start (withP 0xFF#8) [])).map p = some 0xE7#8 := by decide
theorem test_sed : (ran [0xF8#8] (start (withP 0x00#8) [])).map p = some 0x28#8 := by decide
theorem test_clv : (ran [0xB8#8] (start (withP 0xFF#8) [])).map p = some 0xAF#8 := by decide
theorem test_nop : (ran [0xEA#8] (start id [])).map (fun s => (s.cpu.pc, p s)) = some (0x8001#16, 0x24#8) := by decide

/-! Undocumented opcodes (95, 2.7). -/

/-- V86 to V89e. -/
theorem test_slo : (ran [0x07#8, 0x10#8] (start (fun c => { c with a := 0x10#8 }) [(0x10, 0x81#8)])).map
    (fun s => (s.bus.peek 0x0010#16, s.cpu.a, p s)) = some (some 0x02#8, 0x12#8, 0x25#8) := by decide
theorem test_rla : (ran [0x27#8, 0x10#8] (start (fun c => { c with a := 0xFF#8 }) [(0x10, 0x81#8)])).map
    (fun s => (s.bus.peek 0x0010#16, s.cpu.a, p s)) = some (some 0x02#8, 0x02#8, 0x25#8) := by decide
theorem test_sre : (ran [0x47#8, 0x10#8] (start (fun c => { c with a := 0x01#8 }) [(0x10, 0x03#8)])).map
    (fun s => (s.bus.peek 0x0010#16, s.cpu.a, p s)) = some (some 0x01#8, 0x00#8, 0x27#8) := by decide
theorem test_rra : (ran [0x67#8, 0x10#8] (start (fun c => withP 0x05#8 { c with a := 0x01#8 }) [(0x10, 0x02#8)])).map
    (fun s => (s.bus.peek 0x0010#16, s.cpu.a, p s)) = some (some 0x81#8, 0x82#8, 0xA4#8) := by decide
theorem test_sax : (ran [0x87#8, 0x10#8] (start (fun c => { c with a := 0xF0#8, x := 0x3C#8 }) [])).map
    (fun s => (s.bus.peek 0x0010#16, p s)) = some (some 0x30#8, 0x24#8) := by decide
theorem test_lax : (ran [0xA7#8, 0x10#8] (start id [(0x10, 0x80#8)])).map (fun s => (s.cpu.a, s.cpu.x, p s))
    = some (0x80#8, 0x80#8, 0xA4#8) := by decide
theorem test_dcp : (ran [0xC7#8, 0x10#8] (start (fun c => { c with a := 0x40#8 }) [(0x10, 0x41#8)])).map
    (fun s => (s.bus.peek 0x0010#16, p s)) = some (some 0x40#8, 0x27#8) := by decide
theorem test_isc : (ran [0xE7#8, 0x10#8] (start (fun c => withP 0x05#8 { c with a := 0x20#8 }) [(0x10, 0x0F#8)])).map
    (fun s => (s.bus.peek 0x0010#16, s.cpu.a, p s)) = some (some 0x10#8, 0x10#8, 0x25#8) := by decide

/-- V89f to V89l. -/
theorem test_anc : (ran [0x0B#8, 0x80#8] (start (fun c => { c with a := 0xFF#8 }) [])).map (fun s => (s.cpu.a, p s))
    = some (0x80#8, 0xA5#8) := by decide
theorem test_alr : (ran [0x4B#8, 0x03#8] (start (fun c => { c with a := 0xFF#8 }) [])).map (fun s => (s.cpu.a, p s))
    = some (0x01#8, 0x25#8) := by decide
theorem test_arr_carry : (ran [0x6B#8, 0xFF#8] (start (fun c => withP 0x05#8 { c with a := 0xFF#8 }) [])).map
    (fun s => (s.cpu.a, p s)) = some (0xFF#8, 0xA5#8) := by decide
theorem test_arr_overflow : (ran [0x6B#8, 0xFF#8] (start (fun c => { c with a := 0x40#8 }) [])).map (fun s => (s.cpu.a, p s))
    = some (0x20#8, 0x64#8) := by decide
theorem test_axs : (ran [0xCB#8, 0x10#8] (start (fun c => { c with a := 0xFF#8, x := 0x0F#8 }) [])).map
    (fun s => (s.cpu.x, s.cpu.a, p s)) = some (0xFF#8, 0xFF#8, 0xA4#8) := by decide
theorem test_sbcUndoc : (ran [0xEB#8, 0x05#8] (start (fun c => { c with a := 0x05#8 }) [])).map (fun s => (s.cpu.a, p s))
    = some (0xFF#8, 0xA4#8) := by decide

/-- V89m. -/
theorem test_las : (ran [0xBB#8, 0x00#8, 0x02#8] (start (fun c => { c with sp := 0xF0#8 }) [(0x200, 0x3F#8)])).map
    (fun s => (s.cpu.a, s.cpu.x, s.cpu.sp)) = some (0x30#8, 0x30#8, 0x30#8) := by decide

/-- V89n. -/
theorem test_nop_abx : (ran [0x1C#8, 0xF0#8, 0x12#8] (start (fun c => { c with x := 0x20#8 }) [])).map
    (fun s => (s.cpu.pc, s.cpu.cyclesLeft)) = some (0x8003#16, 5) := by decide

/-- V89o: PPU status is not read. -/
theorem test_nop_abs_no_read : (ran [0x0C#8, 0x02#8, 0x20#8]
    (let s := start id []; { s with bus := { s.bus with ppu := { s.bus.ppu with vblank := true } } })).map
    (fun s => s.bus.ppu.vblank) = some true := by decide

/-- V89p. -/
theorem test_kil : (ran [0x02#8] (start id [])).map (fun s => (s.cpu.pc, s.cpu.cyclesLeft)) = some (0x8000#16, 2) := by decide

/-- V89q, R233. -/
theorem test_xaa_degraded : (ran [0x8B#8, 0xFF#8] (start (fun c => { c with a := 0x55#8, x := 0xFF#8 }) [])).map
    (fun s => (s.cpu.a, s.cpu.pc, s.cpu.cyclesLeft)) = some (0x55#8, 0x8002#16, 2) := by decide
theorem test_lxa_degraded : (ran [0xAB#8, 0xFF#8] (start (fun c => { c with a := 0x55#8, x := 0x01#8 }) [])).map
    (fun s => (s.cpu.a, s.cpu.x, p s)) = some (0x55#8, 0x01#8, 0x24#8) := by decide

/-- R227 in `nmos` mode with X = 0: the result is 0 whatever XAA_MAGIC is. -/
theorem test_xaa_nmos : exec (.xaa 0xFF#8) (startNmos (fun c => { c with a := 0x55#8 }) []) =
    .next ((((startNmos (fun c => { c with a := 0x55#8 }) []).setCycles 2).setA 0x00#8).setNZ 0x00#8) := by
  have e : (0x55#8 ||| Config.xaaMagic) &&& 0x00#8 &&& 0xFF#8 = 0x00#8 := by simp
  exact congrArg (fun r => Host.Outcome.next
    ((((startNmos (fun c => { c with a := 0x55#8 }) []).setCycles 2).setA r).setNZ r)) e

/-- V89s. -/
theorem test_ahx_nmos : (ran [0x9F#8, 0xF8#8, 0x12#8]
    (startNmos (fun c => { c with a := 0xFF#8, x := 0xFF#8, y := 0x10#8 }) [])).map (fun s => s.bus.peek 0x1308#16)
    = some (some 0x13#8) := by decide

/-- R230: SP takes A & X; with Y = 1 the byte 0F & 03 goes to 0x0201. -/
theorem test_tas_nmos : (ran [0x9B#8, 0x00#8, 0x02#8]
    (startNmos (fun c => { c with a := 0xFF#8, x := 0x0F#8, y := 0x01#8 }) [])).map (fun s => (s.bus.peek 0x0201#16, s.cpu.sp))
    = some (some 0x03#8, 0x0F#8) := by decide

/-- V89t, and R232 with X and Y exchanged. -/
theorem test_shy_nmos : (ran [0x9C#8, 0x00#8, 0x02#8] (startNmos (fun c => { c with y := 0x0F#8, x := 0x01#8 }) [])).map
    (fun s => s.bus.peek 0x0201#16) = some (some 0x03#8) := by decide
theorem test_shx_nmos : (ran [0x9E#8, 0x00#8, 0x02#8] (startNmos (fun c => { c with x := 0x0F#8, y := 0x01#8 }) [])).map
    (fun s => s.bus.peek 0x0201#16) = some (some 0x03#8) := by decide

/-- R234: on a page cross the byte replaces the high byte of the address (base 0x02FF, Y = 0x01, v = FF & 01 & 03 = 01). -/
theorem test_ahx_nmos_cross : (ran [0x9F#8, 0xFF#8, 0x02#8]
    (startNmos (fun c => { c with a := 0xFF#8, x := 0x01#8, y := 0x01#8 }) [])).map
    (fun s => (s.bus.peek 0x0100#16, s.bus.peek 0x0300#16)) = some (some 0x01#8, some 0x00#8) := by decide

/-! Interrupts, DMA, reset (95, 2.8). -/

/-- V90. -/
theorem test_nmi : (stepped (start (fun c => withP 0x80#8 { c with pc := 0x8123#16, nmiPending := true })
    [(0xFFFA, 0x00#8), (0xFFFB, 0xA0#8)])).map
    (fun s => (s.bus.peek 0x01FD#16, s.bus.peek 0x01FC#16, s.bus.peek 0x01FB#16, s.cpu.pc, s.cpu.nmiPending)) =
    some (some 0x81#8, some 0x23#8, some 0xA0#8, 0xA000#16, false) := by decide

/-- V91: the line stays asserted. -/
theorem test_irq : (stepped
    (let s := start (fun c => withP 0x00#8 { c with pc := 0xC010#16, sp := 0xFF#8 }) [(0xFFFE, 0x00#8), (0xFFFF, 0x90#8)]
     { s with bus := { s.bus with irq := { s.bus.irq with frame := true } } })).map
    (fun s => (s.bus.peek 0x01FF#16, s.bus.peek 0x01FE#16, s.bus.peek 0x01FD#16, s.cpu.pc, p s, s.cpu.irqPending)) =
    some (some 0xC0#8, some 0x10#8, some 0x20#8, 0x9000#16, 0x24#8, true) := by decide

/-- V92: with I set no IRQ is taken; the NOP at 0x8000 runs. -/
theorem test_irq_masked : (stepped
    (let s := start id [(0x8000, 0xEA#8)]
     { s with bus := { s.bus with irq := { s.bus.irq with mapper := true } } })).map
    (fun s => (s.cpu.pc, s.cpu.cyclesLeft)) = some (0x8001#16, 1) := by decide

/-- V95: a write to 0x4014 in an odd cycle asks for the alignment cycle. -/
theorem test_dma_start : (ran [0x8D#8, 0x14#8, 0x40#8]
    (let s := start (fun c => { c with a := 0x02#8 }) []; { s with bus := { s.bus with sysCycles := 7 } })).map
    (fun s => s.bus.dma) = some { active := true, page := 0x02#8, index := 0, latch := 0x00#8, align := true } := by decide

/-- V96. -/
theorem test_reset : (let s := (start (fun c => { c with a := 0x12#8, sp := 0x00#8 })
      [(0x10, 0x55#8), (0xFFFC, 0x00#8), (0xFFFD, 0x80#8)]).resetTo true
    (s.cpu.a, s.cpu.sp, p s, s.cpu.pc, s.cpu.cyclesLeft, s.bus.peek 0x0010#16)) =
    (0x00#8, 0xFD#8, 0x24#8, 0x8000#16, 7, some 0x00#8) := by decide

/-- V97: a system cycle with cycles owed fetches nothing. -/
theorem test_reset_cycles : (stepped State.reset).map (fun s => (s.cpu.pc, s.cpu.cyclesLeft)) = some (0x0000#16, 6) := by decide

/-- What `withFetchWord` places runs as the very next step: LDA #$42 (S1). -/
theorem test_withFetchWord : (stepped (State.reset.withFetchWord 16 0x42A9)).map (fun s => (s.cpu.a, s.cpu.cyclesLeft))
    = some (0x42#8, 1) := by decide

/-- The pseudo-row 0x101 runs as an IRQ entry: three bytes pushed. -/
theorem test_withFetchWord_irq : (stepped (State.reset.withFetchWord 9 0x101)).map (fun s => s.cpu.sp) = some 0xFA#8 := by decide

/-- R198, R253: SEI leaves I = 1, so a pending IRQ is refused right after it. -/
theorem test_sei_masks_irq : (ran [0x78#8] (start (fun c => { withP 0x00#8 c with irqPending := true }) [])).map State.takeIrq =
    some false := by decide

/-- Log 37: whether an IRQ that was pending when BRK executed is accepted at the next boundary is a free value. -/
theorem test_brk_irq_open : (ran [0x00#8] (start (fun c => { c with irqPending := true }) [])).map State.takeIrq =
    some (Config.irqAfterBrk 0) := by
  show some (!!Config.irqAfterBrk 0) = _
  rw [Bool.not_not]

/-- R253: an IRQ first raised in BRK's owed cycles waits until I is clear. -/
theorem test_brk_masks_irq : (ran [0x00#8] (start (withP 0x00#8) [])).map (fun s =>
    { s with cpu := { s.cpu with irqPending := true } }.takeIrq) = some false := by decide

/-- R182, R265: an NMI latched during BRK is accepted at the next boundary, after BRK's three pushes. -/
theorem test_brk_then_nmi : (ran [0x00#8] (start id [])).map (fun s =>
    ({ s with cpu := { s.cpu with nmiPending := true } }.takeNmi, s.cpu.sp)) = some (true, 0xFA#8) := by decide

/-- R182, R253: an IRQ asserted during BRK is accepted at the boundary after the RTI that restores I = 0. -/
theorem test_brk_rti_irq : ((ran [0x00#8] (start (withP 0x00#8) [])).bind (ran [0x40#8])).map (fun s =>
    { s with cpu := { s.cpu with irqPending := true } }.takeIrq) = some true := by decide

/-- R19: the trace line at the reference test's first boundary reads P:24, SP:FD (R294, D30). -/
theorem test_trace_line : ((start id []).traceLine?.map fun t => (t.pc, t.p, t.sp)) = some (0x8000#16, 0x24#8, 0xFD#8) := by decide

/-- R19: a trace has one line per instruction, none for its owed cycles: two NOPs in four system cycles. -/
theorem test_trace_boundaries : (traceRun 4 (start id [(0x8000, 0xEA#8), (0x8001, 0xEA#8)])).map Trace.pc =
    [0x8000#16, 0x8001#16] := by decide

/-- R294: `set_savestate(get_savestate())` changes nothing, and a mismatched tag changes nothing. -/
theorem test_savestate (s saved : State) : s.setSavestate true s.getSavestate = s ∧ s.setSavestate false saved = s := ⟨rfl, rfl⟩

/-! For every statement with hypotheses: a state and operands that meet them together, at the ends of their ranges where they
have ends. -/

/-- A state with bytes in RAM, PRG-RAM and PRG-ROM, at a quiet boundary. -/
def quiet : State := start (fun c => { c with a := 0x12#8 }) [(0x10, 0x81#8), (0x7FF, 0x01#8), (0x6000, 0x42#8), (0x8000, 0x02#8)]

/-- `quiet` in the middle of an instruction. -/
def owing : State := quiet.setCycles 3

/-- `quiet` with an OAM DMA of page `pg` just started. -/
def dmaStarted (pg : Byte) (align : Bool) : State :=
  { quiet with bus := { quiet.bus with dma := { quiet.bus.dma with active := true, page := pg, index := 0, align := align } } }

theorem quiet_ppu_inv : quiet.bus.ppu.Inv := ⟨by decide, by decide, by decide, by decide, by decide, by decide⟩
theorem quiet_apu_inv : quiet.bus.apu.Inv := ⟨by decide, by decide, by decide⟩

theorem quiet_inv : quiet.Inv :=
  ⟨⟨by decide, by decide, by decide, by decide, by decide, quiet_ppu_inv, quiet_apu_inv⟩, by decide⟩

theorem dmaStarted_inv (pg : Byte) (align : Bool) : (dmaStarted pg align).Inv :=
  ⟨⟨quiet_inv.bus.mem_wf, quiet_inv.bus.mem_keys, Nat.zero_le _, quiet_inv.bus.pad1, quiet_inv.bus.pad2, quiet_ppu_inv,
    quiet_apu_inv⟩, quiet_inv.cycles⟩

theorem quiet_atQuietBoundary : quiet.AtQuietBoundary := ⟨by decide, by decide, by decide, by decide, .inl (by decide)⟩

/-- The other way to be quiet: I clear and no request. -/
theorem quiet_atQuietBoundary' : (start (withP 0x00#8) []).AtQuietBoundary := ⟨by decide, by decide, by decide, by decide, .inr (by decide)⟩

theorem witness_DecodeOfEncode : (Instr.lda (.mem (.izy 0xFF#8))).wf = true ∧ (Instr.lda (.mem (.izy 0xFF#8))).isPseudo = false := by
  decide

theorem witness_CyclesMatchTable : Instr.nmi ∈ [Instr.nmi, .irq] ∧ Instr.irq ∈ [Instr.nmi, .irq] := by decide

/-- Rows of the read laws: the first form, and the paged one. -/
theorem witness_LoadsCopyOperand :
    (0xA9#8, Src.imm 0x00#8, 2) ∈ accReads 0xA9#8 0xA5#8 0xB5#8 0xAD#8 0xBD#8 0xB9#8 0xA1#8 0xB1#8 0x00#8 0xFF#8 quiet ∧
    pagedRow 0xBE#8 (.aby 0xFFFF#16) 4 quiet ∈ [(0xA2#8, .imm 0xFF#8, 2), (0xA6#8, .mem (.zp 0xFF#8), 3),
      (0xB6#8, .mem (.zpy 0xFF#8), 4), (0xAE#8, .mem (.abs (word 0xFF#8 0xFF#8)), 4),
      pagedRow 0xBE#8 (.aby (word 0xFF#8 0xFF#8)) 4 quiet] ∧
    (0xB4#8, Src.mem (.zpx 0xFF#8), 4) ∈ [(0xA0#8, .imm 0xFF#8, 2), (0xA4#8, .mem (.zp 0xFF#8), 3),
      (0xB4#8, .mem (.zpx 0xFF#8), 4), (0xAC#8, .mem (.abs (word 0xFF#8 0xFF#8)), 4),
      pagedRow 0xBC#8 (.abx (word 0xFF#8 0xFF#8)) 4 quiet] := by decide

theorem witness_StoresWriteRegister :
    (0x91#8, Mem.izy 0x00#8, 6) ∈ [(0x85#8, .zp 0x00#8, 3), (0x95#8, .zpx 0x00#8, 4), (0x8D#8, .abs (word 0x00#8 0x00#8), 4),
      (0x9D#8, .abx (word 0x00#8 0x00#8), 5), (0x99#8, .aby (word 0x00#8 0x00#8), 5), (0x81#8, .izx 0x00#8, 6),
      (0x91#8, .izy 0x00#8, 6)] ∧
    (0x86#8, Mem.zp 0x00#8, 3) ∈ [(0x86#8, .zp 0x00#8, 3), (0x96#8, .zpy 0x00#8, 4), (0x8E#8, .abs (word 0x00#8 0x00#8), 4)] ∧
    (0x84#8, Mem.zp 0x00#8, 3) ∈ [(0x84#8, .zp 0x00#8, 3), (0x94#8, .zpx 0x00#8, 4), (0x8C#8, .abs (word 0x00#8 0x00#8), 4)] ∧
    (quiet.resolve (.abs 0x4014#16)).1.ea = 0x4014#16 ∧
    0x4020 ≤ (quiet.resolve (.abs 0x8000#16)).1.ea.toNat ∧
    quiet.bus.cart.kindAt (quiet.resolve (.abs 0x8000#16)).1.ea.toNat = .prgRom := by decide

theorem witness_AdcAddsWithCarry :
    pagedRow 0x71#8 (.izy 0xFF#8) 5 quiet ∈ accReads 0x69#8 0x65#8 0x75#8 0x6D#8 0x7D#8 0x79#8 0x61#8 0x71#8 0xFF#8 0x00#8 quiet := by
  decide

theorem witness_SbcAddsComplement :
    (0xE1#8, Src.mem (.izx 0xFF#8), 6) ∈ accReads 0xE9#8 0xE5#8 0xF5#8 0xED#8 0xFD#8 0xF9#8 0xE1#8 0xF1#8 0xFF#8 0x00#8 quiet := by
  decide

theorem witness_LogicCombinesWithA :
    (0x29#8, Src.imm 0x0F#8, 2) ∈ accReads 0x29#8 0x25#8 0x35#8 0x2D#8 0x3D#8 0x39#8 0x21#8 0x31#8 0x0F#8 0x00#8 quiet ∧
    (0x05#8, Src.mem (.zp 0x0F#8), 3) ∈ accReads 0x09#8 0x05#8 0x15#8 0x0D#8 0x1D#8 0x19#8 0x01#8 0x11#8 0x0F#8 0x00#8 quiet ∧
    (0x55#8, Src.mem (.zpx 0x0F#8), 4) ∈ accReads 0x49#8 0x45#8 0x55#8 0x4D#8 0x5D#8 0x59#8 0x41#8 0x51#8 0x0F#8 0x00#8 quiet := by
  decide

theorem witness_ComparesSetFlags :
    (0xCD#8, Src.mem (.abs 0xFF00#16), 4) ∈ accReads 0xC9#8 0xC5#8 0xD5#8 0xCD#8 0xDD#8 0xD9#8 0xC1#8 0xD1#8 0x00#8 0xFF#8 quiet ∧
    (0xE0#8, Src.imm 0x00#8, 2) ∈ indexReads 0xE0#8 0xE4#8 0xEC#8 0x00#8 0x00#8 ∧
    (0xCC#8, Src.mem (.abs 0x2002#16), 4) ∈ indexReads 0xC0#8 0xC4#8 0xCC#8 0x02#8 0x20#8 := by decide

theorem witness_BitTestsOperand :
    (0x2C#8, Mem.abs 0x2002#16, 4) ∈ [(0x24#8, Mem.zp 0x02#8, 3), (0x2C#8, Mem.abs (word 0x02#8 0x20#8), 4)] := by decide

theorem witness_IncrementsAndDecrements :
    (0xFE#8, Mem.abx 0xFFFF#16, 7) ∈ memModifies 0xE6#8 0xF6#8 0xEE#8 0xFE#8 0xFF#8 0xFF#8 ∧
    (0xC6#8, Mem.zp 0x00#8, 5) ∈ memModifies 0xC6#8 0xD6#8 0xCE#8 0xDE#8 0x00#8 0x00#8 := by decide

theorem witness_ShiftsMoveOneBit :
    (0x06#8, Mem.zp 0x00#8, 5) ∈ memModifies 0x06#8 0x16#8 0x0E#8 0x1E#8 0x00#8 0x00#8 ∧
    (0x5E#8, Mem.abx 0xFFFF#16, 7) ∈ memModifies 0x46#8 0x56#8 0x4E#8 0x5E#8 0xFF#8 0xFF#8 ∧
    (0x36#8, Mem.zpx 0xFF#8, 6) ∈ memModifies 0x26#8 0x36#8 0x2E#8 0x3E#8 0xFF#8 0xFF#8 ∧
    (0x6E#8, Mem.abs 0x2007#16, 6) ∈ memModifies 0x66#8 0x76#8 0x6E#8 0x7E#8 0x07#8 0x20#8 := by decide

/-- An IRQ pending when BRK executes, at the boundary after it with an NMI latched meanwhile, and with none. -/
theorem witness_HandlerEntries :
    (∀ nmi ∈ [true, false],
      let s := start (fun c => { c with irqPending := true, cyclesLeft := 7, nmiPending := nmi }) []
      s.bus.dma.active = false ∧ s.cpu.irqPending = true ∧
      (ran [0x00#8] s).map (fun t => match Host.Core.run core 6 t.countDown.endCycle with
        | .next u => (u.cpu.nmiPending, u.bus.irqOpen, u.cpu.cyclesLeft)
        | _ => (false, false, 9)) = some (nmi, true, 0)) := by decide

/-- A state whose RTI restores P from the byte `p`, with a request asserted. -/
def returning (p : Byte) : State :=
  let s := start (fun c => { c with sp := 0xFA#8 }) [(0x1FB, p), (0x1FD, 0x90#8)]
  { s with bus := { s.bus with irq := { s.bus.irq with dmc := true } } }

/-- At the boundary after the RTI no NMI is latched and the request is still asserted; the restored I is 0, or 1. -/
theorem witness_RtiRestoresFlagsAndPC :
    (∀ p ∈ [0x00#8, 0x04#8], (returning p).bus.dma.active = false ∧ (returning p).bus.irqOpen = false ∧
      (ran [0x40#8] (returning p)).map (fun t => match Host.Core.run core 5 t.countDown.endCycle with
        | .next u => (u.cpu.nmiPending, u.bus.irq.asserted, u.cpu.cyclesLeft)
        | _ => (true, false, 9)) = some (false, true, 0)) ∧
    (0x00#8).getLsbD 2 = false ∧ (0x04#8).getLsbD 2 = true := by decide

theorem witness_DecimalFlagIsInert :
    writesD (.adc (.imm 0x01#8)) = false ∧ Instr.adc (.imm 0x01#8) ∉ [Instr.php, .brk, .nmi, .irq] := by decide

theorem witness_ShiftThenLogic :
    (0x13#8, Mem.izy 0x10#8, 8) ∈ combinedModifies 0x07#8 0x17#8 0x0F#8 0x1F#8 0x1B#8 0x03#8 0x13#8 0x10#8 0x00#8 ∧
    (0x27#8, Mem.zp 0x10#8, 5) ∈ combinedModifies 0x27#8 0x37#8 0x2F#8 0x3F#8 0x3B#8 0x23#8 0x33#8 0x10#8 0x00#8 ∧
    (0x5B#8, Mem.aby 0x0010#16, 7) ∈ combinedModifies 0x47#8 0x57#8 0x4F#8 0x5F#8 0x5B#8 0x43#8 0x53#8 0x10#8 0x00#8 := by decide

theorem witness_ModifyThenAdd :
    (0x63#8, Mem.izx 0x10#8, 8) ∈ combinedModifies 0x67#8 0x77#8 0x6F#8 0x7F#8 0x7B#8 0x63#8 0x73#8 0x10#8 0x00#8 ∧
    (0xE7#8, Mem.zp 0x10#8, 5) ∈ combinedModifies 0xE7#8 0xF7#8 0xEF#8 0xFF#8 0xFB#8 0xE3#8 0xF3#8 0x10#8 0x00#8 := by decide

theorem witness_StoreLoadCompareCombined :
    (0x97#8, Mem.zpy 0x10#8, 4) ∈ [(0x87#8, .zp 0x10#8, 3), (0x97#8, .zpy 0x10#8, 4), (0x8F#8, .abs (word 0x10#8 0x00#8), 4),
      (0x83#8, .izx 0x10#8, 6)] ∧
    (0xA3#8, Mem.izx 0x10#8, 6) ∈ [(0xA7#8, .zp 0x10#8, 3), (0xB7#8, .zpy 0x10#8, 4), (0xAF#8, .abs (word 0x10#8 0x00#8), 4),
      (0xBF#8, .aby (word 0x10#8 0x00#8), 4 + pagePenalty (.mem (.aby (word 0x10#8 0x00#8))) quiet), (0xA3#8, .izx 0x10#8, 6),
      (0xB3#8, .izy 0x10#8, 5 + pagePenalty (.mem (.izy 0x10#8)) quiet)] ∧
    (0xC7#8, Mem.zp 0x10#8, 5) ∈ combinedModifies 0xC7#8 0xD7#8 0xCF#8 0xDF#8 0xDB#8 0xC3#8 0xD3#8 0x10#8 0x00#8 := by decide

theorem witness_ImmediateCombined : 0x0B#8 ∈ [0x0B#8, 0x2B#8] ∧ 0x2B#8 ∈ [0x0B#8, 0x2B#8] := by decide

theorem witness_UndocumentedNopsOnlyCost :
    0xFA#8 ∈ [0x1A#8, 0x3A#8, 0x5A#8, 0x7A#8, 0xDA#8, 0xFA#8] ∧ 0xE2#8 ∈ [0x80#8, 0x82#8, 0x89#8, 0xC2#8, 0xE2#8] ∧
    0x04#8 ∈ [0x04#8, 0x44#8, 0x64#8] ∧ 0xF4#8 ∈ [0x14#8, 0x34#8, 0x54#8, 0x74#8, 0xD4#8, 0xF4#8] ∧ 0x0C#8 ∈ [0x0C#8] ∧
    0x5C#8 ∈ [0x1C#8, 0x3C#8, 0x5C#8, 0x7C#8, 0xDC#8, 0xFC#8] := by decide

theorem witness_KilLocksPC : 0x02#8 ∈ kilOpcodes ∧ quiet.AtQuietBoundary ∧ quiet.bus.peek quiet.cpu.pc = some 0x02#8 :=
  ⟨by decide, quiet_atQuietBoundary, by decide⟩

/-- With IRQs masked and NMI off, as `quiet` has them, the lock lasts. -/
theorem witness_KilLocksPC_forEver : quiet.cpu.flags.i = true ∧ quiet.bus.ppu.ctrl.getLsbD 7 = false := by decide

theorem witness_DegradedOpcodesAreNops :
    quiet.bus.params.unstableOps = .degraded ∧
    (0x9E#8, Instr.shx 0xFFFF#16, 5) ∈ [(0x8B#8, Instr.xaa 0xFF#8, 2), (0xAB#8, .lxa 0xFF#8, 2), (0x93#8, .ahx (.izy 0xFF#8), 6),
      (0x9F#8, .ahx (.aby (word 0xFF#8 0xFF#8)), 5), (0x9B#8, .tas (word 0xFF#8 0xFF#8), 5),
      (0x9C#8, .shy (word 0xFF#8 0xFF#8), 5), (0x9E#8, .shx (word 0xFF#8 0xFF#8), 5)] := by decide

theorem witness_NmosXaaLxa : (startNmos id []).bus.params.unstableOps = .nmos := by decide
theorem witness_NmosUnstableStores : (startNmos (fun c => { c with y := 0xFF#8 }) []).bus.params.unstableOps = .nmos := by decide

theorem witness_InterruptReturnRestores : quiet.Inv ∧ Instr.nmi ∈ [Instr.nmi, .irq] := ⟨quiet_inv, by decide⟩
theorem witness_SubroutineReturnRestores : quiet.Inv := quiet_inv

/-- NOP changes no register, no flag and no byte; INC $10 stores at 0x0010 alone. -/
theorem witness_RegisterFrame : exec .nop quiet = .next (quiet.setCycles 2) ∧ writesA .nop = false ∧ writesX .nop = false ∧
    writesY .nop = false ∧ writesSP .nop = false ∧ writesPC .nop = false := ⟨rfl, by decide⟩
theorem witness_FlagFrame : exec .nop quiet = .next (quiet.setCycles 2) ∧ writesC .nop = false ∧ writesNZ .nop = false ∧
    writesV .nop = false ∧ writesD .nop = false ∧ writesI .nop = false := ⟨rfl, by decide⟩
theorem witness_MemoryFrame :
    (∃ t, exec (.inc (.zp 0x10#8)) quiet = .next t) ∧
    (∀ a ∈ storesAt (.inc (.zp 0x10#8)) quiet, quiet.bus.cell 0x0011#16 ≠ quiet.bus.cell a) ∧ storesAt .nop quiet = [] :=
  ⟨(fun s => ⟨_, rfl⟩ : ∀ s, ∃ t, exec (.inc (.zp 0x10#8)) s = .next t) quiet,
    fun a ha => by
      have h : a ∈ [0x0010#16] := (fun _ h => h : ∀ s, a ∈ storesAt (.inc (.zp 0x10#8)) s → a ∈ [0x0010#16]) quiet ha
      rw [List.mem_singleton.mp h, Bus.cell_ram _ (by decide), Bus.cell_ram _ (by decide)]
      decide,
    (fun _ => rfl : ∀ s, storesAt .nop s = []) quiet⟩

theorem witness_StepRunsDecoded : quiet.AtQuietBoundary ∧ decode [0x02#8] = .ok (.kil 0x02#8, []) ∧
    ∀ k, (hk : k < [0x02#8].length) → quiet.bus.peek (quiet.cpu.pc + BitVec.ofNat 16 k) = some [0x02#8][k] := by
  refine ⟨quiet_atQuietBoundary, rfl, fun k hk => ?_⟩
  have : k = 0 := by simpa using hk
  subst this
  show quiet.bus.peek (quiet.cpu.pc + BitVec.ofNat 16 0) = some 0x02#8
  decide

/-- A one-byte, a two-byte, an ignored-immediate and a three-byte instruction. -/
theorem witness_FetchReadsInOrder :
    operandCount ((start id [(0x8000, 0xEA#8)]).bus.read 0x8000#16).1 = 0 ∧
    operandCount ((start id [(0x8000, 0xA9#8)]).bus.read 0x8000#16).1 = 1 ∧
    operandIgnored (decodeOp ((start id [(0x8000, 0xA9#8)]).bus.read 0x8000#16).1 0 0) .degraded = false ∧
    operandCount ((start id [(0x8000, 0x80#8)]).bus.read 0x8000#16).1 = 1 ∧
    operandIgnored (decodeOp ((start id [(0x8000, 0x80#8)]).bus.read 0x8000#16).1 0 0) .degraded = true ∧
    operandCount ((start id [(0x8000, 0xAD#8)]).bus.read 0x8000#16).1 = 2 := by decide

theorem witness_OwedCyclesOnlyCountDown : owing.cpu.cyclesLeft = 2 + 1 ∧ owing.bus.dma.active = false ∧
    ({ owing with cpu := { owing.cpu with nmiPending := true } } : State).cpu.nmiPending = true := by decide

/-- A state with a latched NMI, and one with a request while I is clear. -/
def nmiLatched : State := start (fun c => { c with nmiPending := true }) []
def irqAsserted : State :=
  let s := start (withP 0x00#8) []
  { s with bus := { s.bus with irq := { s.bus.irq with dmc := true } } }

/-- A state at the boundary after a BRK during which an IRQ was pending. -/
def irqAtBrk : State :=
  { irqAsserted.setIrqOpen true with cpu := { irqAsserted.cpu with flags := { irqAsserted.cpu.flags with i := true } } }

/-- A latched NMI; an IRQ with I clear; I set; no request at all; an IRQ pending in BRK. -/
theorem witness_BoundaryTakesNmiThenIrq :
    (nmiLatched.cpu.cyclesLeft = 0 ∧ nmiLatched.bus.dma.active = false ∧ nmiLatched.cpu.nmiPending = true) ∧
    (irqAsserted.cpu.cyclesLeft = 0 ∧ irqAsserted.bus.dma.active = false ∧ irqAsserted.cpu.nmiPending = false ∧
      irqAsserted.cpu.flags.i = false ∧ irqAsserted.bus.irq.asserted = true) ∧
    (quiet.cpu.cyclesLeft = 0 ∧ quiet.bus.dma.active = false ∧ quiet.cpu.nmiPending = false ∧ quiet.cpu.flags.i = true ∧
      quiet.bus.irqOpen = false) ∧
    ((start (withP 0x00#8) []).cpu.nmiPending = false ∧ (start (withP 0x00#8) []).bus.irq.asserted = false) ∧
    (irqAtBrk.cpu.cyclesLeft = 0 ∧ irqAtBrk.bus.dma.active = false ∧ irqAtBrk.cpu.nmiPending = false ∧
      irqAtBrk.bus.irq.asserted = true ∧ irqAtBrk.cpu.flags.i = true ∧ irqAtBrk.bus.irqOpen = true) := by decide

theorem witness_DmaFreezesCpu : (dmaStarted 0x02#8 false).bus.dma.active = true := by decide

/-- The highest page of working RAM and its mirrors, with and without the alignment cycle. -/
theorem witness_OamDmaCopiesPage (align : Bool) : (dmaStarted 0x1F#8 align).Inv ∧ (dmaStarted 0x1F#8 align).bus.dma.active = true ∧
    (dmaStarted 0x1F#8 align).bus.dma.index = 0 ∧ (dmaStarted 0x1F#8 align).bus.dma.page.toNat < 0x20 ∧
    (dmaStarted 0x1F#8 align).bus.dma.align = align := ⟨dmaStarted_inv _ _, rfl, rfl, (by decide : (0x1F#8).toNat < 0x20), rfl⟩

theorem witness_EveryStepGoesOn : ∃ t, step owing = .next t := ⟨_, rfl⟩
theorem witness_StepKeepsInvariant : owing.Inv ∧ ∃ t, step owing = .next t :=
  ⟨⟨quiet_inv.bus, by decide⟩, _, rfl⟩

/-- The two ends of working RAM, and two mirrors of one location. -/
theorem witness_RamIsMirrored : quiet.bus.mem.wf = true ∧ (0x0000#16).toNat < 0x2000 ∧ (0x1FFF#16).toNat < 0x2000 ∧
    (0x1FFF#16).toNat % 0x800 = (0x07FF#16).toNat % 0x800 ∧ (0x0000#16).toNat % 0x800 ≠ (0x1FFF#16).toNat % 0x800 := by decide

/-- The ends of PRG-RAM, of PRG-ROM and of the unused block. -/
theorem witness_CartridgeAndUnusedBlock : quiet.bus.mem.wf = true ∧
    quiet.bus.cart.kindAt 0x6000 = .prgRam ∧ quiet.bus.cart.kindAt 0x7FFF = .prgRam ∧
    quiet.bus.cart.kindAt 0x8000 = .prgRom ∧ quiet.bus.cart.kindAt 0xFFFF = .prgRom ∧
    0x4018 ≤ (0x4018#16).toNat ∧ (0x401F#16).toNat < 0x4020 := by decide

theorem witness_PpuRegistersAreMirrored : 0x2000 ≤ (0x2000#16).toNat ∧ (0x3FFF#16).toNat < 0x4000 := by decide
theorem witness_PpuStatusReadClears : quiet.bus.ppu.spritesOpen = false := by decide

theorem witness_PpuPorts : quiet.bus.ppu.oam.wf = true ∧ quiet.bus.ppu.toggle = false ∧
    ((quiet.bus.write 0x2006#16 0x3E#8).write 0x2006#16 0xFF#8).ppu.rendering = false ∧
    ((quiet.bus.write 0x2006#16 0x3E#8).write 0x2006#16 0xFF#8).ppu.v.toNat < 0x3F00 := by decide

/-- Palette addresses: both ends, an alias pair, and two entries that are none. -/
theorem witness_PpuPorts_palette : quiet.bus.ppu.palette.wf = true ∧ 0x3F00 ≤ (0x3F00#16).toNat ∧ (0x3FFF#16).toNat < 0x4000 ∧
    (0x3F10#16).toNat % 4 = 0 ∧ (0x3F10#16).toNat % 16 = (0x3F00#16).toNat % 16 ∧
    ¬ ((0x3F11#16).toNat % 32 = (0x3F01#16).toNat % 32 ∨
      ((0x3F11#16).toNat % 4 = 0 ∧ (0x3F11#16).toNat % 16 = (0x3F01#16).toNat % 16)) := by decide

theorem witness_ApuStatusPort : quiet.bus.apu.lengths.pulse1 = false ∧ quiet.bus.apu.lengths.pulse2 = false ∧
    quiet.bus.apu.lengths.triangle = false ∧ quiet.bus.apu.lengths.noise = false ∧
    (0x00#8).getLsbD 0 = false ∧ (0x00#8).getLsbD 1 = false ∧ (0x00#8).getLsbD 2 = false ∧ (0x00#8).getLsbD 3 = false ∧
    (0x00#8).getLsbD 4 = false := by decide

/-- A write that starts an idle channel, a running channel, and the ends of the register file. -/
theorem witness_ApuStatusPort_writes : (0x10#8).getLsbD 4 = true ∧ quiet.bus.apu.dmcLeft = 0 ∧
    ({ quiet.bus.apu with dmcLeft := 1 } : Apu).dmcLeft ≠ 0 ∧ quiet.bus.apu.regs.wf = true ∧
    0x00 < 0x18 ∧ 0x17 < 0x18 ∧ 0x17 ≠ 0x14 ∧ 0x17 ≠ 0x16 := by decide

theorem witness_ControllerReadsButtonsInOrder : ({ quiet.bus with strobe := true } : Bus).strobe = true := rfl

theorem witness_DeviceInterruptSources : ({ Ppu.reset with scanline := 261, dot := 1 } : Ppu).scanline = 261 ∧
    ({ Ppu.reset with scanline := 261, dot := 1 } : Ppu).dot = 1 := by decide

/-- A frame's first dot, in an even frame and in an odd one with rendering enabled; a cartridge that raises no IRQ; a sample that
loops and one that does not. -/
theorem witness_DeviceInterruptSources_counters : Ppu.reset.scanline = 0 ∧ Ppu.reset.dot = 0 ∧ Ppu.reset.oddFrame = false ∧
    ({ Ppu.reset with oddFrame := true, mask := 0x10#8 } : Ppu).mask.getLsbD 4 = true ∧ quiet.bus.cart.irqCapable = false ∧
    ({ quiet.bus.apu with regs := [(0x10, 0x40#8)] } : Apu).reg 0x10 = 0x40#8 ∧ (0x40#8).getLsbD 6 = true ∧
    (quiet.bus.apu.reg 0x10).getLsbD 6 = false := by decide

/-- Line 261, dot 339, with background rendering enabled. -/
def nearFrameEnd (odd : Bool) : Ppu := { Ppu.reset with scanline := 261, dot := 339, oddFrame := odd, mask := 0x08#8 }

/-- R271: an even frame goes on from line 261, dot 339 to dot 340, an odd one with rendering enabled to line 0. -/
theorem test_skipped_dot : ((nearFrameEnd false).nextDot.scanline, (nearFrameEnd false).nextDot.dot,
    (nearFrameEnd true).nextDot.scanline, (nearFrameEnd true).nextDot.dot) = (261, 340, 0, 0) := by decide

/-- No byte, one byte and two bytes of a sample left. -/
theorem witness_DeviceInterruptSources_dmc : quiet.bus.apu.dmcLeft = 0 ∧
    ({ quiet.bus.apu with dmcLeft := 1 } : Apu).dmcLeft = 1 ∧ 1 < ({ quiet.bus.apu with dmcLeft := 2 } : Apu).dmcLeft := by decide

/-- Both ends of working RAM; a hard reset; a vector in ROM. -/
theorem witness_ResetState :
    let t := quiet.resetTo true
    (0x0000#16).toNat < 0x2000 ∧ (0x1FFF#16).toNat < 0x2000 ∧ (true || quiet.bus.params.softResetClearsRam) = true ∧
    t.bus.peek 0xFFFC#16 = some 0x00#8 ∧ t.bus.peek 0xFFFD#16 = some 0x00#8 := by decide

/-- A soft reset with the parameter false. -/
theorem witness_ResetState_soft :
    (false || ({ quiet.bus.params with softResetClearsRam := false } : Params).softResetClearsRam) = false := by decide

/-- Indexing that stays in the page and indexing that leaves it; a form that owes no penalty. -/
theorem witness_EffectiveAddresses : (0xF0#8).toNat + (0x0F#8).toNat < 0x100 ∧ ¬ (0xF0#8).toNat + (0x10#8).toNat < 0x100 ∧
    Mem.izx 0xFF#8 ∈ [Mem.zp 0xFF#8, .zpx 0xFF#8, .zpy 0xFF#8, .abs 0xFFFF#16, .izx 0xFF#8] := by decide

end Sys2Proof.Tests
end

section
/-! PROOFS. The meaning of each instruction as one next state. The instructions come in a few shapes (an operand read, a store, a
read-modify-write, a branch, work on the CPU record alone); each shape is named, and one lemma per instruction says which it
has. The proofs about all instructions split on the constructor and cite these lemmas. -/

namespace Sys2Proof.Machine

/-! ## The shapes -/

/-- The state after reading an operand: `f` makes the CPU record from the old one, the byte read and the cycles owed. -/
def State.afterRead (src : Src) (f : Cpu → Byte → Nat → Cpu) (s : State) : State :=
  { cpu := f s.cpu (operandByte src s) (readCost src s), bus := busAfterOperand src s }

/-- The state after storing `v` at a memory operand. -/
def State.afterStore (m : Mem) (v : Byte) (s : State) : State :=
  { cpu := { s.cpu with cyclesLeft := storeCycles m }, bus := busAfterStore m v s }

/-- The state after a read-modify-write: `result` makes the byte written from the byte read and the carry, `f` the CPU record
from the old one, the byte read, the byte written and the cycles owed. -/
def State.afterModify (m : Mem) (result : Byte → Bool → Byte) (f : Cpu → Byte → Byte → Nat → Cpu) (s : State) : State :=
  let v := operandByte (.mem m) s
  let w := result v s.cpu.flags.c
  { cpu := f s.cpu v w (rmwCycles m), bus := busAfterModify m w s }

/-- The state after an unstable store of `src`: in `degraded` mode the cycles alone (R233), in `nmos` mode one write, and what
`f` does to the CPU record (R229 to R232, R234). -/
def State.afterUnstable (m : Mem) (src : Byte) (f : Cpu → Cpu) (s : State) : State :=
  match s.bus.params.unstableOps with
  | .degraded => s.setCycles (storeCycles m)
  | .nmos =>
    { cpu := { f s.cpu with cyclesLeft := storeCycles m }
      bus := s.bus.write (unstableAddr m (unstableByte m src s) s) (unstableByte m src s) }

section Meanings

variable (s : State)

/-! ## One operand read -/

@[simp] theorem exec_lda (src : Src) : exec (.lda src) s =
    .next (s.afterRead src fun c m n => { c with a := m }.resultNZ m n) := by
  simp only [exec, execLda, State.readSrc_eq]; rfl

@[simp] theorem exec_ldx (src : Src) : exec (.ldx src) s =
    .next (s.afterRead src fun c m n => { c with x := m }.resultNZ m n) := by
  simp only [exec, execLdx, State.readSrc_eq]; rfl

@[simp] theorem exec_ldy (src : Src) : exec (.ldy src) s =
    .next (s.afterRead src fun c m n => { c with y := m }.resultNZ m n) := by
  simp only [exec, execLdy, State.readSrc_eq]; rfl

@[simp] theorem exec_adc (src : Src) : exec (.adc src) s = .next (s.afterRead src fun c m n => c.added m c.flags.c n) := by
  simp only [exec, execAdc, State.readSrc_eq]; rfl

@[simp] theorem exec_sbc (src : Src) : exec (.sbc src) s =
    .next (s.afterRead src fun c m n => c.added (m ^^^ 0xFF#8) c.flags.c n) := by
  simp only [exec, execSbc, State.readSrc_eq]; rfl

@[simp] theorem exec_and (src : Src) : exec (.and src) s =
    .next (s.afterRead src fun c m n => { c with a := c.a &&& m }.resultNZ (c.a &&& m) n) := by
  simp only [exec, execAnd, State.readSrc_eq]; rfl

@[simp] theorem exec_ora (src : Src) : exec (.ora src) s =
    .next (s.afterRead src fun c m n => { c with a := c.a ||| m }.resultNZ (c.a ||| m) n) := by
  simp only [exec, execOra, State.readSrc_eq]; rfl

@[simp] theorem exec_eor (src : Src) : exec (.eor src) s =
    .next (s.afterRead src fun c m n => { c with a := c.a ^^^ m }.resultNZ (c.a ^^^ m) n) := by
  simp only [exec, execEor, State.readSrc_eq]; rfl

@[simp] theorem exec_cmp (src : Src) : exec (.cmp src) s = .next (s.afterRead src fun c m n => c.compared c.a m n) := by
  simp only [exec, execCmp, State.readSrc_eq]; rfl

@[simp] theorem exec_cpx (src : Src) : exec (.cpx src) s = .next (s.afterRead src fun c m n => c.compared c.x m n) := by
  simp only [exec, execCpx, State.readSrc_eq]; rfl

@[simp] theorem exec_cpy (src : Src) : exec (.cpy src) s = .next (s.afterRead src fun c m n => c.compared c.y m n) := by
  simp only [exec, execCpy, State.readSrc_eq]; rfl

@[simp] theorem exec_bit (m : Mem) : exec (.bit m) s = .next (s.afterRead (.mem m) fun c v n =>
    { c with flags := { c.flags with z := decide (c.a &&& v = 0#8), n := v.getLsbD 7, v := v.getLsbD 6 }, cyclesLeft := n }) := by
  simp only [exec, execBit, State.readSrc_eq]; rfl

@[simp] theorem exec_lax (m : Mem) : exec (.lax m) s =
    .next (s.afterRead (.mem m) fun c v n => { c with a := v, x := v }.resultNZ v n) := by
  simp only [exec, execLax, State.readSrc_eq]; rfl

@[simp] theorem exec_las (w : Addr) : exec (.las w) s = .next (s.afterRead (.mem (.aby w)) fun c m n =>
    { c with a := m &&& c.sp, x := m &&& c.sp, sp := m &&& c.sp }.resultNZ (m &&& c.sp) n) := by
  simp only [exec, execLas, State.readSrc_eq]; rfl

/-! ## One store -/

@[simp] theorem exec_sta (m : Mem) : exec (.sta m) s = .next (s.afterStore m s.cpu.a) := by
  simp only [exec, execSta, State.store_eq]; rfl

@[simp] theorem exec_stx (m : Mem) : exec (.stx m) s = .next (s.afterStore m s.cpu.x) := by
  simp only [exec, execStx, State.store_eq]; rfl

@[simp] theorem exec_sty (m : Mem) : exec (.sty m) s = .next (s.afterStore m s.cpu.y) := by
  simp only [exec, execSty, State.store_eq]; rfl

@[simp] theorem exec_sax (m : Mem) : exec (.sax m) s = .next (s.afterStore m (s.cpu.a &&& s.cpu.x)) := by
  simp only [exec, execSax, State.store_eq]; rfl

/-! ## One read and one write at the same address -/

@[simp] theorem exec_inc (m : Mem) : exec (.inc m) s =
    .next (s.afterModify m (fun v _ => v + 1) fun c _ r n => c.resultNZ r n) := by
  simp only [exec, execInc, State.modify_eq]; rfl

@[simp] theorem exec_dec (m : Mem) : exec (.dec m) s =
    .next (s.afterModify m (fun v _ => v - 1) fun c _ r n => c.resultNZ r n) := by
  simp only [exec, execDec, State.modify_eq]; rfl

@[simp] theorem exec_asl_mem (m : Mem) : exec (.asl (.mem m)) s =
    .next (s.afterModify m (fun v _ => v <<< 1) fun c v r n => (c.withCarry (v.getLsbD 7)).resultNZ r n) := by
  simp only [exec, execAsl, State.shift, State.modify_eq]; rfl

@[simp] theorem exec_lsr_mem (m : Mem) : exec (.lsr (.mem m)) s =
    .next (s.afterModify m (fun v _ => v >>> 1) fun c v r n => (c.withCarry (v.getLsbD 0)).resultNZ r n) := by
  simp only [exec, execLsr, State.shift, State.modify_eq]; rfl

@[simp] theorem exec_rol_mem (m : Mem) : exec (.rol (.mem m)) s =
    .next (s.afterModify m (fun v c => v.extractLsb' 0 7 ++ BitVec.ofBool c)
      fun c v r n => (c.withCarry (v.getLsbD 7)).resultNZ r n) := by
  simp only [exec, execRol, State.shift, State.modify_eq]; rfl

@[simp] theorem exec_ror_mem (m : Mem) : exec (.ror (.mem m)) s =
    .next (s.afterModify m (fun v c => BitVec.ofBool c ++ v.extractLsb' 1 7)
      fun c v r n => (c.withCarry (v.getLsbD 0)).resultNZ r n) := by
  simp only [exec, execRor, State.shift, State.modify_eq]; rfl

@[simp] theorem exec_slo (m : Mem) : exec (.slo m) s = .next (s.afterModify m (fun v _ => v <<< 1)
    fun c v r n => ({ c with a := c.a ||| r }.withCarry (v.getLsbD 7)).resultNZ (c.a ||| r) n) := by
  simp only [exec, execSlo, State.modify_eq]; rfl

@[simp] theorem exec_rla (m : Mem) : exec (.rla m) s =
    .next (s.afterModify m (fun v c => v.extractLsb' 0 7 ++ BitVec.ofBool c)
      fun c v r n => ({ c with a := c.a &&& r }.withCarry (v.getLsbD 7)).resultNZ (c.a &&& r) n) := by
  simp only [exec, execRla, State.modify_eq]; rfl

@[simp] theorem exec_sre (m : Mem) : exec (.sre m) s = .next (s.afterModify m (fun v _ => v >>> 1)
    fun c v r n => ({ c with a := c.a ^^^ r }.withCarry (v.getLsbD 0)).resultNZ (c.a ^^^ r) n) := by
  simp only [exec, execSre, State.modify_eq]; rfl

@[simp] theorem exec_rra (m : Mem) : exec (.rra m) s =
    .next (s.afterModify m (fun v c => BitVec.ofBool c ++ v.extractLsb' 1 7) fun c v r n => c.added r (v.getLsbD 0) n) := by
  simp only [exec, execRra, State.modify_eq]; rfl

@[simp] theorem exec_dcp (m : Mem) : exec (.dcp m) s =
    .next (s.afterModify m (fun v _ => v - 1) fun c _ r n => c.compared c.a r n) := by
  simp only [exec, execDcp, State.modify_eq]; rfl

@[simp] theorem exec_isc (m : Mem) : exec (.isc m) s =
    .next (s.afterModify m (fun v _ => v + 1) fun c _ r n => c.added (r ^^^ 0xFF#8) c.flags.c n) := by
  simp only [exec, execIsc, State.modify_eq]; rfl

/-! ## The undocumented NOPs and the opcodes that the mode of R9 decides -/

@[simp] theorem exec_nopUndoc_mem (op : Byte) (m : Mem) : exec (.nopUndoc op (.mem m)) s =
    .next (s.setCycles (readCost (.mem m) s)) := by
  simp only [exec, execNopUndoc, State.resolveRead_eq]; rfl

@[simp] theorem exec_ahx (m : Mem) : exec (.ahx m) s = .next (s.afterUnstable m (s.cpu.a &&& s.cpu.x) id) := by
  simp only [exec, execAhx, State.afterUnstable, State.degraded_eq, State.storeUnstable_eq]
  cases s.bus.params.unstableOps <;> rfl

@[simp] theorem exec_tas (w : Addr) : exec (.tas w) s =
    .next (s.afterUnstable (.aby w) (s.cpu.a &&& s.cpu.x) fun c => { c with sp := c.a &&& c.x }) := by
  simp only [exec, execTas, State.afterUnstable, State.degraded_eq, State.storeUnstable_eq, unstableAddr_setSP,
    unstableByte_setSP]
  cases s.bus.params.unstableOps <;> rfl

@[simp] theorem exec_shy (w : Addr) : exec (.shy w) s = .next (s.afterUnstable (.abx w) s.cpu.y id) := by
  simp only [exec, execShy, State.afterUnstable, State.degraded_eq, State.storeUnstable_eq]
  cases s.bus.params.unstableOps <;> rfl

@[simp] theorem exec_shx (w : Addr) : exec (.shx w) s = .next (s.afterUnstable (.aby w) s.cpu.x id) := by
  simp only [exec, execShx, State.afterUnstable, State.degraded_eq, State.storeUnstable_eq]
  cases s.bus.params.unstableOps <;> rfl

end Meanings

end Sys2Proof.Machine
end

section
/-! PROOFS. What every instruction leaves unchanged in the CPU record (R21 to R26) and of what BRK remembers (log 37). -/

namespace Sys2Proof.Machine

section Shapes

variable (s : State)

@[simp] theorem State.afterUnstable_id_cpu (m : Mem) (src : Byte) :
    (s.afterUnstable m src id).cpu = { s.cpu with cyclesLeft := storeCycles m } := by
  unfold State.afterUnstable; split <;> rfl

@[simp] theorem busAfterOperand_irqOpen (src : Src) : (busAfterOperand src s).irqOpen = s.bus.irqOpen := by
  cases src with
  | imm b => rfl
  | mem m => simp [busAfterOperand, State.resolve_bus]

@[simp] theorem State.afterRead_irqOpen (src : Src) (f : Cpu → Byte → Nat → Cpu) :
    (s.afterRead src f).bus.irqOpen = s.bus.irqOpen := busAfterOperand_irqOpen s src

@[simp] theorem State.afterStore_irqOpen (m : Mem) (v : Byte) : (s.afterStore m v).bus.irqOpen = s.bus.irqOpen := by
  simp [State.afterStore, busAfterStore, State.resolve_bus]

@[simp] theorem State.afterModify_irqOpen (m : Mem) (result : Byte → Bool → Byte) (f : Cpu → Byte → Byte → Nat → Cpu) :
    (s.afterModify m result f).bus.irqOpen = s.bus.irqOpen := by
  simp [State.afterModify, busAfterModify]

@[simp] theorem State.afterUnstable_irqOpen (m : Mem) (src : Byte) (f : Cpu → Cpu) :
    (s.afterUnstable m src f).bus.irqOpen = s.bus.irqOpen := by
  unfold State.afterUnstable; split <;> simp

@[simp] theorem State.push_irqOpen (v : Byte) : (s.push v).bus.irqOpen = s.bus.irqOpen := Bus.write_irqOpen s.bus _ v

@[simp] theorem State.pull_irqOpen : s.pull.2.bus.irqOpen = s.bus.irqOpen := Bus.read_irqOpen s.bus _

@[simp] theorem State.pushWord_irqOpen (w : Addr) : (s.pushWord w).bus.irqOpen = s.bus.irqOpen := by
  simp [State.pushWord]

@[simp] theorem State.pullWord_irqOpen : s.pullWord.2.bus.irqOpen = s.bus.irqOpen := by
  simp [State.pullWord]

@[simp] theorem State.enterHandler_irqOpen (ret vector : Addr) (b : Bool) :
    (s.enterHandler ret vector b).bus.irqOpen = s.bus.irqOpen := by
  simp [State.enterHandler_eq]

@[simp] theorem State.leaveHandler_irqOpen : s.leaveHandler.bus.irqOpen = s.bus.irqOpen := by
  simp [State.leaveHandler]

@[simp] theorem State.jumpTarget_irqOpen (t : Target) : (s.jumpTarget t).2.bus.irqOpen = s.bus.irqOpen := by
  cases t <;> simp [State.jumpTarget]

end Shapes

/-- The CPU record `c` with the registers and flags that `i` is listed as writing, and the cycles owed, taken from `c'`. -/
def Cpu.withListed (i : Instr) (c c' : Cpu) : Cpu where
  a := bif writesA i then c'.a else c.a
  x := bif writesX i then c'.x else c.x
  y := bif writesY i then c'.y else c.y
  sp := bif writesSP i then c'.sp else c.sp
  pc := bif writesPC i then c'.pc else c.pc
  flags :=
    { n := bif writesNZ i then c'.flags.n else c.flags.n
      v := bif writesV i then c'.flags.v else c.flags.v
      d := bif writesD i then c'.flags.d else c.flags.d
      i := bif writesI i then c'.flags.i else c.flags.i
      z := bif writesNZ i then c'.flags.z else c.flags.z
      c := bif writesC i then c'.flags.c else c.flags.c }
  irqPending := c.irqPending
  nmiPending := c.nmiPending
  cyclesLeft := c'.cyclesLeft

/-- Every instruction answers a next state; its CPU record is the old one but for what the instruction is listed as writing, and
BRK alone writes `irqOpen`, with the IRQ level. -/
theorem exec_framed (i : Instr) (s : State) : ∃ t, exec i s = .next t ∧ t.cpu = s.cpu.withListed i t.cpu ∧
    t.bus.irqOpen = if i = .brk then s.cpu.irqPending else s.bus.irqOpen := by
  cases i
  case lda | ldx | ldy | adc | sbc | and | ora | eor | cmp | cpx | cpy | bit | lax | las =>
    simp only [exec_lda, exec_ldx, exec_ldy, exec_adc, exec_sbc, exec_and, exec_ora, exec_eor, exec_cmp, exec_cpx, exec_cpy,
      exec_bit, exec_lax, exec_las, Host.Outcome.next.injEq, exists_eq_left']
    exact ⟨rfl, by simp⟩
  case sta | stx | sty | sax =>
    simp only [exec_sta, exec_stx, exec_sty, exec_sax, Host.Outcome.next.injEq, exists_eq_left']
    exact ⟨rfl, by simp⟩
  case inc | dec | slo | rla | sre | rra | dcp | isc =>
    simp only [exec_inc, exec_dec, exec_slo, exec_rla, exec_sre, exec_rra, exec_dcp, exec_isc, Host.Outcome.next.injEq,
      exists_eq_left']
    exact ⟨rfl, by simp⟩
  case asl d | lsr d | rol d | ror d =>
    cases d
    case acc => exact ⟨_, rfl, rfl, by simp [State.shift]⟩
    case mem m =>
      simp only [exec_asl_mem, exec_lsr_mem, exec_rol_mem, exec_ror_mem, Host.Outcome.next.injEq, exists_eq_left']
      exact ⟨rfl, by simp⟩
  case ahx | shy | shx =>
    simp only [exec_ahx, exec_shy, exec_shx, Host.Outcome.next.injEq, exists_eq_left']
    exact ⟨by rw [State.afterUnstable_id_cpu]; rfl, by simp⟩
  case tas w =>
    refine ⟨_, exec_tas s w, ?_, by simp⟩
    unfold State.afterUnstable
    split <;> rfl
  case xaa | lxa =>
    simp only [exec, execXaa, execLxa]
    split <;> exact ⟨_, rfl, rfl, by simp⟩
  case bpl | bmi | bvc | bvs | bcc | bcs | bne | beq =>
    simp only [exec, execBpl, execBmi, execBvc, execBvs, execBcc, execBcs, execBne, execBeq, State.branch_eq]
    refine ⟨_, rfl, ?_⟩
    split <;> exact ⟨rfl, by simp⟩
  case nopUndoc op arg =>
    cases arg
    case mem m => exact ⟨_, exec_nopUndoc_mem s op m, rfl, by simp⟩
    case imp | imm => exact ⟨_, rfl, rfl, by simp⟩
  case jmp t => cases t <;> exact ⟨_, rfl, rfl, by simp⟩
  -- What is left works on the CPU record and the stack alone, with no operand to split on.
  all_goals exact ⟨_, rfl, rfl, by simp⟩

end Sys2Proof.Machine
end

section
/-! PROOFS. The register frame and the flag frame of every instruction. -/

namespace Sys2Proof.Machine

/-- What an instruction that answers `t` keeps. -/
theorem frame_of_exec {i : Instr} {s t : State} (h : exec i s = .next t) : t.cpu = s.cpu.withListed i t.cpu ∧
    t.bus.irqOpen = if i = .brk then s.cpu.irqPending else s.bus.irqOpen := by
  obtain ⟨u, hu, hframe⟩ := exec_framed i s
  obtain rfl : u = t := Host.Outcome.next.inj (hu.symm.trans h)
  exact hframe

/-- Settles O38: `withListed` takes a register from the new record only where the instruction is listed as writing it. -/
theorem registerFrame : Obligations.RegisterFrame := by
  intro i s t h
  obtain ⟨hcpu, hopen⟩ := frame_of_exec h
  refine ⟨?_, ?_, ?_, ?_, ?_, by rw [hcpu]; rfl, by rw [hcpu]; rfl, hopen⟩ <;> rw [hcpu] <;> intro hw <;>
    simp [Cpu.withListed, hw]

/-- Settles O39, likewise for the flags. -/
theorem flagFrame : Obligations.FlagFrame := by
  intro i s t h
  obtain ⟨hcpu, -⟩ := frame_of_exec h
  refine ⟨?_, ?_, ?_, ?_, ?_⟩ <;> rw [hcpu] <;> intro hw <;> simp [Cpu.withListed, hw]

end Sys2Proof.Machine
end

section
/-! PROOFS. Flipping the decimal flag commutes with every instruction but the status pushes and the writers of D. -/

namespace Sys2Proof.Machine

/-- The CPU record with D flipped. -/
def Cpu.flipD (c : Cpu) : Cpu := { c with flags := { c.flags with d := !c.flags.d } }

/-- The state with D flipped. -/
def State.flipD (s : State) : State := { s with cpu := s.cpu.flipD }

theorem State.flipD_eq_setFlags (s : State) : s.flipD = s.setFlags { s.cpu.flags with d := !s.cpu.flags.d } := rfl

@[simp] theorem State.flipD_bus (s : State) : s.flipD.bus = s.bus := rfl

section Operands

/-! The flags do not enter the resolver, so they change neither an operand nor where it is. -/

variable (s : State) (f : Flags)

theorem State.resolve_setFlags (m : Mem) :
    (s.setFlags f).resolve m = ((s.resolve m).1, (s.resolve m).2.setFlags f) := by cases m <;> rfl

@[simp] theorem operandByte_setFlags (src : Src) : operandByte src (s.setFlags f) = operandByte src s := by
  cases src with
  | imm b => rfl
  | mem m => simp [operandByte, State.resolve_setFlags]

@[simp] theorem busAfterOperand_setFlags (src : Src) : busAfterOperand src (s.setFlags f) = busAfterOperand src s := by
  cases src with
  | imm b => rfl
  | mem m => simp [busAfterOperand, State.resolve_setFlags]

@[simp] theorem readCost_setFlags (src : Src) : readCost src (s.setFlags f) = readCost src s := by
  cases src with
  | imm b => rfl
  | mem m => simp [readCost, pagePenalty, State.resolve_setFlags]

@[simp] theorem busAfterStore_setFlags (m : Mem) (v : Byte) : busAfterStore m v (s.setFlags f) = busAfterStore m v s := by
  simp [busAfterStore, State.resolve_setFlags]

@[simp] theorem busAfterModify_setFlags (m : Mem) (v : Byte) : busAfterModify m v (s.setFlags f) = busAfterModify m v s := by
  simp [busAfterModify, State.resolve_setFlags]

@[simp] theorem unstableByte_setFlags (m : Mem) (v : Byte) : unstableByte m v (s.setFlags f) = unstableByte m v s := by
  simp [unstableByte, State.resolve_setFlags]

@[simp] theorem unstableAddr_setFlags (m : Mem) (v : Byte) : unstableAddr m v (s.setFlags f) = unstableAddr m v s := by
  simp [unstableAddr, State.resolve_setFlags]

end Operands

section Shapes

/-! Each shape commutes with flipping D if what it does to the CPU record does. -/

variable (s : State)

theorem State.afterRead_flipD (src : Src) {f : Cpu → Byte → Nat → Cpu} (hf : ∀ c m n, f c.flipD m n = (f c m n).flipD) :
    s.flipD.afterRead src f = (s.afterRead src f).flipD := by
  simp only [State.afterRead, State.flipD_eq_setFlags, operandByte_setFlags, readCost_setFlags, busAfterOperand_setFlags]
  exact State.ext_parts (hf _ _ _) rfl

theorem State.afterStore_flipD (m : Mem) (v : Byte) : s.flipD.afterStore m v = (s.afterStore m v).flipD := by
  simp only [State.afterStore, State.flipD_eq_setFlags, busAfterStore_setFlags]
  rfl

theorem State.afterModify_flipD (m : Mem) (result : Byte → Bool → Byte) {f : Cpu → Byte → Byte → Nat → Cpu}
    (hf : ∀ c v w n, f c.flipD v w n = (f c v w n).flipD) :
    s.flipD.afterModify m result f = (s.afterModify m result f).flipD := by
  simp only [State.afterModify, State.flipD_eq_setFlags, operandByte_setFlags, busAfterModify_setFlags]
  exact State.ext_parts (hf _ _ _ _) rfl

theorem State.afterUnstable_flipD (m : Mem) (src : Byte) {f : Cpu → Cpu} (hf : ∀ c, f c.flipD = (f c).flipD) :
    s.flipD.afterUnstable m src f = (s.afterUnstable m src f).flipD := by
  unfold State.afterUnstable
  simp only [State.flipD_bus]
  cases s.bus.params.unstableOps with
  | degraded => rfl
  | nmos =>
    simp only [State.flipD_eq_setFlags, unstableAddr_setFlags, unstableByte_setFlags]
    exact State.ext_parts (congrArg (fun c : Cpu => { c with cyclesLeft := storeCycles m }) (hf s.cpu)) rfl

theorem State.branch_flipD (cond : Bool) (off : Byte) : s.flipD.branch cond off = (s.branch cond off).flipD := by
  rw [State.branch_eq, State.branch_eq]
  cases cond <;> rfl

end Shapes

/-- Settles O24: every shape of instruction but the status pushes commutes with flipping D. -/
theorem decimalFlagIsInert : Obligations.DecimalFlagIsInert := by
  intro i s hD hpush
  show exec i s.flipD = mapNext State.flipD (exec i s)
  cases i
  case lda | ldx | ldy | adc | sbc | and | ora | eor | cmp | cpx | cpy | bit | lax | las =>
    simp only [exec_lda, exec_ldx, exec_ldy, exec_adc, exec_sbc, exec_and, exec_ora, exec_eor, exec_cmp, exec_cpx, exec_cpy,
      exec_bit, exec_lax, exec_las]
    exact congrArg Host.Outcome.next (s.afterRead_flipD _ fun _ _ _ => rfl)
  case sta | stx | sty | sax =>
    simp only [exec_sta, exec_stx, exec_sty, exec_sax]
    exact congrArg Host.Outcome.next (s.afterStore_flipD _ _)
  case inc | dec | slo | rla | sre | rra | dcp | isc =>
    simp only [exec_inc, exec_dec, exec_slo, exec_rla, exec_sre, exec_rra, exec_dcp, exec_isc]
    exact congrArg Host.Outcome.next (s.afterModify_flipD _ _ fun _ _ _ _ => rfl)
  case asl d | lsr d | rol d | ror d =>
    cases d
    case acc => rfl
    case mem m =>
      simp only [exec_asl_mem, exec_lsr_mem, exec_rol_mem, exec_ror_mem]
      exact congrArg Host.Outcome.next (s.afterModify_flipD _ _ fun _ _ _ _ => rfl)
  case ahx | tas | shy | shx =>
    simp only [exec_ahx, exec_tas, exec_shy, exec_shx]
    exact congrArg Host.Outcome.next (s.afterUnstable_flipD _ _ fun _ => rfl)
  case xaa | lxa =>
    simp only [exec, execXaa, execLxa, State.flipD_bus]
    split <;> rfl
  case bpl | bmi | bvc | bvs | bcc | bcs | bne | beq =>
    exact congrArg Host.Outcome.next (s.branch_flipD _ _)
  case nopUndoc op arg =>
    cases arg
    case mem m =>
      rw [exec_nopUndoc_mem, exec_nopUndoc_mem, State.flipD_eq_setFlags, readCost_setFlags]
      rfl
    case imp | imm => rfl
  case jmp t => cases t <;> rfl
  case php | brk | nmi | irq => exact absurd hpush (by simp)
  case cld | sed | plp | rti => exact nomatch hD
  -- What is left works on the CPU record and the stack alone and does not read D.
  all_goals rfl

end Sys2Proof.Machine
end

section
/-! PROOFS. The adder in numbers (R29). -/

namespace Sys2Proof.Machine

/-- The sign bit of a byte, from its unsigned value. -/
theorem getLsbD_seven (x : Byte) : x.getLsbD 7 = decide (128 ≤ x.toNat) := BitVec.msb_eq_decide x

/-- The signed value of a byte, from its unsigned value. -/
theorem toInt_eq_of_toNat (x : Byte) : x.toInt = if 128 ≤ x.toNat then (x.toNat : Int) - 256 else x.toNat := by
  rw [BitVec.toInt_eq_msb_cond, BitVec.msb_eq_decide]
  simp

/-- The sign bit of the low byte of `a + m + k` differs from both operands' exactly if the signed sum is out of range. -/
theorem signs_differ_iff_overflow (a m : Byte) (k : Bool) :
    let r := BitVec.ofNat 8 (a.toNat + m.toNat + k.toNat)
    ((a ^^^ r) &&& (m ^^^ r)).getLsbD 7 = true ↔
      a.toInt + m.toInt + k.toNat < -128 ∨ 127 < a.toInt + m.toInt + k.toNat := by
  intro r
  have hr : r.toNat = (a.toNat + m.toNat + k.toNat) % 256 := BitVec.toNat_ofNat _ _
  have hk : k.toNat ≤ 1 := Bool.toNat_le k
  have := a.isLt
  have := m.isLt
  rw [BitVec.getLsbD_and, BitVec.getLsbD_xor, BitVec.getLsbD_xor]
  simp only [getLsbD_seven, toInt_eq_of_toNat, hr]
  by_cases ha : 128 ≤ a.toNat <;> by_cases hm : 128 ≤ m.toNat <;> simp [ha, hm] <;> omega

section Added

variable (c : Cpu) (m : Byte) (k : Bool) (n : Nat)

theorem Cpu.added_a_toNat : (c.added m k n).a.toNat = (c.a.toNat + m.toNat + k.toNat) % 256 := BitVec.toNat_ofNat _ _

theorem Cpu.added_carry_iff : (c.added m k n).flags.c = true ↔ 255 < c.a.toNat + m.toNat + k.toNat := decide_eq_true_iff

theorem Cpu.added_overflow_iff : (c.added m k n).flags.v = true ↔
    c.a.toInt + m.toInt + k.toNat < -128 ∨ 127 < c.a.toInt + m.toInt + k.toNat := signs_differ_iff_overflow c.a m k

theorem Cpu.added_zero_iff : (c.added m k n).flags.z = true ↔ (c.added m k n).a = 0#8 := decide_eq_true_iff

theorem Cpu.added_neg_iff : (c.added m k n).flags.n = true ↔ (c.added m k n).a.toInt < 0 := by
  rw [← decide_eq_true_iff (p := (c.added m k n).a.toInt < 0), ← BitVec.msb_eq_toInt]; rfl

end Added

/-! The complement of a byte, unsigned and signed. -/

theorem toNat_complement (m : Byte) : (m ^^^ 0xFF#8).toNat = 255 - m.toNat := by
  rw [show m ^^^ 0xFF#8 = ~~~m from BitVec.xor_allOnes, BitVec.toNat_not]

theorem toInt_complement (m : Byte) : (m ^^^ 0xFF#8).toInt = -m.toInt - 1 := by
  have := m.isLt
  rw [toInt_eq_of_toNat, toInt_eq_of_toNat, toNat_complement]
  split <;> split <;> omega

section Subtracted

/-! Adding the complement and the carry subtracts the operand and the borrow, `1 - k`. -/

variable (c : Cpu) (m : Byte) (k : Bool) (n : Nat)

theorem Cpu.added_complement_a : (c.added (m ^^^ 0xFF#8) k n).a = c.a - m - (1 - BitVec.ofNat 8 k.toNat) := by
  apply BitVec.eq_of_toNat_eq
  rw [Cpu.added_a_toNat, toNat_complement]
  cases k <;> simp <;> bv_omega

theorem Cpu.added_complement_carry_iff :
    (c.added (m ^^^ 0xFF#8) k n).flags.c = true ↔ m.toNat + (1 - k.toNat) ≤ c.a.toNat := by
  have := m.isLt
  have := Bool.toNat_le k
  rw [Cpu.added_carry_iff, toNat_complement]
  omega

theorem Cpu.added_complement_overflow_iff : (c.added (m ^^^ 0xFF#8) k n).flags.v = true ↔
    c.a.toInt - m.toInt - (1 - (k.toNat : Int)) < -128 ∨ 127 < c.a.toInt - m.toInt - (1 - (k.toNat : Int)) := by
  rw [Cpu.added_overflow_iff, toInt_complement]
  omega

end Subtracted

/-- Settles O10: ADC leaves the record `Cpu.added` of the operand, SBC that of its complement. -/
theorem adderFlagsAreOverflows : Obligations.AdderFlagsAreOverflows := by
  intro s src a m c
  exact
    ⟨⟨_, exec_adc s src, Cpu.added_a_toNat .., Cpu.added_carry_iff .., Cpu.added_overflow_iff .., Cpu.added_zero_iff ..,
      Cpu.added_neg_iff ..⟩,
    ⟨_, exec_sbc s src, Cpu.added_complement_a .., Cpu.added_complement_carry_iff .., Cpu.added_complement_overflow_iff ..,
      Cpu.added_zero_iff .., Cpu.added_neg_iff ..⟩⟩

end Sys2Proof.Machine
end

section
/-! PROOFS. The two pending inputs over a system cycle. -/

namespace Sys2Proof.Machine

/-- `exec` answers a next state with the pending inputs as they were. -/
theorem exec_keeps_pending (i : Instr) (s : State) : ∃ t, exec i s = .next t ∧
    t.cpu.irqPending = s.cpu.irqPending ∧ t.cpu.nmiPending = s.cpu.nmiPending := by
  obtain ⟨t, ht, hcpu, -⟩ := exec_framed i s
  exact ⟨t, ht, by rw [hcpu]; rfl, by rw [hcpu]; rfl⟩

/-- Skipping a byte moves PC as fetching it does. -/
theorem State.skipOrFetch_cpu (s : State) (ignored : Prop) [Decidable ignored] :
    (if ignored then s.skipByte else s.fetchByte).2.cpu = { s.cpu with pc := s.cpu.pc + 1 } := by
  split <;> rfl

/-- Fetching moves PC and nothing else of the CPU record (R14, R84). -/
theorem State.fetch_cpu (s : State) : s.fetch.2.cpu = { s.cpu with pc := s.fetch.2.cpu.pc } := by
  unfold State.fetch
  dsimp only
  split
  · rfl
  · dsimp only
    rw [State.skipOrFetch_cpu]
    rfl
  · rfl

theorem State.pastBrk_cpu (s : State) : s.pastBrk.cpu = s.cpu := by rw [State.pastBrk_eq]

/-- A boundary answers a next state with the IRQ level as it was and the NMI latch clear: either it was, or it is consumed. -/
theorem State.dispatch_pending (s : State) : ∃ t, s.dispatch = .next t ∧
    t.cpu.irqPending = s.cpu.irqPending ∧ t.cpu.nmiPending = false := by
  have hpast := s.pastBrk_cpu
  unfold State.dispatch
  split
  case isTrue =>
    obtain ⟨t, ht, hirq, hnmi⟩ := exec_keeps_pending .nmi s.pastBrk.consumeNmi
    exact ⟨t, ht, hirq.trans (by rw [← hpast]; rfl), hnmi⟩
  case isFalse hlatch =>
    have hclear : s.cpu.nmiPending = false := Bool.eq_false_iff.mpr hlatch
    split
    case isTrue =>
      obtain ⟨t, ht, hirq, hnmi⟩ := exec_keeps_pending .irq s.pastBrk
      exact ⟨t, ht, by rw [hirq, hpast], by rw [hnmi, hpast, hclear]⟩
    case isFalse =>
      obtain ⟨t, ht, hirq, hnmi⟩ := exec_keeps_pending s.pastBrk.fetch.1 s.pastBrk.fetch.2
      rw [State.fetch_cpu, hpast] at hirq hnmi
      exact ⟨t, ht, hirq, hnmi.trans hclear⟩

/-- A CPU step answers a next state with the IRQ level as it was; a boundary clears the NMI latch, and nothing else touches it. -/
theorem State.cpuStep_pending (s : State) : ∃ t, s.cpuStep = .next t ∧
    t.cpu.irqPending = s.cpu.irqPending ∧ t.cpu.nmiPending = (s.cpu.nmiPending && decide (s.cpu.cyclesLeft ≠ 0)) := by
  unfold State.cpuStep
  split
  case isTrue hzero =>
    obtain ⟨t, ht, hirq, hnmi⟩ := s.dispatch_pending
    exact ⟨t.countDown, by rw [ht]; rfl, hirq, hnmi.trans (by simp [hzero])⟩
  case isFalse howed => exact ⟨s.countDown, rfl, rfl, by simp [howed]; rfl⟩

@[simp] theorem State.beginCycle_dma (s : State) : s.beginCycle.bus.dma = s.bus.dma := by
  show s.bus.controllerLatchStep.dma = s.bus.dma
  rw [Bus.controllerLatchStep_eq]

/-- The part of a system cycle before the devices': a DMA half-cycle leaves the CPU record, else the CPU steps. -/
theorem step_pending (s : State) : ∃ c : State, step s = .next c.endCycle ∧ c.cpu.irqPending = s.bus.irq.asserted ∧
    c.cpu.nmiPending = (s.cpu.nmiPending && (s.bus.dma.active || decide (s.cpu.cyclesLeft ≠ 0))) := by
  show ∃ c : State, mapNext State.endCycle
    (if s.beginCycle.bus.dma.active = true then .next { s.beginCycle with bus := s.beginCycle.bus.dmaStep }
      else s.beginCycle.cpuStep) = .next c.endCycle ∧ _
  rw [State.beginCycle_dma]
  cases s.bus.dma.active with
  | true => exact ⟨_, rfl, rfl, (Bool.and_true _).symm⟩
  | false =>
    obtain ⟨c, hc, hirq, hnmi⟩ := s.beginCycle.cpuStep_pending
    exact ⟨c, by rw [if_neg Bool.false_ne_true, hc]; rfl, hirq, hnmi⟩

/-- Settles O45: the CPU's part by `step_pending`; each dot ORs its own NMI into the latch. -/
theorem pendingInputs : Obligations.PendingInputs := by
  refine ⟨fun s => ?_, fun c => rfl⟩
  obtain ⟨c, hc, hirq, hnmi⟩ := step_pending s
  exact ⟨c, hc, (congrArg Cpu.irqPending c.endCycle_keeps.cpu).trans hirq, hnmi⟩

end Sys2Proof.Machine
end

section
/-! PROOFS. The status byte and the state after reset. -/

namespace Sys2Proof.Machine

/-- Settles O37: both laws speak of eight bits, so every case is checked (seven bits in the first, nine in the second). -/
theorem statusByteRoundTrip : Obligations.StatusByteRoundTrip := by
  refine ⟨fun ⟨n, v, d, i, z, c⟩ b => ?_, by decide⟩
  revert n v d i z c b
  decide

theorem Ppu.reset_inv : Ppu.reset.Inv := ⟨rfl, rfl, rfl, rfl, Nat.zero_le _, Nat.zero_le _⟩

theorem Apu.reset_inv : Apu.reset.Inv := ⟨rfl, rfl, Nat.zero_le _⟩

theorem Bus.reset_inv : Bus.reset.Inv :=
  ⟨rfl, rfl, Nat.zero_le _, Nat.le_refl _, Nat.le_refl _, Ppu.reset_inv, Apu.reset_inv⟩

/-- Settles O50: every table is empty and every counter is 0, but for the pads' 8 bits left and the 7 cycles owed. -/
theorem resetMeetsInvariant : Obligations.ResetMeetsInvariant := ⟨Bus.reset_inv, Nat.le_refl _⟩

section Reset

variable (s : State) (hard : Bool)

/-- What storage holds after a reset is what it held before the vector was read. -/
theorem State.resetTo_peek (x : Addr) : (s.resetTo hard).bus.peek x = (s.bus.afterReset hard).peek x := by
  obtain ⟨d, hbus⟩ := s.resetTo_bus hard
  rw [hbus]
  rfl

/-- A byte of working RAM after a reset: 0 where the reset clears RAM (R291, R292), else as it was. -/
theorem State.resetTo_peek_ram {x : Addr} (hx : x.toNat < 0x2000) : (s.resetTo hard).bus.peek x =
    if hard || s.bus.params.softResetClearsRam then some 0 else s.bus.peek x := by
  have hkeep : ¬ 0x800 ≤ ramIndex x := Nat.not_le.mpr (ramIndex_lt x)
  rw [State.resetTo_peek, Bus.peek, Bus.peek, Bus.cell_ram _ hx, Bus.cell_ram _ hx]
  simp only [Bus.afterReset, Option.map_some]
  split
  · simp [Memory.clearRam, Memory.keepOnly_read, hkeep, Memory.unlisted]
  · rfl

/-- PC after a reset is the word at the reset vector, where that is storage (R37, R291). -/
theorem State.resetTo_pc {lo hi : Byte} (hlo : (s.resetTo hard).bus.peek 0xFFFC#16 = some lo)
    (hhi : (s.resetTo hard).bus.peek 0xFFFD#16 = some hi) : (s.resetTo hard).cpu.pc = word lo hi := by
  rw [State.resetTo_peek] at hlo hhi
  show (State.read16 resetVector { s with bus := s.bus.afterReset hard }).1 = word lo hi
  rw [State.read16_eq]
  show word ((s.bus.afterReset hard).read 0xFFFC#16).1 (((s.bus.afterReset hard).read 0xFFFC#16).2.read 0xFFFD#16).1 = _
  rw [Bus.read_of_peek hlo, Bus.read_of_peek hhi]

/-- The platform after a reset, but for storage, the cartridge and the host's buttons (R39, R270, D36). -/
theorem State.resetTo_devices :
    let b := (s.resetTo hard).bus
    b.irq = ⟨false, false, false⟩ ∧ b.dma = Dma.reset ∧ b.strobe = false ∧ b.pad1 = s.bus.pad1.afterReset ∧
      b.pad2 = s.bus.pad2.afterReset ∧ b.ppu = Ppu.reset ∧ b.apu = Apu.reset ∧ b.sysCycles = 0 := by
  obtain ⟨d, hbus⟩ := s.resetTo_bus hard
  rw [hbus]
  exact ⟨rfl, rfl, rfl, rfl, rfl, rfl, rfl, rfl⟩

end Reset

/-- The flags after a reset as a status byte (R37). -/
theorem Cpu.reset_status : Cpu.reset.flags.statusByte false = 0x24#8 := by decide

/-- The frame counter after a reset: 4-step mode, IRQ not inhibited (D36). -/
theorem Apu.reset_frameCounter : Apu.reset.fiveStep = false ∧ Apu.reset.irqInhibit = false := by decide

/-- Settles O59: the platform is `resetTo_devices`, storage `resetTo_peek_ram`, PC `resetTo_pc`; the CPU record is `Cpu.reset`. -/
theorem resetState : Obligations.ResetState := by
  intro s hard t
  obtain ⟨hirq, hdma, hstrobe, hpad1, hpad2, hppu, hapu, hcycles⟩ :
    t.bus.irq = ⟨false, false, false⟩ ∧ t.bus.dma = Dma.reset ∧ t.bus.strobe = false ∧ t.bus.pad1 = s.bus.pad1.afterReset ∧
      t.bus.pad2 = s.bus.pad2.afterReset ∧ t.bus.ppu = Ppu.reset ∧ t.bus.apu = Apu.reset ∧ t.bus.sysCycles = 0 :=
    s.resetTo_devices hard
  rw [hirq, hdma, hpad1, hpad2, hppu, hapu]
  exact ⟨rfl, rfl, rfl, rfl, Cpu.reset_status, rfl, rfl, rfl, rfl, rfl, hstrobe, rfl, rfl, hcycles, rfl, fun _ => rfl,
    Apu.reset_frameCounter.1, Apu.reset_frameCounter.2, rfl, fun _ => ⟨rfl, rfl⟩,
    fun x hx hclear => (s.resetTo_peek_ram hard hx).trans (if_pos hclear),
    fun x hx hkeep => (s.resetTo_peek_ram hard hx).trans (if_neg (Bool.eq_false_iff.mp hkeep)),
    fun _ _ => s.resetTo_pc hard⟩

end Sys2Proof.Machine
end

section
/-! PROOFS. What an instruction leaves unchanged behind the bus. -/

namespace Sys2Proof.Machine

/-- Settles O40: an instruction's bus is reached by reads and by writes at `storesAt` (`exec_does`). -/
theorem memoryFrame : Obligations.MemoryFrame := by
  intro i s t h
  have touched := (exec_does h).touched
  refine ⟨fun x hx => touched.peek hx, fun hnone => ?_, touched.keeps⟩
  rw [hnone] at touched
  have keeps := touched.readKeeps
  exact ⟨keeps.oam, keeps.palette, keeps.dma, keeps.strobe, keeps.apu⟩

end Sys2Proof.Machine
end

section
/-! PROOFS. The address map range by range (R54): what a read and a write are at working RAM, the PPU's registers, the unused
block and cartridge storage. -/

namespace Sys2Proof.Machine

/-- A read after a write: the byte written at its own address, the old byte at every other. -/
theorem Memory.read_write {m : Memory} (hm : m.wf = true) (j k : Nat) (v : Byte) :
    (m.write k v).read j = if j = k then v else m.read j := by
  split
  case isTrue heq => rw [heq, Memory.read_write_same hm]
  case isFalse hne => rw [Memory.read_write_other m hne]

/-- The four mirrors of working RAM are the address modulo 2 KB (R55). -/
theorem ramIndex_eq_mod (a : Addr) : ramIndex a = a.toNat % 0x800 := by
  rw [ramIndex, BitVec.toNat_and]
  exact Nat.and_two_pow_sub_one_eq_mod a.toNat 11

section Ranges

variable (b : Bus) {a : Addr} (v : Byte)

/-! Working RAM. -/

theorem Bus.read_ram (ha : a.toNat < 0x2000) : b.read a = (b.mem.read (a.toNat % 0x800), b) := by
  rw [Bus.read_of_cell (b.cell_ram ha), ramIndex_eq_mod]

theorem Bus.write_ram_mod (ha : a.toNat < 0x2000) : b.write a v = { b with mem := b.mem.write (a.toNat % 0x800) v } := by
  rw [b.write_ram ha, ramIndex_eq_mod]

/-! The PPU's registers. -/

theorem Bus.read_ppu (hlo : 0x2000 ≤ a.toNat) (hhi : a.toNat < 0x4000) : b.read a = b.readPpu (a.toNat % 8) := by
  rw [Bus.read, if_neg (by omega), if_pos hhi]

theorem Bus.write_ppu (hlo : 0x2000 ≤ a.toNat) (hhi : a.toNat < 0x4000) : b.write a v = b.writePpu (a.toNat % 8) v := by
  rw [Bus.write, if_neg (by omega), if_pos hhi]

/-! The unused block. -/

theorem Bus.read_unused (hlo : 0x4018 ≤ a.toNat) (hhi : a.toNat < 0x4020) : b.read a = b.unmapped := by
  rw [Bus.read, if_neg (by omega), if_neg (by omega), if_pos hhi, Bus.readIo, if_neg (by omega), if_neg (by omega),
    if_neg (by omega), if_neg (by omega)]

theorem Bus.write_unused (hlo : 0x4018 ≤ a.toNat) (hhi : a.toNat < 0x4020) : b.write a v = b := by
  rw [Bus.write, if_neg (by omega), if_neg (by omega), if_pos hhi, Bus.writeIo, if_neg (by omega), if_neg (by omega),
    if_neg (by omega)]

/-! Cartridge storage. -/

theorem Bus.cell_cartridge (ha : 0x4020 ≤ a.toNat) (hkind : b.cart.kindAt a.toNat ≠ .mapper) : b.cell a = some a.toNat := by
  rw [Bus.cell, if_neg (by omega), if_neg (by omega)]
  cases hk : b.cart.kindAt a.toNat with
  | prgRam | prgRom => rfl
  | mapper => exact absurd hk hkind

theorem Bus.write_cartridge (ha : 0x4020 ≤ a.toNat) : b.write a v = b.writeCart a v := by
  rw [Bus.write, if_neg (by omega), if_neg (by omega), if_neg (by omega)]

theorem Bus.write_prgRam (ha : 0x4020 ≤ a.toNat) (hkind : b.cart.kindAt a.toNat = .prgRam) :
    b.write a v = { b with mem := b.mem.write a.toNat v } := by
  rw [b.write_cartridge v ha, Bus.writeCart, hkind]

theorem Bus.write_prgRom (ha : 0x4020 ≤ a.toNat) (hkind : b.cart.kindAt a.toNat = .prgRom) : b.write a v = b := by
  rw [b.write_cartridge v ha, Bus.writeCart, hkind]

end Ranges

/-- Settles O51: both accesses are `Memory` operations at the address modulo 0x800. -/
theorem ramIsMirrored : Obligations.RamIsMirrored := by
  intro b a x v hwf ha hx
  rw [b.read_ram ha, b.write_ram_mod v ha, Bus.read_ram _ hx, b.read_ram hx]
  exact ⟨rfl, rfl, Memory.read_write hwf _ _ v⟩

/-- A byte written to PRG-RAM is read back, with no side effect of the read. -/
theorem Bus.read_write_prgRam {b : Bus} {a : Addr} (hwf : b.mem.wf = true) (ha : 0x4020 ≤ a.toNat)
    (hkind : b.cart.kindAt a.toNat = .prgRam) (v : Byte) : (b.write a v).read a = (v, b.write a v) := by
  have hcell : (b.write a v).cell a = some a.toNat := (b.cell_write a a v).trans (b.cell_cartridge ha (by simp [hkind]))
  rw [Bus.read_of_cell hcell, b.write_prgRam v ha hkind, Memory.read_write_same hwf]

/-- Settles O52: PRG-RAM by `read_write_prgRam`, PRG-ROM and the unused block by what an access is there. -/
theorem cartridgeAndUnusedBlock : Obligations.CartridgeAndUnusedBlock := by
  refine ⟨fun b a v hwf ha => ⟨fun hram => Bus.read_write_prgRam hwf ha hram v, fun hrom => ?_⟩, fun b a v hlo hhi => ?_⟩
  · exact ⟨b.write_prgRom v ha hrom, by rw [Bus.read_of_cell (b.cell_cartridge ha (by simp [hrom]))]⟩
  · exact ⟨b.write_unused v hlo hhi, by rw [b.read_unused hlo hhi]; rfl⟩

/-- The first address of the PPU register that an address selects (R57). -/
theorem toNat_ppuRegister (a : Addr) : (0x2000#16 + (a &&& 7#16)).toNat = 0x2000 + a.toNat % 8 := by
  have hlow : (a &&& 7#16).toNat = a.toNat % 8 := by
    rw [BitVec.toNat_and]
    exact Nat.and_two_pow_sub_one_eq_mod a.toNat 3
  rw [BitVec.toNat_add, hlow, BitVec.toNat_ofNat]
  omega

/-- Settles O53: both addresses select the same register. -/
theorem ppuRegistersAreMirrored : Obligations.PpuRegistersAreMirrored := by
  intro b a v hlo hhi
  have hreg := toNat_ppuRegister a
  have hsame : (0x2000#16 + (a &&& 7#16)).toNat % 8 = a.toNat % 8 := by omega
  rw [b.read_ppu hlo hhi, b.write_ppu v hlo hhi, b.read_ppu (by omega) (by omega), b.write_ppu v (by omega) (by omega), hsame]
  exact ⟨rfl, rfl⟩

end Sys2Proof.Machine
end

section
/-! PROOFS. The PPU's status register (R270). -/

namespace Sys2Proof.Machine

section Status

variable (b : Bus)

/-- Where rendering cannot have set the sprite flags, they stand as they are (log 20). -/
theorem Bus.sampleSprites_of_closed (hclosed : b.ppu.spritesOpen = false) : b.sampleSprites = b := by
  rw [Bus.sampleSprites, hclosed, if_neg Bool.false_ne_true]

/-- Rendering can have set the two sprite flags and nothing else of the PPU. -/
theorem Bus.sampleSprites_ppu : b.sampleSprites.ppu = { b.ppu with
    spriteZero := b.sampleSprites.ppu.spriteZero, spriteOverflow := b.sampleSprites.ppu.spriteOverflow } := by
  unfold Bus.sampleSprites
  split <;> rfl

theorem Bus.read_ppuStatus : b.read 0x2002#16 = b.readPpuStatus := b.read_ppu (by decide) (by decide)

theorem Bus.readPpuStatus_ppu : b.readPpuStatus.2.ppu = { b.sampleSprites.ppu with vblank := false, toggle := false } := rfl

/-- The three driven bits of the status byte. -/
theorem Bus.readPpuStatus_bits : b.readPpuStatus.1.getLsbD 7 = b.sampleSprites.ppu.vblank ∧
    b.readPpuStatus.1.getLsbD 6 = b.sampleSprites.ppu.spriteZero ∧
    b.readPpuStatus.1.getLsbD 5 = b.sampleSprites.ppu.spriteOverflow := by
  simp only [Bus.readPpuStatus, Bus.openBus, Bus.drawn, BitVec.getLsbD_append]
  simp

end Status

/-- Settles O54: the read samples the sprite flags, gives them with vblank, and clears vblank and the toggle. -/
theorem ppuStatusReadClears : Obligations.PpuStatusReadClears := by
  intro b r
  have hr : r = b.readPpuStatus := b.read_ppuStatus
  rw [hr]
  obtain ⟨hvblank, hzero, hoverflow⟩ := b.readPpuStatus_bits
  have hppu := b.readPpuStatus_ppu
  have hsampled := b.sampleSprites_ppu
  refine ⟨by rw [hvblank, hsampled], fun hclosed => ?_, ?_, ?_, ?_, ?_, ?_, ?_, b.readPpuStatus_keeps.mem⟩
  · rw [hzero, hoverflow, hppu, b.sampleSprites_of_closed hclosed]
    exact ⟨rfl, rfl, rfl⟩
  all_goals rw [hppu, hsampled]

end Sys2Proof.Machine
end

section
/-! PROOFS. The bus reads of a fetch (R75, R84). -/

namespace Sys2Proof.Machine

section Fetch

variable (s : State)

@[simp] theorem State.fetchByte_params : s.fetchByte.2.bus.params = s.bus.params := s.bus.read_params s.cpu.pc

/-- Fetching an opcode of no operand byte is one read. -/
theorem State.fetch_none (h : operandCount s.fetchByte.1 = 0) :
    s.fetch = (decodeOp s.fetchByte.1 0x00#8 0x00#8, s.fetchByte.2) := by
  unfold State.fetch
  simp only [h]

/-- One operand byte is fetched. -/
theorem State.fetch_one (h : operandCount s.fetchByte.1 = 1)
    (hread : operandIgnored (decodeOp s.fetchByte.1 0x00#8 0x00#8) s.bus.params.unstableOps = false) :
    s.fetch = (decodeOp s.fetchByte.1 s.fetchByte.2.fetchByte.1 0x00#8, s.fetchByte.2.fetchByte.2) := by
  unfold State.fetch
  simp only [h, State.fetchByte_params, hread, Bool.false_eq_true, if_false]

/-- An operand byte that the instruction ignores is skipped (log 33). -/
theorem State.fetch_skipped (h : operandCount s.fetchByte.1 = 1)
    (hignored : operandIgnored (decodeOp s.fetchByte.1 0x00#8 0x00#8) s.bus.params.unstableOps = true) :
    s.fetch.2 = s.fetchByte.2.skipByte.2 := by
  unfold State.fetch
  simp only [h, State.fetchByte_params, hignored, if_true]

/-- Two operand bytes are fetched one after the other. -/
theorem State.fetch_two (h : operandCount s.fetchByte.1 = 2) : s.fetch =
    (decodeOp s.fetchByte.1 s.fetchByte.2.fetchByte.1 s.fetchByte.2.fetchByte.2.fetchByte.1,
      s.fetchByte.2.fetchByte.2.fetchByte.2) := by
  unfold State.fetch
  simp only [h]

end Fetch

/-- Settles O42: each fetch of a byte is one bus read at PC (`fetchByte_eq`), a skip is none. -/
theorem fetchReadsInOrder : Obligations.FetchReadsInOrder := by
  intro s r0 r1 r2
  have htwo : s.cpu.pc + 1 + 1 = s.cpu.pc + 2 := BitVec.add_assoc ..
  have hthree : s.cpu.pc + 2 + 1 = s.cpu.pc + 3 := BitVec.add_assoc ..
  have hskip : s.fetchByte.2.skipByte.2 = { cpu := { s.cpu with pc := s.cpu.pc + 2 }, bus := r0.2 } := by
    rw [← htwo]; rfl
  have hsecond : s.fetchByte.2.fetchByte = (r1.1, { cpu := { s.cpu with pc := s.cpu.pc + 2 }, bus := r1.2 }) := by
    rw [← htwo]; rfl
  have hthird : s.fetchByte.2.fetchByte.2.fetchByte =
      (r2.1, { cpu := { s.cpu with pc := s.cpu.pc + 3 }, bus := r2.2 }) := by
    rw [hsecond, ← hthree]; rfl
  refine ⟨fun h => s.fetch_none h, fun h hread => ?_, fun h hignored => ?_, fun h => ?_⟩
  · rw [s.fetch_one h hread, hsecond]; rfl
  · exact (s.fetch_skipped h hignored).trans hskip
  · rw [s.fetch_two h, hthird, hsecond]; rfl

end Sys2Proof.Machine
end

section
/-! PROOFS. Effective addresses and the page penalty (R86 to R94, R97). -/

namespace Sys2Proof.Machine

/-! ## Words, indices and pages as numbers -/

@[simp] theorem toNat_word (l h : Byte) : (word l h).toNat = h.toNat * 256 + l.toNat := by
  unfold word
  rw [BitVec.toNat_append, ← Nat.shiftLeft_add_eq_or_of_lt l.isLt, Nat.shiftLeft_eq]

theorem toNat_word_mod (l h : Byte) : (word l h).toNat % 256 = l.toNat := by
  have hl := l.isLt
  rw [toNat_word]
  omega

theorem zeroPage_eq_word (b : Byte) : zeroPage b = word b 0 := by
  have hlt : b.toNat < 65536 := b.isLt.trans (by decide)
  exact BitVec.eq_of_toNat_eq (by simp [zeroPage, Nat.mod_eq_of_lt hlt])

/-- Indexing a 16-bit base is addition modulo 2^16. -/
theorem add_index_eq_ofNat (w : Addr) (i : Byte) : w + i.zeroExtend 16 = BitVec.ofNat 16 (w.toNat + i.toNat) :=
  BitVec.eq_of_toNat_eq (by simp)

theorem toNat_hiByte (a : Addr) : (hiByte a).toNat = a.toNat / 256 := by
  have hlt := a.isLt
  rw [hiByte, BitVec.extractLsb'_toNat, Nat.shiftRight_eq_div_pow]
  omega

theorem otherPage_iff (a b : Addr) : otherPage a b = true ↔ a.toNat / 256 ≠ b.toNat / 256 := by
  rw [otherPage, bne_iff_ne, ne_eq, ← BitVec.toNat_inj, toNat_hiByte, toNat_hiByte]

/-- An index leaves the base's page exactly when it carries out of the low byte. -/
theorem otherPage_add_index_iff (w : Addr) (i : Byte) :
    otherPage w (w + i.zeroExtend 16) = true ↔ ¬ w.toNat % 256 + i.toNat < 256 := by
  have hw := w.isLt
  have hi := i.isLt
  rw [otherPage_iff, add_index_eq_ofNat, BitVec.toNat_ofNat]
  omega

/-! ## The resolver -/

section Resolver

variable (s : State)

/-- Both bytes of a pointer are read from the same bus: the first read, of page zero, leaves it as it is. -/
theorem State.zeroPagePointer_fst (p : Byte) :
    (s.zeroPagePointer p).1 = word (s.bus.read (word p 0)).1 (s.bus.read (word (p + 1) 0)).1 := by
  have hbus : (s.bus.read (zeroPage p)).2 = s.bus := by rw [Bus.read_of_cell (Bus.cell_ram s.bus (zeroPage_lt p))]
  rw [← zeroPage_eq_word, ← zeroPage_eq_word]
  show word (s.bus.read (zeroPage p)).1 ((s.bus.read (zeroPage p)).2.read (zeroPage (p + 1))).1 = _
  rw [hbus]

theorem State.resolve_abx (w : Addr) : (s.resolve (.abx w)).1 = ⟨w, w + s.cpu.x.zeroExtend 16⟩ := rfl

theorem State.resolve_aby (w : Addr) : (s.resolve (.aby w)).1 = ⟨w, w + s.cpu.y.zeroExtend 16⟩ := rfl

theorem State.resolve_izx (b : Byte) : (s.resolve (.izx b)).1 =
    ⟨(s.zeroPagePointer (b + s.cpu.x)).1, (s.zeroPagePointer (b + s.cpu.x)).1⟩ := rfl

theorem State.resolve_izy (b : Byte) : (s.resolve (.izy b)).1 =
    ⟨(s.zeroPagePointer b).1, (s.zeroPagePointer b).1 + s.cpu.y.zeroExtend 16⟩ := rfl

/-- The penalty of every form: the base and the effective address in different pages (R97). -/
theorem pagePenalty_mem (m : Mem) : pagePenalty (.mem m) s =
    if (s.resolve m).1.base.toNat / 256 = (s.resolve m).1.ea.toNat / 256 then 0 else 1 := by
  simp only [pagePenalty, Resolved.crossed, otherPage_iff, ne_eq, ite_not]

end Resolver

/-- The penalty of a form that indexes a 16-bit base: the carry out of the low byte. -/
theorem pagePenalty_of_indexed {s : State} {m : Mem} {w : Addr} {i : Byte}
    (h : (s.resolve m).1 = ⟨w, w + i.zeroExtend 16⟩) :
    pagePenalty (.mem m) s = if w.toNat % 256 + i.toNat < 256 then 0 else 1 := by
  simp only [pagePenalty, h, Resolved.crossed, otherPage_add_index_iff, ite_not]

/-- Settles O60: the addresses by the resolver's equations, the penalties by the carry out of the low byte of the base. -/
theorem effectiveAddresses : Obligations.EffectiveAddresses := by
  intro s b l h x y pointer
  have hpointer (p : Byte) : (s.zeroPagePointer p).1 = pointer p := s.zeroPagePointer_fst p
  have hindexed (i : Byte) :
      word l h + i.zeroExtend 16 = BitVec.ofNat 16 (h.toNat * 256 + l.toNat + i.toNat) := by
    rw [add_index_eq_ofNat, toNat_word]
  have hizy : (s.resolve (.izy b)).1 = ⟨pointer b, pointer b + y.zeroExtend 16⟩ := by rw [s.resolve_izy, hpointer]
  refine ⟨zeroPage_eq_word b, zeroPage_eq_word (b + x), zeroPage_eq_word (b + y), rfl, hindexed x, hindexed y,
    ?izxAddress, ?izyAddress, rfl, rfl, ?izyBase, ?abxPenalty, ?abyPenalty, pagePenalty_of_indexed hizy, ?noPenalty,
    s.resolve_snd, pagePenalty_mem s⟩
  case izxAddress => rw [s.resolve_izx, hpointer]
  case izyAddress => rw [hizy, add_index_eq_ofNat]
  case izyBase => rw [hizy]
  case abxPenalty => rw [pagePenalty_of_indexed (s.resolve_abx _), toNat_word_mod]
  case abyPenalty => rw [pagePenalty_of_indexed (s.resolve_aby _), toNat_word_mod]
  case noPenalty =>
    simp only [List.forall_mem_cons, pagePenalty_zp, pagePenalty_zpx, pagePenalty_zpy, pagePenalty_abs, pagePenalty_izx,
      List.not_mem_nil, false_implies, implies_true, and_self]

end Sys2Proof.Machine
end

section
/-! PROOFS. Loads, stores and transfers (R110 to R122), and what the rules of all reads and stores have in common. -/

namespace Sys2Proof.Machine

/-! ## An instruction's rule from its meaning and its rows

The meaning is one equation of `exec` for every operand. Of the rows it remains that their opcodes decode to the instruction and
that they owe what their forms cost: equations of lists, so that a list of given rows computes. -/

/-- A read instruction: the meaning of shape `afterRead`, and the rows. -/
theorem readLaw_of_exec {mk : Src → Instr} {rows : Byte → Byte → State → List (Row Src)} {f : Cpu → Byte → Nat → Cpu}
    (hexec : ∀ s src, exec (mk src) s = .next (s.afterRead src f))
    (hdecode : ∀ l h s, (rows l h s).map (fun r => decodeOp r.1 l h) = (rows l h s).map fun r => mk r.2.1)
    (hcost : ∀ l h s, (rows l h s).map (fun r => r.2.2) = (rows l h s).map fun r => readCost r.2.1 s) :
    ReadLaw mk rows f := by
  intro s l h r hr
  refine ⟨List.map_inj_left.mp (hdecode l h s) r hr, ?_⟩
  rw [hexec, List.map_inj_left.mp (hcost l h s) r hr, State.afterRead]

/-- A store: the meaning of shape `afterStore`, and the rows. -/
theorem storeLaw_of_exec {mk : Mem → Instr} {rows : Byte → Byte → List (Row Mem)} {value : Cpu → Byte}
    (hexec : ∀ s m, exec (mk m) s = .next (s.afterStore m (value s.cpu)))
    (hdecode : ∀ l h, (rows l h).map (fun r => decodeOp r.1 l h) = (rows l h).map fun r => mk r.2.1)
    (hcost : ∀ l h, (rows l h).map (fun r => r.2.2) = (rows l h).map fun r => storeCycles r.2.1) :
    StoreLaw mk rows value := by
  intro s l h r hr
  refine ⟨List.map_inj_left.mp (hdecode l h) r hr, ?_⟩
  rw [hexec, List.map_inj_left.mp (hcost l h) r hr, State.afterStore]

/-- The rows of an accumulator instruction owe what their forms cost: where a row has no penalty, its form cannot cross a page. -/
theorem accReads_cost {imm zp zpx abs abx aby izx izy : Byte} (l h : Byte) (s : State) :
    (accReads imm zp zpx abs abx aby izx izy l h s).map (fun r => r.2.2) =
      (accReads imm zp zpx abs abx aby izx izy l h s).map fun r => readCost r.2.1 s := by
  simp [accReads, pagedRow, readCost, readCycles]

/-! ## The statements -/

/-- Settles O5: the three meanings are operand reads, and the rows decode and cost as `readLaw_of_exec` asks. -/
theorem loadsCopyOperand : Obligations.LoadsCopyOperand := by
  refine ⟨readLaw_of_exec exec_lda ?ldaDecode accReads_cost, readLaw_of_exec exec_ldx ?ldxDecode ?ldxCost,
    readLaw_of_exec exec_ldy ?ldyDecode ?ldyCost⟩
  case ldaDecode | ldxDecode | ldyDecode =>
    intro l h s
    simp only [accReads, pagedRow, List.map_cons, List.map_nil]
    rfl
  case ldxCost | ldyCost => simp [pagedRow, readCost, readCycles]

/-- The bus after a store is the old bus after one write. -/
theorem busAfterStore_eq (m : Mem) (v : Byte) (s : State) : busAfterStore m v s = s.bus.write (s.resolve m).1.ea v := by
  rw [busAfterStore, s.resolve_bus]

/-- A write to 0x4014 starts OAM DMA (R262). -/
theorem Bus.write_oamDma (b : Bus) (v : Byte) : b.write 0x4014#16 v = b.startDma v := by
  rw [Bus.write, if_neg (by decide), if_neg (by decide), if_pos (by decide), Bus.writeIo, if_pos (by decide)]

/-- Settles O6: the three meanings are stores, and a store is one bus write, so at 0x4014 and in PRG-ROM it does what the bus does
there. -/
theorem storesWriteRegister : Obligations.StoresWriteRegister := by
  refine ⟨storeLaw_of_exec exec_sta ?staDecode fun _ _ => rfl, storeLaw_of_exec exec_stx ?stxDecode fun _ _ => rfl,
    storeLaw_of_exec exec_sty ?styDecode fun _ _ => rfl, ?oamDma, ?prgRom⟩
  case staDecode | stxDecode | styDecode =>
    intro l h
    simp only [List.map_cons, List.map_nil]
    rfl
  case oamDma =>
    intro s m v hea
    rw [busAfterStore_eq, hea, Bus.write_oamDma]
    rfl
  case prgRom =>
    intro s m v hcart hrom
    rw [busAfterStore_eq, Bus.write_prgRom _ v hcart hrom]

/-- Settles O7: each opcode's cell of the map is the transfer, and its meaning is a chain of updates of the CPU record. -/
theorem transfersCopyRegister : Obligations.TransfersCopyRegister := by
  refine ⟨?tax, ?tay, ?txa, ?tya, ?tsx, ?txs⟩
  all_goals
    intro s l h
    exact ⟨rfl, rfl⟩

end Sys2Proof.Machine
end

section
/-! PROOFS. Arithmetic, logic, compare, increment and decrement (R131 to R145), and what the rules of all accumulator reads and of
all read-modify-writes have in common. -/

namespace Sys2Proof.Machine

/-! ## An instruction's rule from its meaning and its opcodes

The rows of these instructions come from the shared lists `accReads`, `indexReads` and `memModifies`, whose costs are those of their
forms. What is left of an instruction is its meaning and that its opcodes decode to it. -/

/-- An instruction with the eight accumulator reads. -/
theorem accReadLaw_of_exec {mk : Src → Instr} {imm zp zpx abs abx aby izx izy : Byte} {f : Cpu → Byte → Nat → Cpu}
    (hexec : ∀ s src, exec (mk src) s = .next (s.afterRead src f))
    (hdecode : ∀ l h, [imm, zp, zpx, abs, abx, aby, izx, izy].map (fun op => decodeOp op l h) =
      [.imm l, .mem (.zp l), .mem (.zpx l), .mem (.abs (word l h)), .mem (.abx (word l h)), .mem (.aby (word l h)),
        .mem (.izx l), .mem (.izy l)].map mk) :
    ReadLaw mk (accReads imm zp zpx abs abx aby izx izy) f :=
  readLaw_of_exec hexec (fun l h _ => hdecode l h) accReads_cost

/-- An instruction with the three reads of CPX and CPY. None of their forms can cross a page. -/
theorem indexReadLaw_of_exec {mk : Src → Instr} {imm zp abs : Byte} {f : Cpu → Byte → Nat → Cpu}
    (hexec : ∀ s src, exec (mk src) s = .next (s.afterRead src f))
    (hdecode : ∀ l h, [imm, zp, abs].map (fun op => decodeOp op l h) =
      [.imm l, .mem (.zp l), .mem (.abs (word l h))].map mk) :
    ReadLaw mk (fun l h _ => indexReads imm zp abs l h) f :=
  readLaw_of_exec hexec (fun l h _ => hdecode l h) (by simp [indexReads, readCost, readCycles])

/-- A read instruction of memory forms alone: the meaning of shape `afterRead`, and the rows. -/
theorem memReadLaw_of_exec {mk : Mem → Instr} {rows : Byte → Byte → State → List (Row Mem)} {f : Cpu → Byte → Nat → Cpu}
    (hexec : ∀ s m, exec (mk m) s = .next (s.afterRead (.mem m) f))
    (hdecode : ∀ l h s, (rows l h s).map (fun r => decodeOp r.1 l h) = (rows l h s).map fun r => mk r.2.1)
    (hcost : ∀ l h s, (rows l h s).map (fun r => r.2.2) = (rows l h s).map fun r => readCost (.mem r.2.1) s) :
    MemReadLaw mk rows f := by
  intro s l h r hr
  refine ⟨List.map_inj_left.mp (hdecode l h s) r hr, ?_⟩
  rw [hexec, List.map_inj_left.mp (hcost l h s) r hr, State.afterRead]

/-- A read-modify-write: the meaning of shape `afterModify`, and the rows. -/
theorem modifyLaw_of_exec {mk : Mem → Instr} {rows : Byte → Byte → List (Row Mem)} {result : Byte → Bool → Byte}
    {f : Cpu → Byte → Byte → Nat → Cpu}
    (hexec : ∀ s m, exec (mk m) s = .next (s.afterModify m result f))
    (hdecode : ∀ l h, (rows l h).map (fun r => decodeOp r.1 l h) = (rows l h).map fun r => mk r.2.1)
    (hcost : ∀ l h, (rows l h).map (fun r => r.2.2) = (rows l h).map fun r => rmwCycles r.2.1) :
    ModifyLaw mk rows result f := by
  intro s l h r hr v w
  refine ⟨List.map_inj_left.mp (hdecode l h) r hr, ?_⟩
  rw [hexec, List.map_inj_left.mp (hcost l h) r hr, State.afterModify]

/-- An instruction with the four read-modify-write forms of INC, DEC and the shifts. -/
theorem memModifyLaw_of_exec {mk : Mem → Instr} {zp zpx abs abx : Byte} {result : Byte → Bool → Byte}
    {f : Cpu → Byte → Byte → Nat → Cpu}
    (hexec : ∀ s m, exec (mk m) s = .next (s.afterModify m result f))
    (hdecode : ∀ l h, [zp, zpx, abs, abx].map (fun op => decodeOp op l h) =
      [.zp l, .zpx l, .abs (word l h), .abx (word l h)].map mk) :
    ModifyLaw mk (memModifies zp zpx abs abx) result f :=
  modifyLaw_of_exec hexec hdecode fun _ _ => rfl

/-! ## The statements -/

/-- Settles O8: ADC's meaning is the addition of the operand read, and its eight opcodes decode to it. -/
theorem adcAddsWithCarry : Obligations.AdcAddsWithCarry := accReadLaw_of_exec exec_adc fun _ _ => rfl

/-- Settles O9: SBC's meaning is the addition of the complement of the operand read; 0xEB decodes to the duplicate, whose meaning is
SBC's with an immediate byte. -/
theorem sbcAddsComplement : Obligations.SbcAddsComplement :=
  ⟨accReadLaw_of_exec exec_sbc fun _ _ => rfl, fun s l _ => ⟨rfl, exec_sbc s (.imm l)⟩⟩

/-- Settles O11: the three meanings read the operand and set A, N and Z from its combination with A. -/
theorem logicCombinesWithA : Obligations.LogicCombinesWithA :=
  ⟨accReadLaw_of_exec exec_and fun _ _ => rfl, accReadLaw_of_exec exec_ora fun _ _ => rfl,
    accReadLaw_of_exec exec_eor fun _ _ => rfl⟩

/-- Settles O12: the three meanings read the operand and compare it with their register. -/
theorem comparesSetFlags : Obligations.ComparesSetFlags :=
  ⟨accReadLaw_of_exec exec_cmp fun _ _ => rfl, indexReadLaw_of_exec exec_cpx fun _ _ => rfl,
    indexReadLaw_of_exec exec_cpy fun _ _ => rfl⟩

/-- Settles O13: BIT's meaning is an operand read, and a read of 0x2002 leaves the vblank flag and the toggle clear (R58). -/
theorem bitTestsOperand : Obligations.BitTestsOperand := by
  refine ⟨memReadLaw_of_exec exec_bit ?decode ?cost, fun s => ⟨_, exec_bit s _, ?status⟩⟩
  case decode =>
    intro l h s
    simp only [List.map_cons, List.map_nil]
    rfl
  case cost => simp [readCost, readCycles]
  case status =>
    have hbus : busAfterOperand (.mem (.abs 0x2002#16)) s = s.bus.readPpuStatus.2 := congrArg Prod.snd s.bus.read_ppuStatus
    rw [State.afterRead, hbus, Bus.readPpuStatus_ppu]
    exact ⟨rfl, rfl⟩

/-- Settles O14: INC and DEC are read-modify-writes, and the four register forms are chains of updates of the CPU record. -/
theorem incrementsAndDecrements : Obligations.IncrementsAndDecrements := by
  refine ⟨memModifyLaw_of_exec exec_inc fun _ _ => rfl, memModifyLaw_of_exec exec_dec fun _ _ => rfl, ?inx, ?iny, ?dex, ?dey⟩
  all_goals
    intro s l h
    exact ⟨rfl, rfl⟩

end Sys2Proof.Machine
end

section
/-! PROOFS. Shifts and rotates (R160 to R164). -/

namespace Sys2Proof.Machine

/-! ## The carry-in of a rotate

The model puts the carry beside the seven bits that stay; the rules shift the byte and OR the carry into the place left free. -/

/-- Rotating left: the carry comes in at bit 0 (R163). -/
theorem shiftLeft_or_carry (v : Byte) (c : Bool) :
    (v <<< 1) ||| BitVec.ofNat 8 c.toNat = v.extractLsb' 0 7 ++ BitVec.ofBool c := by
  ext i hi
  rw [BitVec.getElem_append (n := 7) (m := 1) hi]
  cases i with
  | zero => cases c <;> simp
  | succ j => cases c <;> simp [BitVec.getLsbD_eq_getElem (Nat.lt_of_succ_lt hi)]

/-- Rotating right: the carry comes in at bit 7 (R164). -/
theorem shiftRight_or_carry (v : Byte) (c : Bool) :
    (v >>> 1) ||| (BitVec.ofNat 8 c.toNat <<< 7) = BitVec.ofBool c ++ v.extractLsb' 1 7 := by
  ext i hi
  rw [BitVec.getElem_append (n := 1) (m := 7) hi]
  obtain hlow | rfl : i < 7 ∨ i = 7 := by omega
  · simp [hlow]
  · cases c <;> simp

/-- Settles O15: a memory form is a read-modify-write, an accumulator form a chain of updates of the CPU record; the rotates' results
are the model's by the two lemmas above. -/
theorem shiftsMoveOneBit : Obligations.ShiftsMoveOneBit := by
  simp only [Obligations.ShiftsMoveOneBit, shiftLeft_or_carry, shiftRight_or_carry]
  refine ⟨⟨?aslAcc, memModifyLaw_of_exec exec_asl_mem fun _ _ => rfl⟩, ⟨?lsrAcc, memModifyLaw_of_exec exec_lsr_mem fun _ _ => rfl⟩,
    ⟨?rolAcc, memModifyLaw_of_exec exec_rol_mem fun _ _ => rfl⟩, ⟨?rorAcc, memModifyLaw_of_exec exec_ror_mem fun _ _ => rfl⟩⟩
  all_goals
    intro s l h
    exact ⟨rfl, rfl⟩

end Sys2Proof.Machine
end

section
/-! PROOFS. Branches, jumps, calls and returns (R170 to R184), and what the stack holds between a push and the pull that takes
it back. -/

namespace Sys2Proof.Machine

/-! ## The stack

It lies in working RAM, so a pull leaves the bus as it is, and what it gives is what storage holds. -/

section Stack

variable (s : State)

theorem Bus.read_stackAddr (b : Bus) (sp : Byte) : b.read (stackAddr sp) = (b.mem.read (0x100 + sp.toNat), b) := by
  rw [Bus.read_of_cell (b.cell_ram (stackAddr_lt sp)), ramIndex_stackAddr]

theorem State.pull_stack : s.pull = ((s.bus.read (stackAddr (s.cpu.sp + 1))).1, s.setSP (s.cpu.sp + 1)) := by
  rw [State.pull_ram, Bus.read_stackAddr]
  rfl

/-- Both bytes of a pulled word are read from the same bus. -/
theorem State.pullWord_stack : s.pullWord =
    (word (s.bus.read (stackAddr (s.cpu.sp + 1))).1 (s.bus.read (stackAddr (s.cpu.sp + 2))).1, s.setSP (s.cpu.sp + 2)) := by
  have htwo : s.cpu.sp + 1 + 1 = s.cpu.sp + 2 := BitVec.add_assoc _ _ _
  simp only [State.pullWord, State.pull_stack, State.setSP_sp, State.setSP_bus, htwo]
  rfl

theorem State.pushWord_eq (w : Addr) : s.pushWord w =
    { cpu := { s.cpu with sp := s.cpu.sp - 2 }
      bus := (s.bus.write (stackAddr s.cpu.sp) (hiByte w)).write (stackAddr (s.cpu.sp - 1)) (loByte w) } := by
  have htwo : s.cpu.sp - 1 - 1 = s.cpu.sp - 2 := BitVec.sub_sub _ _ _
  rw [← htwo]
  rfl

@[simp] theorem State.pushWord_sp (w : Addr) : (s.pushWord w).cpu.sp = s.cpu.sp - 2 := by rw [State.pushWord_eq]

/-- Leaving a handler reads the status byte and the return address from the same bus (R183). -/
theorem State.leaveHandler_eq : s.leaveHandler =
    { s with cpu := { s.cpu with
      sp := s.cpu.sp + 3
      flags := loadStatus (s.bus.read (stackAddr (s.cpu.sp + 1))).1
      pc := word (s.bus.read (stackAddr (s.cpu.sp + 2))).1 (s.bus.read (stackAddr (s.cpu.sp + 3))).1 } } := by
  have htwo : s.cpu.sp + 1 + 1 = s.cpu.sp + 2 := BitVec.add_assoc _ _ _
  have hthree : s.cpu.sp + 1 + 2 = s.cpu.sp + 3 := BitVec.add_assoc _ _ _
  simp only [State.leaveHandler, State.pull_stack, State.pullWord_stack, State.setFlags_sp, State.setFlags_bus,
    State.setSP_sp, State.setSP_bus, htwo, hthree]
  rfl

variable {s}

/-- A write at a stack pointer changes what the stack holds there and nowhere else. -/
theorem Bus.read_write_stack {b : Bus} (hwf : b.mem.wf = true) (p q v : Byte) :
    ((b.write (stackAddr q) v).read (stackAddr p)).1 = if p = q then v else (b.read (stackAddr p)).1 := by
  rw [Bus.read_stackAddr, Bus.read_stackAddr, Bus.write_ram b (stackAddr_lt q), ramIndex_stackAddr, Memory.read_write hwf]
  simp only [Nat.add_left_cancel_iff, BitVec.toNat_inj]

/-- It keeps storage canonical. -/
theorem Bus.write_stack_wf {b : Bus} (hwf : b.mem.wf = true) (q v : Byte) : (b.write (stackAddr q) v).mem.wf = true := by
  rw [Bus.write_ram b (stackAddr_lt q)]
  exact Memory.write_wf hwf _ v

/-- A word pushed is the word pulled, from any state with the bus and the stack pointer that the push left. -/
theorem State.pullWord_of_pushWord {t : State} {w : Addr} (hwf : s.bus.mem.wf = true) (hbus : t.bus = (s.pushWord w).bus)
    (hsp : t.cpu.sp = s.cpu.sp - 2) : t.pullWord = (w, t.setSP s.cpu.sp) := by
  have hlo : t.cpu.sp + 1 = s.cpu.sp - 1 := by rw [hsp]; bv_omega
  have hhi : t.cpu.sp + 2 = s.cpu.sp := by rw [hsp]; bv_omega
  have hne : s.cpu.sp ≠ s.cpu.sp - 1 := by bv_omega
  have hwf' := Bus.write_stack_wf hwf s.cpu.sp (hiByte w)
  rw [State.pullWord_stack, hlo, hhi, hbus, State.pushWord_eq]
  simp only [Bus.read_write_stack hwf', Bus.read_write_stack hwf, if_true, if_neg hne, word_loByte_hiByte]

end Stack

/-! ## The meanings -/

section Meanings

variable (s : State)

@[simp] theorem exec_jsr (w : Addr) : exec (.jsr w) s = .next (((s.setCycles 6).pushWord (s.cpu.pc - 1)).setPC w) := rfl

@[simp] theorem exec_rts : exec .rts s =
    .next ((s.setCycles 6).pullWord.2.setPC ((s.setCycles 6).pullWord.1 + 1)) := rfl

@[simp] theorem exec_rti : exec .rti s = .next (s.setCycles 6).leaveHandler := rfl

end Meanings

/-- A branch: the meaning, and the opcode. A signed offset is added by its sign extension, and the page is the high byte. -/
theorem branchLaw_of_exec {op : Byte} {mk : Byte → Instr} {taken : Flags → Bool}
    (hexec : ∀ s off, exec (mk off) s = .next (s.branch (taken s.cpu.flags) off))
    (hdecode : ∀ l h, decodeOp op l h = mk l) : BranchLaw op mk taken := by
  intro s l h t cost
  refine ⟨hdecode l h, ?_⟩
  have hcost : (if otherPage s.cpu.pc t then 4 else 3) = cost := by simp only [otherPage_iff, ne_eq, ite_not, cost]
  rw [hexec, State.branch_eq, ← hcost]
  rfl

/-! ## From an instruction to the next boundary -/

/-- The cycles an answer owes lead to a boundary: the one in which the instruction ran is counted, the others are paid (R296). -/
theorem run_to_boundary {t : State} {n : Nat} (howed : t.cpu.cyclesLeft = n + 1) (hdma : t.bus.dma.active = false) :
    ∃ u, Host.Core.run core n t.countDown.endCycle = .next u ∧
      u.cpu = { t.cpu with cyclesLeft := 0, irqPending := u.cpu.irqPending, nmiPending := u.cpu.nmiPending } ∧
      u.bus.dma.active = false ∧ u.bus.irqOpen = t.bus.irqOpen := by
  have keeps := t.countDown.endCycle_keeps
  have hcycles : t.countDown.endCycle.cpu.cyclesLeft = n := by
    rw [keeps.cpu]
    show t.cpu.cyclesLeft - 1 = n
    rw [howed, Nat.add_sub_cancel]
  obtain ⟨u, hrun, hcpu, hidle, hopen⟩ := owed_run n t.countDown.endCycle hcycles (by rw [keeps.dma]; exact hdma)
  exact ⟨u, hrun, by rw [hcpu, keeps.cpu]; rfl, hidle, hopen.trans keeps.irqOpen⟩

@[simp] theorem State.beginCycle_irqOpen (s : State) : s.beginCycle.bus.irqOpen = s.bus.irqOpen := by
  show s.bus.controllerLatchStep.irqOpen = s.bus.irqOpen
  rw [Bus.controllerLatchStep_eq]

/-- With no NMI latched, an asserted IRQ that is not masked is taken (R253, R254). -/
theorem State.dispatch_irq {s : State} (hnmi : s.cpu.nmiPending = false) (hirq : s.cpu.irqPending = true)
    (hunmasked : s.irqMasked = false) : s.dispatch = exec .irq s.pastBrk := by
  rw [State.dispatch, State.takeNmi, State.takeIrq, hnmi, hirq, hunmasked]
  rfl

/-- With no NMI latched and IRQs masked, the next instruction is fetched (R253, R254). -/
theorem State.dispatch_fetch_of_masked {s : State} (hnmi : s.cpu.nmiPending = false) (hmasked : s.irqMasked = true) :
    s.dispatch = exec s.pastBrk.fetch.1 s.pastBrk.fetch.2 := by
  rw [State.dispatch, State.takeNmi, State.takeIrq, hnmi, hmasked, Bool.not_true, Bool.and_false]
  rfl

/-! ## The statements -/

/-- Settles O16: each meaning is the shared branch on its flag. -/
theorem branchesTestOneFlag : Obligations.BranchesTestOneFlag := by
  refine ⟨?bpl, ?bmi, ?bvc, ?bvs, ?bcc, ?bcs, ?bne, ?beq⟩
  all_goals exact branchLaw_of_exec (fun _ _ => rfl) fun _ _ => rfl

/-- Settles O17: the pointer's second byte is read at the next address within the pointer's page, which for the pointer
`word l h` is `word (l + 1) h`. -/
theorem jumpLoadsTarget : Obligations.JumpLoadsTarget := by
  intro s l h
  refine ⟨⟨rfl, rfl⟩, rfl, ?_⟩
  have hnext : word (loByte (word l h) + 1) (hiByte (word l h)) = word (l + 1) h := by rw [loByte_word, hiByte_word]
  rw [← hnext]
  rfl

/-- Settles O18: JSR's meaning is a push of the return word. -/
theorem jsrPushesReturn : Obligations.JsrPushesReturn := by
  intro s l h
  refine ⟨rfl, ?_⟩
  rw [exec_jsr, State.pushWord_eq]
  rfl

/-- Settles O19: RTS's meaning is a pull of the return word. -/
theorem rtsPullsReturn : Obligations.RtsPullsReturn := by
  intro s l h
  refine ⟨rfl, ?_⟩
  rw [exec_rts, State.pullWord_stack]
  rfl

/-- Settles O36: the word RTS pulls is the word JSR pushed, one below the PC before the JSR. -/
theorem subroutineReturnRestores : Obligations.SubroutineReturnRestores := by
  intro s w hinv
  refine ⟨_, _, exec_jsr s w, rfl, exec_rts _, ?_⟩
  have hpull := State.pullWord_of_pushWord (s := s.setCycles 6) (w := s.cpu.pc - 1)
    (t := (((s.setCycles 6).pushWord (s.cpu.pc - 1)).setPC w).setCycles 6) hinv.bus.mem_wf
    (by simp only [State.setCycles_bus, State.setPC_bus]) (by simp only [State.setCycles_sp, State.setPC_sp, State.pushWord_sp])
  rw [hpull, BitVec.sub_add_cancel, State.pushWord_eq]
  simp only [State.setPC, State.setSP, State.setCycles]

/-- Settles O21: RTI's meaning pulls the status byte and PC; paying its cycles keeps both, and at the boundary reached the
restored I is the one that decides. -/
theorem rtiRestoresFlagsAndPC : Obligations.RtiRestoresFlagsAndPC := by
  intro s l h
  refine ⟨rfl, ?_⟩
  intro p t finish
  have hexec : exec .rti s = .next t := by rw [exec_rti, State.leaveHandler_eq]; rfl
  refine ⟨hexec, fun hdma => ?_⟩
  obtain ⟨u, hrun, hcpu, hidle, hopen⟩ := run_to_boundary (t := t) (n := 5) rfl hdma
  have hcycles : u.cpu.cyclesLeft = 0 := by rw [hcpu]
  have hflags : u.cpu.flags = t.cpu.flags := by rw [hcpu]
  have hpc : u.cpu.pc = t.cpu.pc := by rw [hcpu]
  have hi : u.cpu.flags.i = p.getLsbD 2 := congrArg Flags.i hflags
  refine ⟨u, hrun, hcycles, hidle, hflags, hpc, fun hnmi hclear hirq => ?irq, fun hnmi hset hclosed => ?fetch⟩
  case irq =>
    have hunmasked : u.beginCycle.irqMasked = false := State.irqMasked_of_clear _ (hi.trans hclear)
    rw [step_boundary hcycles hidle, State.dispatch_irq (s := u.beginCycle) hnmi hirq hunmasked]
  case fetch =>
    have hclosed' : u.beginCycle.bus.irqOpen = false := u.beginCycle_irqOpen.trans (hopen.trans hclosed)
    have hmasked : u.beginCycle.irqMasked = true := (State.irqMasked_of _ hclosed').trans (hi.trans hset)
    rw [step_boundary hcycles hidle, State.dispatch_fetch_of_masked (s := u.beginCycle) hnmi hmasked,
      State.pastBrk_of _ hclosed']

end Sys2Proof.Machine
end

section
/-! PROOFS. The four stack instructions and the eight that write one flag or none (R190 to R202). -/

namespace Sys2Proof.Machine

section Meanings

variable (s : State)

@[simp] theorem exec_pha : exec .pha s = .next ((s.setCycles 3).push s.cpu.a) := rfl

/-- The byte pushed, in the arithmetic of R27. -/
@[simp] theorem exec_php : exec .php s = .next ((s.setCycles 3).push (statusSum true s.cpu.flags)) := by
  rw [← (statusByteRoundTrip.1 s.cpu.flags true).1]
  rfl

@[simp] theorem exec_pla : exec .pla s =
    .next (((s.setCycles 4).pull.2.setA (s.setCycles 4).pull.1).setNZ (s.setCycles 4).pull.1) := rfl

@[simp] theorem exec_plp : exec .plp s =
    .next ((s.setCycles 4).pull.2.setFlags (loadStatus (s.setCycles 4).pull.1)) := rfl

end Meanings

/-- Settles O22: a push is one stack write; a pull reads from the stack, in working RAM, so it leaves the bus as it is. -/
theorem stackMovesOneByte : Obligations.StackMovesOneByte := by
  intro s l h p
  refine ⟨⟨rfl, ?pha⟩, ⟨rfl, ?php⟩, ⟨rfl, ?pla⟩, ⟨rfl, ?plp⟩⟩
  case pha =>
    rw [exec_pha, State.push_eq]
    rfl
  case php =>
    rw [exec_php, State.push_eq]
    rfl
  case pla =>
    rw [exec_pla, State.pull_stack]
    rfl
  case plp =>
    rw [exec_plp, State.pull_stack]
    rfl

/-- Settles O23: each opcode's cell of the map is its instruction, whose meaning replaces the flags and the cycles owed, or for
NOP the cycles alone. -/
theorem flagInstructionsWriteOneFlag : Obligations.FlagInstructionsWriteOneFlag := by
  refine ⟨?clc, ?sec, ?cli, ?sei, ?cld, ?sed, ?clv, ?nop⟩
  all_goals
    intro s l h
    exact ⟨rfl, rfl⟩

end Sys2Proof.Machine
end

section
/-! PROOFS. The combined read-modify-writes, SAX, LAX, LAS, the combined immediates and the undocumented NOPs (R211 to R226). -/

namespace Sys2Proof.Machine

/-! ## An instruction's rule from its meaning and its opcodes -/

/-- An instruction with the seven read-modify-write forms of the combined instructions. -/
theorem combinedModifyLaw_of_exec {mk : Mem → Instr} {zp zpx abs abx aby izx izy : Byte} {result : Byte → Bool → Byte}
    {f : Cpu → Byte → Byte → Nat → Cpu}
    (hexec : ∀ s m, exec (mk m) s = .next (s.afterModify m result f))
    (hdecode : ∀ l h, [zp, zpx, abs, abx, aby, izx, izy].map (fun op => decodeOp op l h) =
      [.zp l, .zpx l, .abs (word l h), .abx (word l h), .aby (word l h), .izx l, .izy l].map mk) :
    ModifyLaw mk (combinedModifies zp zpx abs abx aby izx izy) result f :=
  modifyLaw_of_exec hexec hdecode fun _ _ => rfl

/-! ## The meanings -/

section Meanings

variable (s : State)

/-- In the arithmetic of R221. -/
@[simp] theorem exec_arr (b : Byte) : exec (.arr b) s =
    let r := ((s.cpu.a &&& b) >>> 1) ||| (BitVec.ofNat 8 s.cpu.flags.c.toNat <<< 7)
    .next { s with cpu := { s.cpu with
      a := r
      flags := { s.cpu.flags with
        n := r.getLsbD 7, z := decide (r = 0#8), c := r.getLsbD 6, v := r.getLsbD 6 ^^ r.getLsbD 5 }
      cyclesLeft := 2 } } := by
  rw [shiftRight_or_carry]
  rfl

@[simp] theorem exec_axs (b : Byte) : exec (.axs b) s =
    let t := s.cpu.a &&& s.cpu.x
    .next { s with cpu := { s.cpu with x := t - b }.compared t b 2 } := rfl

end Meanings

/-- A comparison describes the difference: N and Z are its own, C says that there was no borrow (R136, R222). -/
theorem Cpu.compared_eq_resultNZ (c : Cpu) (r m : Byte) (n : Nat) :
    c.compared r m n = (c.withCarry (decide (m.toNat ≤ r.toNat))).resultNZ (r - m) n := by
  have hzero : decide (r - m = 0#8) = decide (r = m) := decide_eq_decide.mpr sub_eq_zero
  rw [Cpu.resultNZ, hzero]
  rfl

/-! ## The statements -/

/-- Settles O25: the three meanings are read-modify-writes; RLA's rotated byte is the model's by `shiftLeft_or_carry`. -/
theorem shiftThenLogic : Obligations.ShiftThenLogic := by
  simp only [Obligations.ShiftThenLogic, shiftLeft_or_carry]
  exact ⟨combinedModifyLaw_of_exec exec_slo fun _ _ => rfl, combinedModifyLaw_of_exec exec_rla fun _ _ => rfl,
    combinedModifyLaw_of_exec exec_sre fun _ _ => rfl⟩

/-- Settles O26: both meanings are read-modify-writes; RRA's rotated byte is the model's by `shiftRight_or_carry`. -/
theorem modifyThenAdd : Obligations.ModifyThenAdd := by
  simp only [Obligations.ModifyThenAdd, shiftRight_or_carry]
  exact ⟨combinedModifyLaw_of_exec exec_rra fun _ _ => rfl, combinedModifyLaw_of_exec exec_isc fun _ _ => rfl⟩

/-- Settles O27: SAX's meaning is a store, LAX's an operand read, DCP's a read-modify-write. -/
theorem storeLoadCompareCombined : Obligations.StoreLoadCompareCombined := by
  refine ⟨storeLaw_of_exec exec_sax ?saxDecode fun _ _ => rfl, memReadLaw_of_exec exec_lax ?laxDecode ?laxCost,
    combinedModifyLaw_of_exec exec_dcp fun _ _ => rfl⟩
  case saxDecode =>
    intro l h
    simp only [List.map_cons, List.map_nil]
    rfl
  case laxDecode =>
    intro l h s
    simp only [List.map_cons, List.map_nil]
    rfl
  case laxCost => simp [readCost, readCycles]

/-- Settles O28: each meaning is a chain of updates of the CPU record. ARR's rotated byte is the model's by `shiftRight_or_carry`,
and the flags AXS sets by comparing are those of the difference it stores. -/
theorem immediateCombined : Obligations.ImmediateCombined := by
  refine ⟨fun op hop s l h => ⟨?anc, rfl⟩, fun s l h => ⟨rfl, rfl⟩, fun s l h => ⟨rfl, exec_arr s l⟩,
    fun s l h => ⟨rfl, ?axs⟩⟩
  case anc =>
    have hdecode : [0x0B#8, 0x2B#8].map (fun op => decodeOp op l h) = [0x0B#8, 0x2B#8].map fun op => .anc op l := rfl
    exact List.map_inj_left.mp hdecode op hop
  case axs => simp only [exec_axs, Cpu.compared_eq_resultNZ]

/-- Settles O29: a NOP without a memory operand owes two cycles; one with a memory operand owes what reading it would, and of its
forms only absolute,X can cross a page. -/
theorem undocumentedNopsOnlyCost : Obligations.UndocumentedNopsOnlyCost := by
  intro s l h costs nops
  have hnops {ops : List Byte} {arg : NopArg} {n : Nat} (hexec : ∀ op, exec (.nopUndoc op arg) s = .next (costs n))
      (hdecode : ops.map (fun op => decodeOp op l h) = ops.map fun op => .nopUndoc op arg) : nops ops arg n :=
    fun op hop => ⟨List.map_inj_left.mp hdecode op hop, hexec op⟩
  have hmem {m : Mem} {penalty : Nat} (hpenalty : pagePenalty (.mem m) s = penalty) (op : Byte) :
      exec (.nopUndoc op (.mem m)) s = .next (costs (readCycles m + penalty)) := by
    rw [exec_nopUndoc_mem, readCost, hpenalty]
    rfl
  exact ⟨hnops (fun _ => rfl) rfl, hnops (fun _ => rfl) rfl, hnops (hmem (pagePenalty_zp s l)) rfl,
    hnops (hmem (pagePenalty_zpx s l)) rfl, hnops (hmem (pagePenalty_abs s (word l h))) rfl, hnops (hmem rfl) rfl⟩

/-- Settles O31: LAS's meaning is the read of an absolute,Y operand. -/
theorem lasMasksWithSP : Obligations.LasMasksWithSP := by
  intro s l h m v
  exact ⟨rfl, exec_las s (word l h)⟩

end Sys2Proof.Machine
end

section
/-! PROOFS. The seven unstable opcodes in the two modes of R9 (R227 to R234). -/

namespace Sys2Proof.Machine

section Modes

variable {s : State}

theorem State.afterUnstable_degraded (hmode : s.bus.params.unstableOps = .degraded) (m : Mem) (src : Byte) (f : Cpu → Cpu) :
    s.afterUnstable m src f = s.setCycles (storeCycles m) := by
  rw [State.afterUnstable, hmode]

theorem State.afterUnstable_nmos (hmode : s.bus.params.unstableOps = .nmos) (m : Mem) (src : Byte) (f : Cpu → Cpu) :
    s.afterUnstable m src f =
      { cpu := { f s.cpu with cyclesLeft := storeCycles m }
        bus := s.bus.write (unstableAddr m (unstableByte m src s) s) (unstableByte m src s) } := by
  rw [State.afterUnstable, hmode]

theorem exec_xaa_degraded (hmode : s.bus.params.unstableOps = .degraded) (b : Byte) :
    exec (.xaa b) s = .next (s.setCycles 2) := by
  simp only [exec, execXaa, hmode]

theorem exec_lxa_degraded (hmode : s.bus.params.unstableOps = .degraded) (b : Byte) :
    exec (.lxa b) s = .next (s.setCycles 2) := by
  simp only [exec, execLxa, hmode]

theorem exec_xaa_nmos (hmode : s.bus.params.unstableOps = .nmos) (b : Byte) : exec (.xaa b) s =
    .next (((s.setCycles 2).setA ((s.cpu.a ||| Config.xaaMagic) &&& s.cpu.x &&& b)).setNZ
      ((s.cpu.a ||| Config.xaaMagic) &&& s.cpu.x &&& b)) := by
  simp only [exec, execXaa, hmode]

theorem exec_lxa_nmos (hmode : s.bus.params.unstableOps = .nmos) (b : Byte) : exec (.lxa b) s =
    .next ((((s.setCycles 2).setA ((s.cpu.a ||| Config.xaaMagic) &&& b)).setX ((s.cpu.a ||| Config.xaaMagic) &&& b)).setNZ
      ((s.cpu.a ||| Config.xaaMagic) &&& b)) := by
  simp only [exec, execLxa, hmode]

end Modes

/-- Settles O32: each opcode's cell of the map is its instruction; in `degraded` mode the meaning is the cycles alone. -/
theorem degradedOpcodesAreNops : Obligations.DegradedOpcodesAreNops := by
  intro s l h hmode
  simp only [List.forall_mem_cons, List.not_mem_nil, false_implies, implies_true, and_true, exec_xaa_degraded hmode,
    exec_lxa_degraded hmode, exec_ahx, exec_tas, exec_shy, exec_shx, State.afterUnstable_degraded hmode]
  exact ⟨⟨rfl, rfl⟩, ⟨rfl, rfl⟩, ⟨rfl, rfl⟩, ⟨rfl, rfl⟩, ⟨rfl, rfl⟩, ⟨rfl, rfl⟩, ⟨rfl, rfl⟩⟩

/-- Settles O33: in `nmos` mode both meanings are chains of updates of the CPU record. -/
theorem nmosXaaLxa : Obligations.NmosXaaLxa := by
  intro s b hmode r v
  exact ⟨exec_xaa_nmos hmode b, exec_lxa_nmos hmode b⟩

/-- Settles O34: in `nmos` mode the meanings are one unstable store, TAS's with SP set. -/
theorem nmosUnstableStores : Obligations.NmosUnstableStores := by
  intro s w b hmode stored ax
  simp only [exec_ahx, exec_tas, exec_shy, exec_shx, State.afterUnstable_nmos hmode]
  exact ⟨rfl, rfl, rfl, rfl, rfl⟩

end Sys2Proof.Machine
end

section
/-! PROOFS. KIL (R225, R279): what a system cycle does at a quiet boundary, and the two-cycle loop in which KIL holds the CPU. -/

namespace Sys2Proof.Machine

/-! ## A quiet boundary -/

@[simp] theorem State.beginCycle_peek (s : State) (a : Addr) : s.beginCycle.bus.peek a = s.bus.peek a := by
  show s.bus.controllerLatchStep.peek a = s.bus.peek a
  rw [Bus.controllerLatchStep_eq]
  exact Bus.peek_congr rfl rfl a

/-- With neither interrupt taken, the next instruction is fetched (R254). -/
theorem State.dispatch_fetch {s : State} (hnmi : s.takeNmi = false) (hirq : s.takeIrq = false) :
    s.dispatch = exec s.pastBrk.fetch.1 s.pastBrk.fetch.2 := by
  rw [State.dispatch, hnmi, hirq, if_neg Bool.false_ne_true, if_neg Bool.false_ne_true]

/-- A quiet boundary takes no IRQ: I masks it, or the line is not asserted (R253, R258). -/
theorem State.AtQuietBoundary.takeIrq {s : State} (hquiet : s.AtQuietBoundary) : s.beginCycle.takeIrq = false := by
  obtain ⟨-, -, -, hclosed, hirq⟩ := hquiet
  rw [State.takeIrq]
  obtain hmasked | hlow := hirq
  · have hmasked' : s.beginCycle.irqMasked = true := (State.irqMasked_of _ (s.beginCycle_irqOpen.trans hclosed)).trans hmasked
    rw [hmasked', Bool.not_true, Bool.and_false]
  · have hlow' : s.beginCycle.cpu.irqPending = false := hlow
    rw [hlow', Bool.and_false, Bool.false_and]

/-- A quiet boundary fetches and executes. -/
theorem State.AtQuietBoundary.step_eq {s : State} (hquiet : s.AtQuietBoundary) :
    step s = mapNext (fun t => t.countDown.endCycle) (exec s.beginCycle.fetch.1 s.beginCycle.fetch.2) := by
  have hirq := hquiet.takeIrq
  obtain ⟨hcycles, hidle, hlatch, hclosed, -⟩ := hquiet
  have hnmi : s.beginCycle.takeNmi = false := hlatch
  have hpast : s.beginCycle.pastBrk = s.beginCycle := State.pastBrk_of _ (s.beginCycle_irqOpen.trans hclosed)
  rw [step_boundary hcycles hidle, State.dispatch_fetch hnmi hirq, hpast]

/-! ## One KIL -/

theorem decodeOp_kil {op : Byte} (hop : op ∈ kilOpcodes) (l h : Byte) : decodeOp op l h = .kil op := by
  have hdecode : kilOpcodes.map (fun op => decodeOp op l h) = kilOpcodes.map .kil := rfl
  exact List.map_inj_left.mp hdecode op hop

@[simp] theorem exec_kil (op : Byte) (s : State) : exec (.kil op) s = .next ((s.setCycles 2).setPC (s.cpu.pc - 1)) := rfl

/-- A KIL in storage is fetched with one read, which changes nothing but PC. -/
theorem State.fetch_kil {s : State} {op : Byte} (hop : op ∈ kilOpcodes) (hpeek : s.bus.peek s.cpu.pc = some op) :
    s.fetch = (.kil op, s.setPC (s.cpu.pc + 1)) := by
  have hbyte : s.fetchByte = (op, s.setPC (s.cpu.pc + 1)) := by
    rw [State.fetchByte_eq, Bus.read_of_peek hpeek]
    rfl
  have hcount : operandCount s.fetchByte.1 = 0 := by
    rw [hbyte, operandCount, decodeOp_kil hop]
    rfl
  rw [s.fetch_none hcount, hbyte, decodeOp_kil hop]

/-- The first of KIL's two cycles: the CPU record is as it was, one cycle is owed. -/
theorem step_kil {s : State} {op : Byte} (hop : op ∈ kilOpcodes) (hquiet : s.AtQuietBoundary)
    (hpeek : s.bus.peek s.cpu.pc = some op) : step s = .next (s.beginCycle.setCycles 1).endCycle := by
  have hfetch := State.fetch_kil (s := s.beginCycle) hop ((s.beginCycle_peek s.cpu.pc).trans hpeek)
  have hpc : s.beginCycle.cpu.pc + 1 - 1 = s.beginCycle.cpu.pc := BitVec.add_sub_cancel _ _
  rw [hquiet.step_eq, hfetch, exec_kil, State.setPC_pc, hpc]
  rfl

/-! ## The loop -/

/-- What the machine has in common at two boundaries of the loop: the CPU record but for the IRQ level, storage, and what decides
whether the boundary is quiet and NMI off. -/
structure State.LoopsTo (s t : State) : Prop where
  cpu     : t.cpu = { s.cpu with irqPending := t.cpu.irqPending }
  mem     : t.bus.mem = s.bus.mem
  cart    : t.bus.cart = s.bus.cart
  dma     : t.bus.dma = s.bus.dma
  ctrl    : t.bus.ppu.ctrl = s.bus.ppu.ctrl
  irqOpen : t.bus.irqOpen = s.bus.irqOpen

namespace State.LoopsTo

theorem refl (s : State) : s.LoopsTo s := ⟨rfl, rfl, rfl, rfl, rfl, rfl⟩

variable {s t u : State}

theorem trans (h : s.LoopsTo t) (k : t.LoopsTo u) : s.LoopsTo u where
  cpu := by rw [k.cpu, h.cpu]
  mem := k.mem.trans h.mem
  cart := k.cart.trans h.cart
  dma := k.dma.trans h.dma
  ctrl := k.ctrl.trans h.ctrl
  irqOpen := k.irqOpen.trans h.irqOpen

theorem peek (h : s.LoopsTo t) (a : Addr) : t.bus.peek a = s.bus.peek a := Bus.peek_congr h.mem h.cart a

theorem atQuietBoundary (h : s.LoopsTo t) (hquiet : s.AtQuietBoundary) (hmasked : s.cpu.flags.i = true) :
    t.AtQuietBoundary := by
  obtain ⟨hcycles, hidle, hnmi, hclosed, -⟩ := hquiet
  refine ⟨?_, by rw [h.dma, hidle], ?_, h.irqOpen.trans hclosed, .inl ?_⟩ <;> rw [h.cpu]
  · exact hcycles
  · exact hnmi
  · exact hmasked

end State.LoopsTo

/-- KIL's two cycles, with NMI off in the PPU, lead back to the boundary they started from. -/
theorem run_kil_twice {s : State} {op : Byte} (hop : op ∈ kilOpcodes) (hquiet : s.AtQuietBoundary)
    (hpeek : s.bus.peek s.cpu.pc = some op) (hoff : s.bus.ppu.ctrl.getLsbD 7 = false) :
    ∃ t, s.LoopsTo t ∧ ∀ n, Host.Core.run core (n + 2) s = Host.Core.run core n t := by
  have hstep := step_kil hop hquiet hpeek
  obtain ⟨hcycles, hidle, -⟩ := hquiet
  let first := (s.beginCycle.setCycles 1).endCycle
  obtain ⟨hcpu, -, hlatch, hmem, hcart, hdma, hctrl, hopen⟩ := owed_keeps s 1
  obtain ⟨hcpu', -, hlatch', hmem', hcart', hdma', hctrl', hopen'⟩ := owed_keeps first 0
  have howed : first.cpu.cyclesLeft = 0 + 1 := congrArg Cpu.cyclesLeft hcpu
  have hidle' : first.bus.dma.active = false := (congrArg Dma.active hdma).trans hidle
  refine ⟨_, ⟨?cpu, hmem'.trans hmem, hcart'.trans hcart, hdma'.trans hdma, hctrl'.trans hctrl, hopen'.trans hopen⟩,
    fun n => (run_next hstep (n + 1)).trans (run_next (step_owed howed hidle') n)⟩
  case cpu =>
    have hnmi := (hlatch' (by rw [hctrl, hoff])).trans (hlatch hoff)
    rw [hcpu', hnmi, hcpu, ← hcycles]

/-- So after any number of them the machine is where it was. -/
theorem run_kil {op : Byte} (hop : op ∈ kilOpcodes) (n : Nat) : ∀ s : State, s.AtQuietBoundary →
    s.bus.peek s.cpu.pc = some op → s.cpu.flags.i = true → s.bus.ppu.ctrl.getLsbD 7 = false →
    ∃ t, Host.Core.run core (2 * n) s = .next t ∧ s.LoopsTo t := by
  induction n with
  | zero => exact fun s _ _ _ _ => ⟨s, rfl, .refl s⟩
  | succ n ih =>
    intro s hquiet hpeek hmasked hoff
    obtain ⟨t, loops, hrun⟩ := run_kil_twice hop hquiet hpeek hoff
    have hpc : t.cpu.pc = s.cpu.pc := by rw [loops.cpu]
    have hflags : t.cpu.flags = s.cpu.flags := by rw [loops.cpu]
    obtain ⟨u, hgo, loops'⟩ := ih t (loops.atQuietBoundary hquiet hmasked) (by rw [loops.peek, hpc, hpeek])
      (by rw [hflags, hmasked]) (by rw [loops.ctrl, hoff])
    exact ⟨u, (hrun (2 * n)).trans hgo, loops.trans loops'⟩

/-- Settles O30: KIL's meaning puts PC back on it, so its first cycle is `step_kil` and any number of them `run_kil`. -/
theorem kilLocksPC : Obligations.KilLocksPC := by
  refine ⟨fun s l h op hop => ⟨decodeOp_kil hop l h, rfl⟩, fun s op hop hquiet hpeek => ?once,
    fun s n op hop hquiet hpeek hmasked hoff => ?forever⟩
  case once =>
    obtain ⟨hcpu, -, -, hmem, hcart, -⟩ := owed_keeps s 1
    refine ⟨_, step_kil hop hquiet hpeek, ?_⟩
    rw [Bus.peek_congr hmem hcart, hcpu]
    exact ⟨rfl, rfl, rfl, rfl, rfl, rfl, rfl, hpeek⟩
  case forever =>
    obtain ⟨t, hrun, loops⟩ := run_kil hop n s hquiet hpeek hmasked hoff
    exact ⟨t, hrun, loops.cpu, loops.mem, (loops.peek _).trans hpeek, loops.atQuietBoundary hquiet hmasked⟩

end Sys2Proof.Machine
end

section
/-! PROOFS. What one system cycle can do (R257), and what every cycle keeps: it answers a next state, one cycle later, and the
machine's invariant. -/

namespace Sys2Proof.Machine

/-! ## The three kinds of system cycle -/

/-- With DMA active a system cycle is one DMA half-cycle and the cycle's end (R264). -/
theorem step_dma {s : State} (hdma : s.bus.dma.active = true) :
    step s = .next (State.endCycle { s.beginCycle with bus := s.beginCycle.bus.dmaStep }) := by
  have hdma' : s.beginCycle.bus.dma.active = true := by rw [s.beginCycle_dma, hdma]
  show mapNext State.endCycle (if s.beginCycle.bus.dma.active = true then _ else _) = _
  rw [if_pos hdma']
  rfl

/-- A system cycle is a DMA half-cycle, the count-down of an owed cycle, or what the boundary answers, between the cycle's
beginning and its end. -/
theorem step_cases {s t : State} (h : step s = .next t) :
    t = State.endCycle { s.beginCycle with bus := s.beginCycle.bus.dmaStep } ∨
    (∃ n, s.cpu.cyclesLeft = n + 1 ∧ t = (s.beginCycle.setCycles n).endCycle) ∨
    ∃ u, s.beginCycle.dispatch = .next u ∧ t = u.countDown.endCycle := by
  cases hdma : s.bus.dma.active with
  | true => exact .inl (Host.Outcome.next.inj (h.symm.trans (step_dma hdma)))
  | false =>
    cases hcycles : s.cpu.cyclesLeft with
    | succ n => exact .inr (.inl ⟨n, rfl, Host.Outcome.next.inj (h.symm.trans (step_owed hcycles hdma))⟩)
    | zero =>
      obtain ⟨u, hu, -⟩ := s.beginCycle.dispatch_pending
      rw [step_boundary hcycles hdma, hu] at h
      exact .inr (.inr ⟨u, hu, (Host.Outcome.next.inj h).symm⟩)

/-! ## A DMA half-cycle -/

/-- The bus access of a half-cycle that is no alignment cycle (R263): none at index 0, then in turn a read from the page and a
write of the byte read to OAM data. -/
def Bus.dmaAccess (b : Bus) : Bus :=
  if b.dma.index = 0 then b
  else if b.dma.index % 2 = 1 then
    let r := b.read (BitVec.ofNat 16 (b.dma.page.toNat * 256 + (b.dma.index - 1) / 2))
    { r.2 with dma := { r.2.dma with latch := r.1 } }
  else b.write 0x2004#16 b.dma.latch

/-- The next index; after 512 the DMA is over. -/
def Dma.counted (d : Dma) : Dma :=
  if d.index + 1 = 513 then { d with active := false, index := 0 } else { d with index := d.index + 1 }

theorem Bus.dmaStep_align (b : Bus) (h : b.dma.align = true) : b.dmaStep = { b with dma := { b.dma with align := false } } := by
  rw [Bus.dmaStep, if_pos h]

/-- A half-cycle is its access, and then the index counts. -/
theorem Bus.dmaStep_aligned (b : Bus) (h : b.dma.align = false) :
    b.dmaStep = { b.dmaAccess with dma := b.dmaAccess.dma.counted } := by
  have hstep : b.dmaStep = if b.dmaAccess.dma.index + 1 = 513 then
      { b.dmaAccess with dma := { b.dmaAccess.dma with active := false, index := 0 } }
      else { b.dmaAccess with dma := { b.dmaAccess.dma with index := b.dmaAccess.dma.index + 1 } } := by
    rw [Bus.dmaStep, h, if_neg Bool.false_ne_true]
    rfl
  rw [hstep, Dma.counted]
  split <;> rfl

/-! ## The boundary -/

/-- Fetching reads the bus and writes nothing (R84). -/
theorem State.fetch_touched (s : State) : s.bus.Touched [] s.fetch.2.bus := by
  unfold State.fetch
  dsimp only
  split
  · exact .read .same _
  · dsimp only
    split
    · exact .read .same _
    · exact .read (.read .same _) _
  · exact .read (.read (.read .same _) _) _

/-- A boundary runs one instruction, from a bus that differs from the one past BRK by the reads of a fetch alone (R254). -/
theorem State.dispatch_cases (s : State) : ∃ i u, s.dispatch = exec i u ∧ s.pastBrk.bus.Touched [] u.bus := by
  unfold State.dispatch
  split
  · exact ⟨_, _, rfl, .same⟩
  · split
    · exact ⟨_, _, rfl, .same⟩
    · exact ⟨_, _, rfl, s.pastBrk.fetch_touched⟩

/-! ## The cycle count -/

theorem Bus.apuStep_sysCycles (b : Bus) : b.apuStep.sysCycles = b.sysCycles := by
  unfold Bus.apuStep Bus.dmcTick
  split
  · rfl
  · split
    · rw [Bus.dmcAdvance_eq]
      exact Bus.read_sysCycles _ _
    · rfl

theorem State.ppuDot_sysCycles (s : State) : s.ppuDot.bus.sysCycles = s.bus.sysCycles := by
  show (Bus.mapperHook _).sysCycles = _
  rw [Bus.mapperHook_eq]

/-- The end of a system cycle counts it (R257). -/
theorem State.endCycle_sysCycles (s : State) : s.endCycle.bus.sysCycles = s.bus.sysCycles + 1 := by
  show (State.ppuDot _).bus.sysCycles + 1 = _
  rw [State.ppuDot_sysCycles, State.ppuDot_sysCycles, State.ppuDot_sysCycles, Bus.apuStep_sysCycles]

@[simp] theorem State.beginCycle_sysCycles (s : State) : s.beginCycle.bus.sysCycles = s.bus.sysCycles := by
  show s.bus.controllerLatchStep.sysCycles = s.bus.sysCycles
  rw [Bus.controllerLatchStep_eq]

theorem Bus.dmaStep_sysCycles (b : Bus) : b.dmaStep.sysCycles = b.sysCycles := by
  cases halign : b.dma.align with
  | true => rw [b.dmaStep_align halign]
  | false =>
    rw [b.dmaStep_aligned halign]
    show b.dmaAccess.sysCycles = b.sysCycles
    unfold Bus.dmaAccess
    split
    · rfl
    · split
      · exact b.read_sysCycles _
      · exact b.write_sysCycles _ _

theorem State.dispatch_sysCycles {s t : State} (h : s.dispatch = .next t) : t.bus.sysCycles = s.bus.sysCycles := by
  obtain ⟨i, u, hexec, hreads⟩ := s.dispatch_cases
  obtain ⟨-, -, hrun⟩ := (exec_does (hexec.symm.trans h)).touched.keeps
  obtain ⟨-, -, hfetch⟩ := hreads.keeps
  rw [hrun, hfetch, State.pastBrk_eq]

/-- Settles O48: `exec` and the step answer a next state (`exec_framed`, `step_pending`), and whatever a system cycle does before
its end keeps the count. -/
theorem everyStepGoesOn : Obligations.EveryStepGoesOn := by
  refine ⟨fun i s => ?_, fun s => ?_, fun s t h => ?_⟩
  · obtain ⟨t, ht, -⟩ := exec_framed i s
    exact ⟨t, ht⟩
  · obtain ⟨c, hc, -⟩ := step_pending s
    exact ⟨_, hc⟩
  · obtain rfl | ⟨n, -, rfl⟩ | ⟨u, hu, rfl⟩ := step_cases h
    · rw [State.endCycle_sysCycles, Bus.dmaStep_sysCycles, State.beginCycle_sysCycles]
    · rw [State.endCycle_sysCycles, State.setCycles_bus, State.beginCycle_sysCycles]
    · rw [State.endCycle_sysCycles, State.countDown, State.setCycles_bus, State.dispatch_sysCycles hu,
        State.beginCycle_sysCycles]

/-! ## The invariant -/

theorem State.beginCycle_inv {s : State} (h : s.Inv) : s.beginCycle.Inv := ⟨Bus.controllerLatchStep_inv h.bus, h.cycles⟩

theorem State.ppuDot_bus_inv {s : State} (h : s.bus.Inv) : s.ppuDot.bus.Inv :=
  Bus.mapperHook_inv (h.setPpu (Ppu.dot_inv h.ppu))

theorem State.endCycle_bus_inv {s : State} (h : s.bus.Inv) : s.endCycle.bus.Inv :=
  { State.ppuDot_bus_inv (State.ppuDot_bus_inv
      (State.ppuDot_bus_inv (s := { s with bus := s.bus.apuStep }) (Bus.apuStep_inv h))) with }

theorem State.endCycle_inv {s : State} (h : s.Inv) : s.endCycle.Inv :=
  ⟨State.endCycle_bus_inv h.bus, by rw [s.endCycle_keeps.cpu]; exact h.cycles⟩

theorem State.pastBrk_bus_inv {s : State} (h : s.bus.Inv) : s.pastBrk.bus.Inv := by
  rw [State.pastBrk_eq]
  exact { h with }

/-- What a boundary answers keeps the bus's invariant and owes one cycle more than a step may leave: the one that it counts. -/
theorem State.dispatch_inv {s t : State} (hbus : s.bus.Inv) (h : s.dispatch = .next t) : t.countDown.Inv := by
  obtain ⟨i, u, hexec, hreads⟩ := s.dispatch_cases
  obtain ⟨htouched, -, hcycles⟩ := exec_does (hexec.symm.trans h)
  exact ⟨htouched.inv (hreads.inv (State.pastBrk_bus_inv hbus)), Nat.sub_le_sub_right hcycles 1⟩

/-- Settles O49: each kind of system cycle keeps the invariant, and so do a cycle's beginning and its end. -/
theorem stepKeepsInvariant : Obligations.StepKeepsInvariant := by
  intro s t hinv h
  have hbegun := State.beginCycle_inv hinv
  obtain rfl | ⟨n, howed, rfl⟩ | ⟨u, hu, rfl⟩ := step_cases h
  · exact State.endCycle_inv ⟨Bus.dmaStep_inv hbegun.bus, hbegun.cycles⟩
  · have hcycles : n ≤ 7 := by have := hinv.cycles; omega
    exact State.endCycle_inv ⟨hbegun.bus, hcycles⟩
  · exact State.endCycle_inv (State.dispatch_inv hbegun.bus hu)

/-! ## DMA -/

/-- Settles O46: the half-cycle does not touch the CPU record, and the cycle's end changes in it at most the NMI latch. -/
theorem dmaFreezesCpu : Obligations.DmaFreezesCpu := by
  intro s hdma
  have keeps := State.endCycle_keeps { s.beginCycle with bus := s.beginCycle.bus.dmaStep }
  exact ⟨_, step_dma hdma, rfl, keeps.cpu, keeps.latch⟩

end Sys2Proof.Machine
end

section
/-! PROOFS. What a boundary runs (R253, R254), the entries to a handler and the return from one (R182, R183, R255, R256), and the
fetch of an instruction that stands in storage. -/

namespace Sys2Proof.Machine

/-! ## Which interrupt a boundary takes -/

/-- The controller latch draws no free value. -/
@[simp] theorem State.beginCycle_draws (s : State) : s.beginCycle.bus.draws = s.bus.draws := by
  show s.bus.controllerLatchStep.draws = s.bus.draws
  rw [Bus.controllerLatchStep_eq]

@[simp] theorem State.beginCycle_irqMasked (s : State) : s.beginCycle.irqMasked = s.irqMasked := by
  rw [State.irqMasked, State.beginCycle_irqOpen, State.beginCycle_draws]
  rfl

/-- With an IRQ remembered by BRK and I set, the free value decides (log 37). -/
theorem State.irqMasked_of_open {s : State} (hset : s.cpu.flags.i = true) (hopen : s.bus.irqOpen = true) :
    s.irqMasked = !Config.irqAfterBrk s.bus.draws := by
  rw [State.irqMasked, hset, hopen, Bool.true_and, Bool.true_and]

/-- A boundary with no DMA active, from the state at its beginning: the NMI if one is latched, else the IRQ if the line is
asserted and not masked, else the next instruction (R253, R254). -/
theorem step_boundary_eq {s : State} (hcycles : s.cpu.cyclesLeft = 0) (hidle : s.bus.dma.active = false) :
    step s = mapNext (fun t => t.countDown.endCycle)
      (if s.cpu.nmiPending then exec .nmi s.beginCycle.pastBrk.consumeNmi
        else if s.bus.irq.asserted && !s.irqMasked then exec .irq s.beginCycle.pastBrk
        else exec s.beginCycle.pastBrk.fetch.1 s.beginCycle.pastBrk.fetch.2) := by
  rw [step_boundary hcycles hidle, State.dispatch, State.takeIrq, State.beginCycle_irqMasked]
  show mapNext _ (if s.cpu.nmiPending then _ else if (!s.cpu.nmiPending && s.bus.irq.asserted && !s.irqMasked) = true then _
    else _) = _
  cases s.cpu.nmiPending <;> rfl

/-- Settles O44: each clause is `step_boundary_eq` with the NMI latch, the line and the mask at the values it names. -/
theorem boundaryTakesNmiThenIrq : Obligations.BoundaryTakesNmiThenIrq := by
  intro s hcycles hidle b finish
  have hstep := step_boundary_eq hcycles hidle
  refine ⟨fun hnmi => ?nmi, fun hnmi hclear hirq => ?irq, fun hnmi hquiet => ?fetch, fun hnmi hirq hset hopen => ?either,
    ?begun⟩
  case nmi =>
    rw [hstep, if_pos hnmi]
    rfl
  case irq =>
    rw [hstep, hnmi, hirq, State.irqMasked_of_clear s hclear]
    rfl
  case fetch =>
    have hno : (s.bus.irq.asserted && !s.irqMasked) = false := by
      obtain ⟨hset, hclosed⟩ | hlow := hquiet
      · rw [State.irqMasked_of s hclosed, hset, Bool.not_true, Bool.and_false]
      · rw [hlow, Bool.false_and]
    rw [hstep, hnmi, hno]
    rfl
  case either =>
    rw [hstep, hnmi, hirq, State.irqMasked_of_open hset hopen, Bool.not_not, Bool.true_and]
    rfl
  case begun =>
    show s.beginCycle.pastBrk = _
    rw [State.pastBrk_eq, State.beginCycle_irqOpen, State.beginCycle_draws]
    rfl

/-! ## Entering a handler -/

/-- Entering a handler, in the words of the statements: three pushes, I, the vector. -/
theorem State.enterHandler_eq_enteredAt (s : State) (ret vector : Addr) (b : Bool) :
    (s.setCycles 7).enterHandler ret vector b = enteredAt ret vector (statusSum b s.cpu.flags) s := by
  have htwo : s.cpu.sp - 1 - 1 = s.cpu.sp - 2 := BitVec.sub_sub _ _ _
  have hthree : s.cpu.sp - 2 - 1 = s.cpu.sp - 3 := BitVec.sub_sub _ _ _
  rw [State.enterHandler_eq, enteredAt, busAfterEntryPushes, ← (statusByteRoundTrip.1 s.cpu.flags b).1, ← hthree, ← htwo]
  rfl

section Entries

variable (s : State)

@[simp] theorem exec_nmi : exec .nmi s = .next (enteredAt s.cpu.pc nmiVector (statusSum false s.cpu.flags) s) :=
  congrArg _ (s.enterHandler_eq_enteredAt ..)

@[simp] theorem exec_irq : exec .irq s = .next (enteredAt s.cpu.pc irqVector (statusSum false s.cpu.flags) s) :=
  congrArg _ (s.enterHandler_eq_enteredAt ..)

@[simp] theorem exec_brk : exec .brk s =
    .next ((enteredAt (s.cpu.pc + 1) irqVector (statusSum true s.cpu.flags) s).setIrqOpen s.cpu.irqPending) :=
  congrArg (fun t : State => Host.Outcome.next (t.setIrqOpen s.cpu.irqPending)) (s.enterHandler_eq_enteredAt ..)

variable (ret vector : Addr) (status : Byte)

/-- The pushes go to working RAM and start no DMA; neither do the reads of the vector. -/
theorem enteredAt_dma : (enteredAt ret vector status s).bus.dma = s.bus.dma := by
  show (((busAfterEntryPushes ret status s).read _).2.read _).2.dma = s.bus.dma
  rw [Bus.read_dma, Bus.read_dma, busAfterEntryPushes, Bus.write_ram _ (stackAddr_lt _), Bus.write_ram _ (stackAddr_lt _),
    Bus.write_ram _ (stackAddr_lt _)]

/-- What the stack holds in the handler is what the pushes left there: reading the vector changes no storage. -/
theorem enteredAt_read_stack (p : Byte) : ((enteredAt ret vector status s).bus.read (stackAddr p)).1 =
    ((busAfterEntryPushes ret status s).read (stackAddr p)).1 := by
  have hmem : (enteredAt ret vector status s).bus.mem = (busAfterEntryPushes ret status s).mem :=
    (Bus.read_mem _ _).trans (Bus.read_mem _ _)
  rw [Bus.read_stackAddr, Bus.read_stackAddr, hmem]

end Entries

/-- Settles O20: the entries by their meanings; BRK's seven cycles lead to a boundary at which I is set and what BRK remembered
still stands, and `step_boundary_eq` says what is run there. -/
theorem handlerEntries : Obligations.HandlerEntries := by
  intro s l h
  refine ⟨rfl, exec_brk s, exec_nmi s, exec_irq s, fun hidle hirq => ?_⟩
  generalize ht : (enteredAt (s.cpu.pc + 1) irqVector (statusSum true s.cpu.flags) s).setIrqOpen s.cpu.irqPending = t
  have hcpu : t.cpu.cyclesLeft = 7 ∧ t.cpu.flags.i = true := by rw [← ht]; exact ⟨rfl, rfl⟩
  have hdma : t.bus.dma.active = false := by rw [← ht, State.setIrqOpen_dma, enteredAt_dma, hidle]
  have hopen : t.bus.irqOpen = true := by rw [← ht, State.setIrqOpen_irqOpen, hirq]
  obtain ⟨u, hrun, hu, hidle', hopen'⟩ := run_to_boundary hcpu.1 hdma
  have hcycles : u.cpu.cyclesLeft = 0 := by rw [hu]
  have hflags : u.cpu.flags = t.cpu.flags := by rw [hu]
  have hmasked : u.irqMasked = !Config.irqAfterBrk u.bus.draws :=
    State.irqMasked_of_open (by rw [hflags, hcpu.2]) (hopen'.trans hopen)
  refine ⟨t, u, (exec_brk s).trans (congrArg _ ht), hrun, hcycles, hflags, by rw [hu], by rw [hu], ?_⟩
  rw [step_boundary_eq hcycles hidle', hmasked, Bool.not_not]

/-! ## Leaving it -/

/-- RTI straight after an entry finds the status byte and the return address where the entry pushed them. -/
theorem leaveHandler_enteredAt {s : State} (hwf : s.bus.mem.wf = true) (ret vector : Addr) (f : Flags) (b : Bool) :
    ((enteredAt ret vector (statusSum b f) s).setCycles 6).leaveHandler.cpu =
      { s.cpu with pc := ret, flags := f, cyclesLeft := 6 } := by
  have hwf1 := Bus.write_stack_wf hwf s.cpu.sp (hiByte ret)
  have hwf2 := Bus.write_stack_wf hwf1 (s.cpu.sp - 1) (loByte ret)
  have hstack (p : Byte) := enteredAt_read_stack s ret vector (statusSum b f) p
  simp only [busAfterEntryPushes, Bus.read_write_stack hwf2, Bus.read_write_stack hwf1, Bus.read_write_stack hwf] at hstack
  have hsp : s.cpu.sp - 3 + 1 = s.cpu.sp - 2 ∧ s.cpu.sp - 3 + 2 = s.cpu.sp - 1 ∧ s.cpu.sp - 3 + 3 = s.cpu.sp := by
    refine ⟨?_, ?_, ?_⟩ <;> bv_omega
  have hne : s.cpu.sp - 1 ≠ s.cpu.sp - 2 ∧ s.cpu.sp ≠ s.cpu.sp - 2 ∧ s.cpu.sp ≠ s.cpu.sp - 1 := by
    refine ⟨?_, ?_, ?_⟩ <;> bv_omega
  have hstatus : loadStatus (statusSum b f) = f := by
    rw [← (statusByteRoundTrip.1 f b).1, (statusByteRoundTrip.1 f b).2]
  have hentered : (enteredAt ret vector (statusSum b f) s).cpu.sp = s.cpu.sp - 3 := rfl
  rw [State.leaveHandler_eq]
  simp only [State.setCycles_bus, State.setCycles_sp, hentered, hsp, hstack, hne, if_true, if_false, hstatus, word_loByte_hiByte]
  rfl

/-- Settles O35: `leaveHandler_enteredAt` with the return address and the flags that the two entries push. -/
theorem interruptReturnRestores : Obligations.InterruptReturnRestores := by
  intro s hinv i hi
  have hentry : ∃ vector, exec i s = .next (enteredAt s.cpu.pc vector (statusSum false s.cpu.flags) s) := by
    simp only [List.mem_cons, List.not_mem_nil, or_false] at hi
    obtain rfl | rfl := hi
    · exact ⟨_, exec_nmi s⟩
    · exact ⟨_, exec_irq s⟩
  obtain ⟨vector, hexec⟩ := hentry
  exact ⟨_, _, hexec, rfl, exec_rti _, leaveHandler_enteredAt hinv.bus.mem_wf _ _ _ _⟩

/-! ## Fetching an instruction that stands in storage -/

section StoredFetch

variable {s : State}

/-- Fetching a byte of storage gives it and moves PC past it, with no side effect. -/
theorem State.fetchByte_stored {v : Byte} (hpeek : s.bus.peek s.cpu.pc = some v) :
    s.fetchByte = (v, s.setPC (s.cpu.pc + 1)) := by
  rw [State.fetchByte_eq, Bus.read_of_peek hpeek]
  rfl

/-- Skipping a byte of storage gives it too (log 33). -/
theorem State.skipByte_stored {v : Byte} (hpeek : s.bus.peek s.cpu.pc = some v) :
    s.skipByte = (v, s.setPC (s.cpu.pc + 1)) := by
  rw [State.skipByte, hpeek]
  rfl

end StoredFetch

/-- The three shapes of a list of bytes that holds one instruction and nothing else (R81). -/
theorem decode_eq_ok {bs : List Byte} {i : Instr} (h : decode bs = .ok (i, [])) :
    (∃ op, bs = [op] ∧ operandCount op = 0 ∧ i = decodeOp op 0x00#8 0x00#8) ∨
    (∃ op l, bs = [op, l] ∧ operandCount op = 1 ∧ i = decodeOp op l 0x00#8) ∨
    ∃ op l h, bs = [op, l, h] ∧ operandCount op = 2 ∧ i = decodeOp op l h := by
  cases bs with
  | nil => cases h
  | cons op rest =>
    simp only [decode] at h
    split at h
    case h_1 hcount => cases h; exact .inl ⟨op, rfl, hcount, rfl⟩
    case h_2 l rest hcount => cases h; exact .inr (.inl ⟨op, l, rfl, hcount, rfl⟩)
    case h_3 l h' rest hcount => cases h; exact .inr (.inr ⟨op, l, h', rfl, hcount, rfl⟩)
    case h_4 => cases h

/-- An opcode of one operand byte, whether that byte is read or skipped. -/
theorem State.fetch_operand (s : State) (h : operandCount s.fetchByte.1 = 1) : s.fetch =
    let r := if operandIgnored (decodeOp s.fetchByte.1 0x00#8 0x00#8) s.fetchByte.2.bus.params.unstableOps
      then s.fetchByte.2.skipByte else s.fetchByte.2.fetchByte
    (decodeOp s.fetchByte.1 r.1 0x00#8, r.2) := by
  unfold State.fetch
  simp only [h]

/-- Fetching an instruction whose bytes stand in storage gives it and moves PC past them, with no side effect (R75, R84). -/
theorem State.fetch_stored {s : State} {bs : List Byte} {i : Instr} (hdecode : decode bs = .ok (i, []))
    (hpeek : ∀ k, (hk : k < bs.length) → s.bus.peek (s.cpu.pc + BitVec.ofNat 16 k) = some bs[k]) :
    s.fetch = (i, s.setPC (s.cpu.pc + BitVec.ofNat 16 bs.length)) := by
  have htwo : s.cpu.pc + 1 + 1 = s.cpu.pc + 2 := BitVec.add_assoc ..
  have hthree : s.cpu.pc + 2 + 1 = s.cpu.pc + 3 := BitVec.add_assoc ..
  obtain ⟨op, rfl, hcount, rfl⟩ | ⟨op, l, rfl, hcount, rfl⟩ | ⟨op, l, h, rfl, hcount, rfl⟩ := decode_eq_ok hdecode
  case inl =>
    have hop := State.fetchByte_stored (s := s) (by simpa using hpeek 0 (Nat.succ_pos _))
    rw [s.fetch_none (by rw [hop, hcount]), hop]
    rfl
  case inr.inl =>
    have hop := State.fetchByte_stored (s := s) (by simpa using hpeek 0 (Nat.succ_pos _))
    have hl : (s.setPC (s.cpu.pc + 1)).bus.peek (s.setPC (s.cpu.pc + 1)).cpu.pc = some l := hpeek 1 (Nat.lt_succ_self _)
    rw [s.fetch_operand (by rw [hop, hcount]), hop, State.fetchByte_stored hl, State.skipByte_stored hl, ite_self,
      State.setPC_pc, htwo]
    rfl
  case inr.inr =>
    have hop := State.fetchByte_stored (s := s) (by simpa using hpeek 0 (Nat.succ_pos _))
    have hl := State.fetchByte_stored (s := s.setPC (s.cpu.pc + 1)) (hpeek 1 (Nat.lt_succ_of_le (Nat.le_succ _)))
    have hh := State.fetchByte_stored (s := s.setPC (s.cpu.pc + 2)) (hpeek 2 (Nat.lt_succ_self _))
    have hl' : (s.setPC (s.cpu.pc + 1)).fetchByte = (l, s.setPC (s.cpu.pc + 2)) := by
      rw [hl, State.setPC_pc, htwo]
      rfl
    rw [s.fetch_two (by rw [hop, hcount]), hop, hl', hh, State.setPC_pc, hthree]
    rfl

/-- Settles O41: a quiet boundary fetches and executes (`step_eq`), and the cycle's beginning leaves storage and PC. -/
theorem stepRunsDecoded : Obligations.StepRunsDecoded := by
  intro s bs i hquiet hdecode hpeek
  have hfetch := State.fetch_stored (s := s.beginCycle) hdecode fun k hk => (s.beginCycle_peek _).trans (hpeek k hk)
  rw [hquiet.step_eq, hfetch]
  rfl

end Sys2Proof.Machine
end

section
/-! PROOFS. OAM DMA (R262, R263): what each half-cycle does, and how 513 of them copy a page of working RAM to OAM. -/

namespace Sys2Proof.Machine

/-! ## What leaves the OAM address alone -/

theorem Bus.read_oamAddr (b : Bus) (a : Addr) : (b.read a).2.ppu.oamAddr = b.ppu.oamAddr := by
  have hsampled : b.sampleSprites.ppu.oamAddr = b.ppu.oamAddr := by rw [Bus.sampleSprites_ppu]
  have haddr : b.ppuAddr.2.ppu.oamAddr = b.ppu.oamAddr := by unfold Bus.ppuAddr; split <;> rfl
  unfold Bus.read
  split
  · rfl
  · split
    · unfold Bus.readPpu
      split
      · exact hsampled
      · rfl
      · exact haddr
      · rfl
    · split
      · unfold Bus.readIo
        split <;> [rfl; split <;> [rfl; split <;> [rfl; split <;> rfl]]]
      · unfold Bus.readCart
        split <;> rfl

theorem Bus.apuStep_oamAddr (b : Bus) : b.apuStep.ppu.oamAddr = b.ppu.oamAddr := by
  unfold Bus.apuStep Bus.dmcTick
  split
  · rfl
  · split
    · rw [Bus.dmcAdvance_eq]
      exact Bus.read_oamAddr _ _
    · rfl

theorem Ppu.dot_oamAddr (p : Ppu) : p.dotEvents.nextDot.oamAddr = p.oamAddr := by
  have hevents : p.dotEvents.oamAddr = p.oamAddr := by
    unfold Ppu.dotEvents; dsimp only; split <;> [skip; split] <;> rfl
  unfold Ppu.nextDot
  split <;> [skip; split] <;> exact hevents

theorem State.endCycle_oamAddr (s : State) : s.endCycle.bus.ppu.oamAddr = s.bus.ppu.oamAddr := by
  show (State.ppuDot _).bus.ppu.oamAddr = _
  simp only [State.ppuDot_ppu, Ppu.dot_oamAddr, Bus.apuStep_oamAddr]

/-! ## The half-cycles -/

/-- Two states agree on storage, OAM and its address, PC and the owed cycles: on all that an OAM DMA is said to copy or to keep,
but for the DMA's own record. -/
structure State.AgreesForDma (s t : State) : Prop where
  mem     : t.bus.mem = s.bus.mem
  oam     : t.bus.ppu.oam = s.bus.ppu.oam
  oamAddr : t.bus.ppu.oamAddr = s.bus.ppu.oamAddr
  pc      : t.cpu.pc = s.cpu.pc
  cycles  : t.cpu.cyclesLeft = s.cpu.cyclesLeft

theorem State.AgreesForDma.trans {s t u : State} (h : s.AgreesForDma t) (k : t.AgreesForDma u) : s.AgreesForDma u :=
  ⟨k.mem.trans h.mem, k.oam.trans h.oam, k.oamAddr.trans h.oamAddr, k.pc.trans h.pc, k.cycles.trans h.cycles⟩

@[simp] theorem State.beginCycle_mem (s : State) : s.beginCycle.bus.mem = s.bus.mem := by
  show s.bus.controllerLatchStep.mem = s.bus.mem
  rw [Bus.controllerLatchStep_eq]

@[simp] theorem State.beginCycle_ppu (s : State) : s.beginCycle.bus.ppu = s.bus.ppu := by
  show s.bus.controllerLatchStep.ppu = s.bus.ppu
  rw [Bus.controllerLatchStep_eq]

section HalfCycles

variable {s : State}

/-- A system cycle with DMA active leaves what its half-cycle does to the bus, as far as a DMA is concerned. -/
theorem step_dma_agrees (hactive : s.bus.dma.active = true) : ∃ t, step s = .next t ∧
    State.AgreesForDma { s with bus := s.beginCycle.bus.dmaStep } t ∧ t.bus.dma = s.beginCycle.bus.dmaStep.dma := by
  have keeps := State.endCycle_keeps { s.beginCycle with bus := s.beginCycle.bus.dmaStep }
  exact ⟨_, step_dma hactive,
    ⟨keeps.mem, keeps.oam, State.endCycle_oamAddr _, by rw [keeps.cpu]; rfl, by rw [keeps.cpu]; rfl⟩, keeps.dma⟩

/-- The beginning of a system cycle touches nothing of this, whatever becomes of the DMA's record. -/
theorem State.beginCycle_agrees (s : State) (d : Dma) : s.AgreesForDma { s with bus := { s.beginCycle.bus with dma := d } } :=
  ⟨s.beginCycle_mem, congrArg Ppu.oam s.beginCycle_ppu, congrArg Ppu.oamAddr s.beginCycle_ppu, rfl, rfl⟩

/-- The alignment cycle accesses nothing. -/
theorem step_dma_align (hactive : s.bus.dma.active = true) (halign : s.bus.dma.align = true) :
    ∃ t, step s = .next t ∧ s.AgreesForDma t ∧ t.bus.dma = { s.bus.dma with align := false } := by
  obtain ⟨t, hstep, agrees, hdma⟩ := step_dma_agrees hactive
  rw [Bus.dmaStep_align _ (by rw [s.beginCycle_dma, halign])] at agrees hdma
  exact ⟨t, hstep, (s.beginCycle_agrees _).trans agrees, by rw [hdma, s.beginCycle_dma]⟩

/-- Any other half-cycle, from what its access does to the bus it begins with. -/
theorem step_dma_access (hactive : s.bus.dma.active = true) (halign : s.bus.dma.align = false) {b : Bus}
    (haccess : s.beginCycle.bus.dmaAccess = b) :
    ∃ t, step s = .next t ∧ State.AgreesForDma { s with bus := b } t ∧ t.bus.dma = b.dma.counted := by
  obtain ⟨t, hstep, agrees, hdma⟩ := step_dma_agrees hactive
  rw [Bus.dmaStep_aligned _ (by rw [s.beginCycle_dma, halign]), haccess] at agrees hdma
  exact ⟨t, hstep, ⟨agrees.mem, agrees.oam, agrees.oamAddr, agrees.pc, agrees.cycles⟩, hdma⟩

/-- Index 0 accesses nothing. -/
theorem step_dma_first (hactive : s.bus.dma.active = true) (halign : s.bus.dma.align = false) (hindex : s.bus.dma.index = 0) :
    ∃ t, step s = .next t ∧ s.AgreesForDma t ∧ t.bus.dma = { s.bus.dma with index := 1 } := by
  have haccess : s.beginCycle.bus.dmaAccess = { s.beginCycle.bus with dma := s.bus.dma } := by
    rw [Bus.dmaAccess, s.beginCycle_dma, if_pos hindex, ← s.beginCycle_dma]
  obtain ⟨t, hstep, agrees, hdma⟩ := step_dma_access hactive halign haccess
  refine ⟨t, hstep, (s.beginCycle_agrees _).trans agrees, ?_⟩
  rw [hdma, Dma.counted, hindex, if_neg (by decide)]

/-- The address a DMA reads its byte `k` from. -/
theorem dmaAddr_eq_word (page : Byte) {k : Nat} (hk : k < 256) :
    BitVec.ofNat 16 (page.toNat * 256 + k) = word (BitVec.ofNat 8 k) page := by
  apply BitVec.eq_of_toNat_eq
  rw [toNat_word, BitVec.toNat_ofNat, BitVec.toNat_ofNat]
  have := page.isLt
  omega

/-- An odd index reads a byte of the page, which in working RAM changes nothing but the DMA's latch. -/
theorem step_dma_read {k : Nat} (hactive : s.bus.dma.active = true) (halign : s.bus.dma.align = false)
    (hindex : s.bus.dma.index = 2 * k + 1) (hk : k < 256) (hpage : s.bus.dma.page.toNat < 0x20) :
    ∃ t, step s = .next t ∧ s.AgreesForDma t ∧ t.bus.dma = { s.bus.dma with
      index := 2 * k + 2, latch := s.bus.mem.read (ramIndex (word (BitVec.ofNat 8 k) s.bus.dma.page)) } := by
  have hram : (word (BitVec.ofNat 8 k) s.bus.dma.page).toNat < 0x2000 := by
    rw [toNat_word, BitVec.toNat_ofNat]
    omega
  have hbyte : (s.bus.dma.index - 1) / 2 = k := by omega
  have hodd : s.bus.dma.index % 2 = 1 := by omega
  have hread := Bus.read_of_cell (Bus.cell_ram s.beginCycle.bus hram)
  have haccess : s.beginCycle.bus.dmaAccess = { s.beginCycle.bus with dma := { s.bus.dma with
      latch := s.bus.mem.read (ramIndex (word (BitVec.ofNat 8 k) s.bus.dma.page)) } } := by
    rw [Bus.dmaAccess, s.beginCycle_dma, if_neg (by omega), if_pos hodd, hbyte, dmaAddr_eq_word _ hk, hread, s.beginCycle_mem]
    dsimp only
    rw [s.beginCycle_dma]
  obtain ⟨t, hstep, agrees, hdma⟩ := step_dma_access hactive halign haccess
  refine ⟨t, hstep, (s.beginCycle_agrees _).trans agrees, ?_⟩
  rw [hdma, Dma.counted]
  dsimp only
  rw [hindex, if_neg (by omega)]

/-- An even index writes the latch to OAM data. -/
theorem step_dma_write {k : Nat} (hactive : s.bus.dma.active = true) (halign : s.bus.dma.align = false)
    (hindex : s.bus.dma.index = 2 * k + 2) : ∃ t, step s = .next t ∧
    State.AgreesForDma { s with bus := { s.bus with ppu := s.bus.ppu.writeOam s.bus.dma.latch } } t ∧
    t.bus.dma = s.bus.dma.counted := by
  have heven : ¬ s.bus.dma.index % 2 = 1 := by omega
  have haccess : s.beginCycle.bus.dmaAccess = { s.beginCycle.bus with ppu := s.bus.ppu.writeOam s.bus.dma.latch } := by
    rw [Bus.dmaAccess, s.beginCycle_dma, if_neg (by omega), if_neg heven, Bus.write_ppu _ _ (by decide) (by decide),
      ← s.beginCycle_ppu]
    rfl
  obtain ⟨t, hstep, agrees, hdma⟩ := step_dma_access hactive halign haccess
  exact ⟨t, hstep, ⟨agrees.mem.trans s.beginCycle_mem, agrees.oam, agrees.oamAddr, agrees.pc, agrees.cycles⟩,
    hdma.trans (congrArg Dma.counted s.beginCycle_dma)⟩

end HalfCycles

/-! ## The page -/

/-- Byte `j` of a DMA's page, which lies in working RAM. -/
def Bus.pageByte (b : Bus) (j : Nat) : Byte := b.mem.read (ramIndex (word (BitVec.ofNat 8 j) b.dma.page))

/-- The place in OAM of byte `j` of a DMA that starts on the bus `b`. -/
def Bus.oamPlace (b : Bus) (j : Nat) : Nat := (b.ppu.oamAddr + BitVec.ofNat 8 j).toNat

theorem Bus.oamPlace_inj (b : Bus) {j k : Nat} (hj : j < 256) (hk : k < 256) (h : b.oamPlace j = b.oamPlace k) : j = k := by
  have heq : BitVec.ofNat 8 j = BitVec.ofNat 8 k := (BitVec.add_right_inj _).mp (BitVec.eq_of_toNat_eq h)
  have := congrArg BitVec.toNat heq
  rw [BitVec.toNat_ofNat, BitVec.toNat_ofNat] at this
  omega

/-- `t` comes from `s`, the state in which a DMA starts, with the page's first `k` bytes copied. -/
structure State.CopiedTo (s : State) (k : Nat) (t : State) : Prop where
  mem     : t.bus.mem = s.bus.mem
  pc      : t.cpu.pc = s.cpu.pc
  cycles  : t.cpu.cyclesLeft = s.cpu.cyclesLeft
  oamWf   : t.bus.ppu.oam.wf = true
  oamAddr : t.bus.ppu.oamAddr = s.bus.ppu.oamAddr + BitVec.ofNat 8 k
  copied  : ∀ j < k, t.bus.ppu.oam.read (s.bus.oamPlace j) = s.bus.pageByte j
  page    : t.bus.dma.page = s.bus.dma.page
  align   : t.bus.dma.align = false
  active  : t.bus.dma.active = decide (k < 256)
  index   : k < 256 → t.bus.dma.index = 2 * k + 1

/-- What counts as copied is the same from a state that agrees on all a DMA touches. -/
theorem State.CopiedTo.of_agrees {s u t : State} {k : Nat} (h : u.CopiedTo k t) (agrees : s.AgreesForDma u)
    (hpage : u.bus.dma.page = s.bus.dma.page) : s.CopiedTo k t := by
  have hplace (j : Nat) : u.bus.oamPlace j = s.bus.oamPlace j := by rw [Bus.oamPlace, Bus.oamPlace, agrees.oamAddr]
  have hbyte (j : Nat) : u.bus.pageByte j = s.bus.pageByte j := by rw [Bus.pageByte, Bus.pageByte, agrees.mem, hpage]
  exact ⟨h.mem.trans agrees.mem, h.pc.trans agrees.pc, h.cycles.trans agrees.cycles, h.oamWf,
    by rw [h.oamAddr, agrees.oamAddr], fun j hj => by rw [← hplace, ← hbyte, h.copied j hj], h.page.trans hpage, h.align,
    h.active, h.index⟩

/-- Two half-cycles copy one byte. -/
theorem State.CopiedTo.step {s t : State} {k : Nat} (h : s.CopiedTo k t) (hk : k < 256) (hpage : s.bus.dma.page.toNat < 0x20) :
    ∃ u, s.CopiedTo (k + 1) u ∧ ∀ n, Host.Core.run core (n + 2) t = Host.Core.run core n u := by
  have hactive : t.bus.dma.active = true := by rw [h.active, decide_eq_true hk]
  obtain ⟨v, hread, agrees, hdma⟩ := step_dma_read hactive h.align (h.index hk) hk (by rw [h.page]; exact hpage)
  have hv : v.bus.dma.active = true ∧ v.bus.dma.align = false ∧ v.bus.dma.index = 2 * k + 2 := by
    rw [hdma]
    exact ⟨hactive, h.align, rfl⟩
  obtain ⟨hvactive, hvalign, hvindex⟩ := hv
  obtain ⟨u, hwrite, agrees', hdma'⟩ := step_dma_write hvactive hvalign hvindex
  have hlatch : v.bus.dma.latch = s.bus.pageByte k := by rw [hdma, h.mem, h.page]; rfl
  have hoam : u.bus.ppu.oam = t.bus.ppu.oam.write (s.bus.oamPlace k) (s.bus.pageByte k) := by
    rw [agrees'.oam]
    simp only [Ppu.writeOam, agrees.oam, agrees.oamAddr, h.oamAddr, hlatch]
    rfl
  have hcounted : u.bus.dma.page = s.bus.dma.page ∧ u.bus.dma.align = false ∧ u.bus.dma.active = decide (k + 1 < 256) ∧
      (k + 1 < 256 → u.bus.dma.index = 2 * (k + 1) + 1) := by
    rw [hdma', Dma.counted, hvindex, hdma]
    split
    case isTrue hlast => exact ⟨h.page, h.align, (decide_eq_false (by omega)).symm, fun hmore => by omega⟩
    case isFalse hmore => exact ⟨h.page, h.align, hactive.trans (decide_eq_true (by omega)).symm, fun _ => rfl⟩
  obtain ⟨hpage', halign', hactive', hindex'⟩ := hcounted
  refine ⟨u, ⟨?mem, ?pc, ?cycles, ?oamWf, ?oamAddr, fun j hj => ?copied, hpage', halign', hactive', hindex'⟩,
    fun n => (run_next hread (n + 1)).trans (run_next hwrite n)⟩
  case mem => exact agrees'.mem.trans (agrees.mem.trans h.mem)
  case pc => exact agrees'.pc.trans (agrees.pc.trans h.pc)
  case cycles => exact agrees'.cycles.trans (agrees.cycles.trans h.cycles)
  case oamWf => rw [hoam]; exact Memory.write_wf h.oamWf _ _
  case oamAddr =>
    rw [agrees'.oamAddr]
    show v.bus.ppu.oamAddr + 1 = _
    rw [agrees.oamAddr, h.oamAddr, BitVec.add_assoc, BitVec.ofNat_add]
    rfl
  case copied =>
    rw [hoam, Memory.read_write h.oamWf]
    split
    case isTrue hplace => rw [s.bus.oamPlace_inj (by omega) hk hplace]
    case isFalse hplace => exact h.copied j (by have : j ≠ k := fun e => hplace (e ▸ rfl); omega)

/-- So 512 half-cycles after index 0, all of the page is copied. -/
theorem State.CopiedTo.run {s t : State} (h : s.CopiedTo 0 t) (hpage : s.bus.dma.page.toNat < 0x20) (k : Nat) (hk : k ≤ 256) :
    ∃ u, s.CopiedTo k u ∧ ∀ n, Host.Core.run core (n + 2 * k) t = Host.Core.run core n u := by
  induction k with
  | zero => exact ⟨t, h, fun _ => rfl⟩
  | succ k ih =>
    obtain ⟨u, hu, hrun⟩ := ih (by omega)
    obtain ⟨v, hv, hrun'⟩ := hu.step (by omega) hpage
    refine ⟨v, hv, fun n => ?_⟩
    rw [show n + 2 * (k + 1) = n + 2 + 2 * k by omega, hrun, hrun']

/-- A DMA of a page of working RAM whose alignment cycle is not due or is past: 513 half-cycles. -/
theorem run_dma {s : State} (hinv : s.Inv) (hactive : s.bus.dma.active = true) (hindex : s.bus.dma.index = 0)
    (hpage : s.bus.dma.page.toNat < 0x20) (halign : s.bus.dma.align = false) :
    ∃ t, s.CopiedTo 256 t ∧ Host.Core.run core 513 s = .next t := by
  obtain ⟨u, hfirst, agrees, hdma⟩ := step_dma_first hactive halign hindex
  have hu : s.CopiedTo 0 u := by
    refine ⟨agrees.mem, agrees.pc, agrees.cycles, by rw [agrees.oam]; exact hinv.bus.ppu.oam_wf, ?_,
      fun j hj => absurd hj (Nat.not_lt_zero j), ?_, ?_, ?_, fun _ => ?_⟩
    · rw [agrees.oamAddr, BitVec.add_zero]
    all_goals rw [hdma]
    · exact halign
    · exact hactive
  obtain ⟨t, ht, hrun⟩ := hu.run hpage 256 (Nat.le_refl _)
  exact ⟨t, ht, (run_next hfirst 512).trans (hrun 0)⟩

/-- Settles O47: `run_dma`, after the alignment cycle where it is due. -/
theorem oamDmaCopiesPage : Obligations.OamDmaCopiesPage := by
  intro s hinv hactive hindex hpage
  have hcopied {t : State} (h : s.CopiedTo 256 t) : t.bus.dma.active = false ∧ t.bus.mem = s.bus.mem ∧ t.cpu.pc = s.cpu.pc ∧
      t.cpu.cyclesLeft = s.cpu.cyclesLeft ∧
      ∀ k : Byte, t.bus.ppu.oam.read (s.bus.ppu.oamAddr + k).toNat = s.bus.mem.read (ramIndex (word k s.bus.dma.page)) := by
    refine ⟨h.active, h.mem, h.pc, h.cycles, fun k => ?_⟩
    have hk := h.copied k.toNat k.isLt
    rwa [Bus.oamPlace, Bus.pageByte, BitVec.ofNat_toNat, BitVec.setWidth_eq] at hk
  cases halign : s.bus.dma.align with
  | false =>
    obtain ⟨t, ht, hrun⟩ := run_dma hinv hactive hindex hpage halign
    exact ⟨t, hrun, hcopied ht⟩
  | true =>
    obtain ⟨u, hstep, agrees, hdma⟩ := step_dma_align hactive halign
    have hu : u.bus.dma.active = true ∧ u.bus.dma.index = 0 ∧ u.bus.dma.page = s.bus.dma.page ∧ u.bus.dma.align = false := by
      rw [hdma]
      exact ⟨hactive, hindex, rfl, rfl⟩
    obtain ⟨hactive', hindex', hpage', halign'⟩ := hu
    obtain ⟨t, ht, hrun⟩ := run_dma (stepKeepsInvariant s u hinv hstep) hactive' hindex' (by rw [hpage']; exact hpage) halign'
    exact ⟨t, (run_next hstep 513).trans hrun, hcopied (ht.of_agrees agrees hpage')⟩

end Sys2Proof.Machine
end

section
/-! PROOFS. The controller ports (R273). -/

namespace Sys2Proof.Machine

section Io

variable (b : Bus) {a : Addr} {k : Nat} (v : Byte)

theorem Bus.read_io (ha : a.toNat = 0x4000 + k) (hk : k < 0x20) : b.read a = b.readIo k := by
  rw [Bus.read, ha, if_neg (by omega), if_neg (by omega), if_pos (by omega), Nat.add_sub_cancel_left]

theorem Bus.write_io (ha : a.toNat = 0x4000 + k) (hk : k < 0x20) : b.write a v = b.writeIo k v := by
  rw [Bus.write, ha, if_neg (by omega), if_neg (by omega), if_pos (by omega), Nat.add_sub_cancel_left]

theorem Bus.read_pad1Port : b.read 0x4016#16 = b.readPad1 := by
  rw [b.read_io (k := 0x16) (by decide) (by decide), Bus.readIo, if_neg (by decide), if_pos rfl]

theorem Bus.read_pad2Port : b.read 0x4017#16 = b.readPad2 := by
  rw [b.read_io (k := 0x17) (by decide) (by decide), Bus.readIo, if_neg (by decide), if_neg (by decide), if_pos rfl]

theorem Bus.write_strobe : b.write 0x4016#16 v = { b with strobe := v.getLsbD 0 } := by
  rw [b.write_io v (k := 0x16) (by decide) (by decide), Bus.writeIo, if_neg (by decide), if_pos rfl]

end Io

/-! ## One register -/

/-- After `k` reads a register just loaded has its first `k` bits shifted out. -/
theorem Pad.shifted_reload (p : Pad) {k : Nat} (hk : k ≤ 8) :
    (Pad.shifted false)^[k] p.reload = { p with shift := p.buttons >>> k, left := 8 - k } := by
  induction k with
  | zero => rw [BitVec.ushiftRight_zero]; rfl
  | succ k ih =>
    have hleft : (8 - k == 0) = false := beq_eq_false_iff_ne.mpr (by omega)
    rw [Function.iterate_succ_apply', ih (by omega), Pad.shifted]
    simp only [hleft, Bool.or_self, Bool.false_eq_true, if_false, BitVec.shiftRight_add]
    rfl

/-- Its next bit is button `k`. -/
theorem Pad.bit_reload (p : Pad) {k : Nat} (hk : k < 8) (o : Byte) :
    ((Pad.shifted false)^[k] p.reload).bit false o = p.buttons.getLsbD k := by
  have hleft : (8 - k == 0) = false := beq_eq_false_iff_ne.mpr (by omega)
  rw [p.shifted_reload (by omega), Pad.bit]
  simp only [hleft, Bool.or_self, Bool.false_eq_true, if_false, BitVec.getLsbD_ushiftRight, Nat.add_zero]

/-! ## A port -/

/-- A read of `a` gives the serial bit of the register `pad` and shifts it. -/
def ReadsPad (a : Addr) (pad : Bus → Pad) : Prop :=
  ∀ b : Bus, (∃ o, (b.read a).1.getLsbD 0 = (pad b).bit b.strobe o) ∧ pad (b.read a).2 = (pad b).shifted b.strobe

/-- A byte made of seven bits and the serial bit has the serial bit in bit 0. -/
theorem getLsbD_zero_append_ofBool (x : BitVec 7) (c : Bool) : (x ++ BitVec.ofBool c).getLsbD 0 = c := by
  rw [BitVec.getLsbD_append, if_pos (by decide)]
  cases c <;> rfl

theorem readsPad1 : ReadsPad 0x4016#16 Bus.pad1 := by
  intro b
  rw [b.read_pad1Port]
  exact ⟨⟨_, getLsbD_zero_append_ofBool _ _⟩, rfl⟩

theorem readsPad2 : ReadsPad 0x4017#16 Bus.pad2 := by
  intro b
  rw [b.read_pad2Port]
  exact ⟨⟨_, getLsbD_zero_append_ofBool _ _⟩, rfl⟩

section Port

variable {a : Addr} {pad : Bus → Pad}

/-- With the latch at 0, `k` reads of a port shift its register `k` times, and the latch stays. -/
theorem ReadsPad.readTimes (h : ReadsPad a pad) (k : Nat) : ∀ b : Bus, b.strobe = false →
    (readTimes k a b).strobe = false ∧ pad (readTimes k a b) = (Pad.shifted false)^[k] (pad b) := by
  induction k with
  | zero => exact fun b hlatch => ⟨hlatch, rfl⟩
  | succ k ih =>
    intro b hlatch
    obtain ⟨hlatch', hpad⟩ := ih (b.read a).2 ((b.read_keeps a).strobe.trans hlatch)
    rw [(h b).2, hlatch] at hpad
    exact ⟨hlatch', hpad⟩

/-- So read `k` of a port whose register is just loaded gives button `k`. -/
theorem ReadsPad.button (h : ReadsPad a pad) {b : Bus} (hlatch : b.strobe = false) {p : Pad} (hload : pad b = p.reload)
    {k : Nat} (hk : k < 8) : ((Machine.readTimes k a b).read a).1.getLsbD 0 = p.buttons.getLsbD k := by
  obtain ⟨hlatch', hpad⟩ := h.readTimes k b hlatch
  obtain ⟨o, hbit⟩ := (h (Machine.readTimes k a b)).1
  rw [hbit, hlatch', hpad, hload, p.bit_reload hk]

end Port

/-- Settles O57: the system cycle's reload and the write to the strobe leave both registers loaded and the latch at 0. -/
theorem controllerReadsButtonsInOrder : Obligations.ControllerReadsButtonsInOrder := by
  intro b k hstrobe loaded
  have hloaded : loaded = { b with pad1 := b.pad1.reload, pad2 := b.pad2.reload, strobe := false } := by
    show b.controllerLatchStep.write 0x4016#16 0x00#8 = _
    rw [Bus.write_strobe, Bus.controllerLatchStep, if_pos hstrobe]
    rfl
  rw [hloaded]
  exact ⟨readsPad1.button rfl rfl k.isLt, readsPad2.button rfl rfl k.isLt⟩

end Sys2Proof.Machine
end

section
/-! PROOFS. The APU's registers as the CPU reads and writes them (R272). -/

namespace Sys2Proof.Machine

section Status

variable (b : Bus)

theorem Bus.read_apuStatusPort : b.read 0x4015#16 = b.readApuStatus := by
  rw [b.read_io (k := 0x15) (by decide) (by decide), Bus.readIo, if_pos rfl]

/-- The status byte, bit by bit; bit 5 is undriven, and so is the bit of a counter that may be above 0 (log 16). -/
theorem Bus.readApuStatus_bits : ∃ o : Byte,
    b.readApuStatus.1.getLsbD 7 = b.irq.dmc ∧ b.readApuStatus.1.getLsbD 6 = b.irq.frame ∧
    b.readApuStatus.1.getLsbD 4 = (b.apu.dmcLeft != 0) ∧
    b.readApuStatus.1.getLsbD 3 = (b.apu.lengths.noise && o.getLsbD 3) ∧
    b.readApuStatus.1.getLsbD 2 = (b.apu.lengths.triangle && o.getLsbD 2) ∧
    b.readApuStatus.1.getLsbD 1 = (b.apu.lengths.pulse2 && o.getLsbD 1) ∧
    b.readApuStatus.1.getLsbD 0 = (b.apu.lengths.pulse1 && o.getLsbD 0) := by
  refine ⟨Config.deviceOpenBus b.draws, ?_⟩
  simp only [Bus.readApuStatus, Bus.openBus, Bus.drawn, BitVec.getLsbD_append]
  simp

theorem Bus.readApuStatus_irq : b.readApuStatus.2.irq = { b.irq with frame := false } := rfl

end Status

section Writes

variable (b : Bus) (v : Byte)

/-- A write to an APU register is held and leaves every other register. -/
theorem Bus.writeApu_reg (hwf : b.apu.regs.wf = true) (k j : Nat) :
    (b.writeApu k v).apu.reg j = if j = k then v else b.apu.reg j := by
  show (Apu.afterWrite k v _).regs.read j = _
  rw [Apu.afterWrite_regs]
  exact Memory.read_write hwf j k v

/-- A write to 0x4000 + k is a write to APU register `k`. -/
theorem Bus.write_apuPort {a : Addr} {k : Nat} (ha : a = BitVec.ofNat 16 (0x4000 + k)) (hk : k < 0x18) (h14 : k ≠ 0x14)
    (h16 : k ≠ 0x16) : b.write a v = b.writeApu k v := by
  rw [ha, b.write_apu hk h14 h16]

theorem Bus.write_apuStatusPort : b.write 0x4015#16 v = b.writeApu 0x15 v :=
  b.write_apuPort v rfl (by decide) (by decide) (by decide)

theorem Bus.write_frameCounter : b.write 0x4017#16 v = b.writeApu 0x17 v :=
  b.write_apuPort v rfl (by decide) (by decide) (by decide)

/-- The four registers that load a length counter (log 16). -/
theorem Bus.write_lengthLoads : (b.write 0x4003#16 v).apu.lengths.pulse1 = true ∧
    (b.write 0x4007#16 v).apu.lengths.pulse2 = true ∧ (b.write 0x400B#16 v).apu.lengths.triangle = true ∧
    (b.write 0x400F#16 v).apu.lengths.noise = true := by
  rw [b.write_apuPort v (a := 0x4003#16) (k := 0x03) rfl (by decide) (by decide) (by decide),
    b.write_apuPort v (a := 0x4007#16) (k := 0x07) rfl (by decide) (by decide) (by decide),
    b.write_apuPort v (a := 0x400B#16) (k := 0x0B) rfl (by decide) (by decide) (by decide),
    b.write_apuPort v (a := 0x400F#16) (k := 0x0F) rfl (by decide) (by decide) (by decide)]
  exact ⟨rfl, rfl, rfl, rfl⟩

/-- The enable register keeps a length counter that may be above 0 only where its bit is set. -/
theorem Bus.writeApu_status_lengths : (b.writeApu 0x15 v).apu.lengths = b.apu.lengths.enabledBy v := rfl

/-- The enable register stops the delta-modulation channel with bit 4 clear (R272). -/
theorem Bus.writeApu_status_dmc_off (h : v.getLsbD 4 = false) : (b.writeApu 0x15 v).apu.dmcLeft = 0 := by
  show (Apu.dmcEnabledBy v _).dmcLeft = 0
  rw [Apu.dmcEnabledBy, h, if_neg Bool.false_ne_true]

/-- With bit 4 set it starts an idle one, from the registers as they were. -/
theorem Bus.writeApu_status_dmc_start (h : v.getLsbD 4 = true) (hidle : b.apu.dmcLeft = 0) :
    (b.writeApu 0x15 v).apu.dmcAddr = b.apu.dmcRestart.dmcAddr ∧
      (b.writeApu 0x15 v).apu.dmcLeft = b.apu.dmcRestart.dmcLeft := by
  show (Apu.dmcEnabledBy v _).dmcAddr = _ ∧ (Apu.dmcEnabledBy v _).dmcLeft = _
  rw [Apu.dmcEnabledBy, if_pos h, if_pos hidle]
  simp only [Apu.dmcRestart, Apu.reg, Memory.read_write_other b.apu.regs (show (0x12 : Nat) ≠ 0x15 by decide),
    Memory.read_write_other b.apu.regs (show (0x13 : Nat) ≠ 0x15 by decide), and_self]

/-- And leaves a running one. -/
theorem Bus.writeApu_status_dmc_runs (h : v.getLsbD 4 = true) (hruns : b.apu.dmcLeft ≠ 0) :
    (b.writeApu 0x15 v).apu.dmcAddr = b.apu.dmcAddr ∧ (b.writeApu 0x15 v).apu.dmcLeft = b.apu.dmcLeft := by
  show (Apu.dmcEnabledBy v _).dmcAddr = _ ∧ (Apu.dmcEnabledBy v _).dmcLeft = _
  rw [Apu.dmcEnabledBy, if_pos h, if_neg hruns]
  exact ⟨rfl, rfl⟩

end Writes

/-- A sample's first address is below 2^16 for every byte of 0x4012. -/
theorem Apu.dmcRestart_addr (a : Apu) : a.dmcRestart.dmcAddr.toNat = 0xC000 + 64 * (a.reg 0x12).toNat := by
  have := (a.reg 0x12).isLt
  rw [Apu.dmcRestart, BitVec.toNat_ofNat]
  omega

/-- Settles O56: the read by `readApuStatus_bits`; each write is a `writeApu`, held by `writeApu_reg`. -/
theorem apuStatusPort : Obligations.ApuStatusPort := by
  intro b v r w
  have hr : r = b.readApuStatus := b.read_apuStatusPort
  have hw : w = b.writeApu 0x15 v := b.write_apuStatusPort v
  rw [hr, hw, b.write_frameCounter v, Bus.writeApu_status_lengths]
  obtain ⟨o, hdmc, hframe, hleft, hnoise, htriangle, hpulse2, hpulse1⟩ := b.readApuStatus_bits
  refine ⟨hdmc, hframe, by rw [hleft, bne_iff_ne, Nat.pos_iff_ne_zero], ?pulse1, ?pulse2, ?triangle, ?noise,
    b.readApuStatus_irq, rfl, ?pulse1Off, ?pulse2Off, ?triangleOff, ?noiseOff, b.writeApu_status_dmc_off v, ?start,
    b.writeApu_status_dmc_runs v, fun hwf => ⟨fun k hk h14 h16 j => ?held, ?mode, ?inhibit⟩, rfl, b.write_lengthLoads v⟩
  case pulse1 | pulse2 | triangle | noise =>
    intro hzero
    simp only [hpulse1, hpulse2, htriangle, hnoise, hzero, Bool.false_and]
  case pulse1Off | pulse2Off | triangleOff | noiseOff =>
    intro hoff
    simp only [Lengths.enabledBy, hoff, Bool.and_false]
  case start =>
    intro hon hidle
    obtain ⟨haddr, hlength⟩ := b.writeApu_status_dmc_start v hon hidle
    exact ⟨by rw [haddr, Apu.dmcRestart_addr], hlength⟩
  case held => rw [b.write_apu hk h14 h16, b.writeApu_reg v hwf]
  case mode => rw [Apu.fiveStep, b.writeApu_reg v hwf, if_pos rfl]
  case inhibit => rw [Apu.irqInhibit, b.writeApu_reg v hwf, if_pos rfl]

end Sys2Proof.Machine
end

section
/-! PROOFS. The PPU's ports (R270): OAM, the scroll and address registers by two writes each, VRAM data and the palette. -/

namespace Sys2Proof.Machine

/-! ## Bit vectors as numbers -/

/-- Concatenation in numbers. -/
theorem toNat_append_eq {m n : Nat} (x : BitVec m) (y : BitVec n) : (x ++ y).toNat = x.toNat * 2 ^ n + y.toNat := by
  rw [BitVec.toNat_append, ← Nat.shiftLeft_add_eq_or_of_lt y.isLt, Nat.shiftLeft_eq]

/-- A bit field in numbers. -/
theorem toNat_extractLsb'_eq {n : Nat} (x : BitVec n) (start len : Nat) :
    (x.extractLsb' start len).toNat = x.toNat / 2 ^ start % 2 ^ len := by
  rw [BitVec.extractLsb'_toNat, Nat.shiftRight_eq_div_pow]

/-! ## The registers -/

section Registers

variable (b : Bus) (v : Byte)

theorem Bus.write_ppuRegister {a : Addr} {r : Nat} (ha : a.toNat = 0x2000 + r) (hr : r < 8) : b.write a v = b.writePpu r v := by
  rw [b.write_ppu v (by omega) (by omega), show a.toNat % 8 = r by omega]

theorem Bus.write_oamAddr : b.write 0x2003#16 v = { b with ppu := { b.ppu with oamAddr := v } } :=
  b.write_ppuRegister v (r := 3) rfl (by decide)

theorem Bus.write_oamData : b.write 0x2004#16 v = { b with ppu := b.ppu.writeOam v } :=
  b.write_ppuRegister v (r := 4) rfl (by decide)

theorem Bus.write_ppuScroll : b.write 0x2005#16 v = { b with ppu := b.ppu.writeScroll v } :=
  b.write_ppuRegister v (r := 5) rfl (by decide)

theorem Bus.write_ppuAddr : b.write 0x2006#16 v = { b with ppu := b.ppu.writeAddr v } :=
  b.write_ppuRegister v (r := 6) rfl (by decide)

theorem Bus.write_ppuData : b.write 0x2007#16 v = b.writePpuData v :=
  b.write_ppuRegister v (r := 7) rfl (by decide)

theorem Bus.read_oamData : b.read 0x2004#16 = (b.ppu.oam.read b.ppu.oamAddr.toNat, b) := by
  rw [b.read_ppu (by decide) (by decide)]
  rfl

theorem Bus.read_ppuData : b.read 0x2007#16 = b.readPpuData := by
  rw [b.read_ppu (by decide) (by decide)]
  rfl

end Registers

/-! ## The address register -/

/-- The PPU address that two writes to 0x2006 give: the first byte's low six bits, then the second byte. -/
def ppuAddress (hi lo : Byte) : BitVec 15 := BitVec.ofNat 15 (hi.toNat % 0x40 * 256 + lo.toNat)

theorem toNat_ppuAddress (hi lo : Byte) : (ppuAddress hi lo).toNat = hi.toNat % 0x40 * 256 + lo.toNat := by
  have := lo.isLt
  rw [ppuAddress, BitVec.toNat_ofNat]
  omega

/-- The PPU pointed at an address. -/
def Ppu.pointedAt (a : BitVec 15) (p : Ppu) : Ppu := { p with t := a, v := a, vOpen := false, toggle := false }

theorem Ppu.writeAddr_twice {p : Ppu} (htoggle : p.toggle = false) (hi lo : Byte) :
    (p.writeAddr hi).writeAddr lo = p.pointedAt (ppuAddress hi lo) := by
  have hfirst : p.writeAddr hi = { p with t := 0#1 ++ hi.extractLsb' 0 6 ++ p.t.extractLsb' 0 8, toggle := true } := by
    rw [Ppu.writeAddr, htoggle, if_neg Bool.false_ne_true]
  have haddr : ((0#1 ++ hi.extractLsb' 0 6 ++ p.t.extractLsb' 0 8 : BitVec 15).extractLsb' 8 7 ++ lo : BitVec 15) =
      ppuAddress hi lo := by
    apply BitVec.eq_of_toNat_eq
    have := hi.isLt
    have := p.t.isLt
    simp only [toNat_append_eq, toNat_extractLsb'_eq, toNat_ppuAddress, BitVec.toNat_ofNat]
    omega
  rw [hfirst, Ppu.writeAddr, if_pos rfl]
  dsimp only
  rw [haddr]
  rfl

/-- Two writes to 0x2006 point the PPU at an address and do nothing else. -/
theorem Bus.write_ppuAddr_twice {b : Bus} (htoggle : b.ppu.toggle = false) (hi lo : Byte) :
    (b.write 0x2006#16 hi).write 0x2006#16 lo = { b with ppu := b.ppu.pointedAt (ppuAddress hi lo) } := by
  rw [Bus.write_ppuAddr, Bus.write_ppuAddr, Ppu.writeAddr_twice htoggle]

/-! ## The data port -/

section Data

variable {b : Bus} (hclosed : b.ppu.vOpen = false)
include hclosed

/-- With `v` given, an access to 0x2007 uses it. -/
theorem Bus.ppuAddr_of_closed : b.ppuAddr = (b.ppu.v, b) := by
  rw [Bus.ppuAddr, hclosed, if_neg Bool.false_ne_true]

theorem Bus.readPpuData_fst : b.readPpuData.1 =
    if isPalette b.ppu.v then b.ppu.palette.read (paletteIndex b.ppu.v) else b.ppu.readBuffer := by
  rw [Bus.readPpuData, Bus.ppuAddr_of_closed hclosed]

theorem Bus.readPpuData_v : b.readPpuData.2.ppu.v = b.ppu.v + b.ppu.increment := by
  rw [Bus.readPpuData, Bus.ppuAddr_of_closed hclosed]
  rfl

theorem Bus.writePpuData_v (z : Byte) : (b.writePpuData z).ppu.v = b.ppu.v + b.ppu.increment := by
  rw [Bus.writePpuData, Bus.ppuAddr_of_closed hclosed]
  dsimp only [Ppu.advanceV]
  split <;> rfl

/-- A write at a palette address changes the palette's entry, and `v` moves on. -/
theorem Bus.writePpuData_palette (hpal : isPalette b.ppu.v = true) (z : Byte) : b.writePpuData z =
    { b with ppu := { b.ppu with palette := b.ppu.palette.write (paletteIndex b.ppu.v) z }.advanceV b.ppu.v } := by
  rw [Bus.writePpuData, Bus.ppuAddr_of_closed hclosed]
  dsimp only
  rw [if_pos hpal]

end Data

/-! ## The scroll register -/

/-- Two writes to 0x2005: fine X and the fields of `t`, bits 11:10 as they were (log 24). -/
theorem Ppu.writeScroll_twice {p : Ppu} (htoggle : p.toggle = false) (x y : Byte) : (p.writeScroll x).writeScroll y = { p with
    t := y.extractLsb' 0 3 ++ p.t.extractLsb' 10 2 ++ y.extractLsb' 3 5 ++ x.extractLsb' 3 5
    fineX := x.extractLsb' 0 3, toggle := false } := by
  have hfirst : p.writeScroll x =
      { p with t := p.t.extractLsb' 5 10 ++ x.extractLsb' 3 5, fineX := x.extractLsb' 0 3, toggle := true } := by
    rw [Ppu.writeScroll, htoggle, if_neg Bool.false_ne_true]
  have hkept : (p.t.extractLsb' 5 10 ++ x.extractLsb' 3 5 : BitVec 15).extractLsb' 10 2 = p.t.extractLsb' 10 2 := by
    apply BitVec.eq_of_toNat_eq
    simp only [toNat_append_eq, toNat_extractLsb'_eq]
    omega
  have hcoarse : (p.t.extractLsb' 5 10 ++ x.extractLsb' 3 5 : BitVec 15).extractLsb' 0 5 = x.extractLsb' 3 5 :=
    BitVec.extractLsb'_append_eq_right
  rw [hfirst, Ppu.writeScroll, if_pos rfl]
  dsimp only
  rw [hkept, hcoarse]

/-- The four fields of a number put together from them, of 5, 5, 2 and any number of bits. -/
theorem fields_of_sum {fineY kept coarseY coarseX u : Nat} (hu : u = ((fineY * 4 + kept) * 32 + coarseY) * 32 + coarseX)
    (hkept : kept < 4) (hY : coarseY < 32) (hX : coarseX < 32) :
    u % 32 = coarseX ∧ u / 32 % 32 = coarseY ∧ u / 4096 = fineY ∧ u / 1024 % 4 = kept := by
  refine ⟨?_, ?_, ?_, ?_⟩ <;> omega

/-- The fields of `t` after two writes to 0x2005: fine Y, bits 11:10, coarse Y, coarse X. -/
theorem toNat_scrollFields (x y : Byte) (t : BitVec 15) :
    let u : BitVec 15 := y.extractLsb' 0 3 ++ t.extractLsb' 10 2 ++ y.extractLsb' 3 5 ++ x.extractLsb' 3 5
    u.toNat % 32 = x.toNat / 8 ∧ u.toNat / 32 % 32 = y.toNat / 8 ∧ u.toNat / 4096 = y.toNat % 8 ∧
      u.toNat / 1024 % 4 = t.toNat / 1024 % 4 := by
  intro u
  have hx := x.isLt
  have hy := y.isLt
  have hu : u.toNat = ((y.toNat % 8 * 4 + t.toNat / 1024 % 4) * 32 + y.toNat / 8) * 32 + x.toNat / 8 := by
    simp only [u, toNat_append_eq, toNat_extractLsb'_eq, Nat.reducePow, Nat.div_one]
    rw [Nat.mod_eq_of_lt (show y.toNat / 8 < 32 by omega), Nat.mod_eq_of_lt (show x.toNat / 8 < 32 by omega)]
  exact fields_of_sum hu (Nat.mod_lt _ (by decide)) (by omega) (by omega)

/-! ## The palette -/

/-- The PPU address that the two bytes of a CPU word below 0x4000 give is that word. -/
theorem toNat_ppuAddress_bytes {a : Addr} (ha : a.toNat < 0x4000) : (ppuAddress (hiByte a) (loByte a)).toNat = a.toNat := by
  have hword := congrArg BitVec.toNat (word_loByte_hiByte a)
  rw [toNat_word] at hword
  have hhi : (hiByte a).toNat < 0x40 := by omega
  rw [toNat_ppuAddress, Nat.mod_eq_of_lt hhi, hword]

/-- Two addresses name one of the 32 entries exactly if they agree modulo 32, or modulo 16 where both are multiples
of 4. -/
theorem paletteIndex_eq_iff (a c : BitVec 15) : paletteIndex c = paletteIndex a ↔
    a.toNat % 32 = c.toNat % 32 ∨ (a.toNat % 4 = 0 ∧ a.toNat % 16 = c.toNat % 16) := by
  unfold paletteIndex
  dsimp only
  split <;> split <;> omega

theorem isPalette_of_toNat {a : BitVec 15} (hlo : 0x3F00 ≤ a.toNat) (hhi : a.toNat < 0x4000) : isPalette a = true := by
  simp only [isPalette, decide_eq_true_eq]
  omega

section Palette

variable {b : Bus} (htoggle : b.ppu.toggle = false) {p q : Addr}
include htoggle

/-- A read of 0x2007 at a palette address gives the entry. -/
theorem Bus.read_palette (hlo : 0x3F00 ≤ q.toNat) (hhi : q.toNat < 0x4000) :
    (((b.write 0x2006#16 (hiByte q)).write 0x2006#16 (loByte q)).read 0x2007#16).1 =
      b.ppu.palette.read (paletteIndex (ppuAddress (hiByte q) (loByte q))) := by
  have hq := toNat_ppuAddress_bytes hhi
  have hpal : isPalette (ppuAddress (hiByte q) (loByte q)) = true := isPalette_of_toNat (by omega) (by omega)
  rw [Bus.write_ppuAddr_twice htoggle, Bus.read_ppuData, Bus.readPpuData_fst rfl]
  exact if_pos hpal

/-- A write to 0x2007 at a palette address leaves the entry changed and the toggle as it was. -/
theorem Bus.write_palette (hlo : 0x3F00 ≤ p.toNat) (hhi : p.toNat < 0x4000) (x : Byte) :
    let c := ((b.write 0x2006#16 (hiByte p)).write 0x2006#16 (loByte p)).write 0x2007#16 x
    c.ppu.toggle = false ∧
      c.ppu.palette = b.ppu.palette.write (paletteIndex (ppuAddress (hiByte p) (loByte p))) x := by
  have hp := toNat_ppuAddress_bytes hhi
  have hpal : isPalette (ppuAddress (hiByte p) (loByte p)) = true := isPalette_of_toNat (by omega) (by omega)
  rw [Bus.write_ppuAddr_twice htoggle, Bus.write_ppuData, Bus.writePpuData_palette rfl hpal]
  exact ⟨rfl, rfl⟩

end Palette

/-- Settles O55: OAM by what each register does; the address and scroll registers by their two writes; the data port by
the address it uses; the palette by the entry an address names. -/
theorem ppuPorts : Obligations.PpuPorts := by
  intro b x y
  refine ⟨fun hwf => ?oam, fun htoggle => ?addr, fun htoggle => ?scroll,
    fun htoggle hwf p q hp hp' hq hq' => ?palette, b.write_ppuRegister x (r := 0) rfl (by decide),
    b.write_ppuRegister x (r := 1) rfl (by decide), b.write_ppuRegister x (r := 2) rfl (by decide)⟩
  case oam =>
    rw [Bus.write_oamAddr, Bus.write_oamData, Bus.write_oamAddr, Bus.read_oamData]
    exact ⟨rfl, Memory.read_write_same hwf _ _⟩
  case addr =>
    intro c
    have hc : c = { b with ppu := b.ppu.pointedAt (ppuAddress x y) } := Bus.write_ppuAddr_twice htoggle x y
    have hv : c.ppu.v = ppuAddress x y := by rw [hc]; rfl
    have hclosed : c.ppu.vOpen = false := by rw [hc]; rfl
    refine ⟨by rw [hv, toNat_ppuAddress], by rw [hc]; rfl, by rw [hc]; rfl, fun _ z => ⟨?_, ?_, fun hbelow => ?_⟩⟩
    · rw [Bus.write_ppuData]
      exact Bus.writePpuData_v hclosed z
    · rw [Bus.read_ppuData]
      exact Bus.readPpuData_v hclosed
    · have hpal : isPalette c.ppu.v = false := by
        simp only [isPalette, decide_eq_false_iff_not]
        omega
      rw [Bus.read_ppuData, Bus.readPpuData_fst hclosed, hpal, if_neg Bool.false_ne_true]
  case scroll =>
    obtain ⟨hcoarseX, hcoarseY, hfineY, hkept⟩ := toNat_scrollFields x y b.ppu.t
    rw [Bus.write_ppuScroll, Bus.write_ppuScroll, Ppu.writeScroll_twice htoggle]
    exact ⟨by simp only [toNat_extractLsb'_eq, Nat.reducePow, Nat.div_one], hcoarseX, hcoarseY, hfineY, hkept, rfl⟩
  case palette =>
    intro pointAt aliases
    obtain ⟨htoggle', hpalette⟩ := Bus.write_palette htoggle hp hp' x
    have haliases := paletteIndex_eq_iff (ppuAddress (hiByte p) (loByte p)) (ppuAddress (hiByte q) (loByte q))
    rw [toNat_ppuAddress_bytes hp', toNat_ppuAddress_bytes hq'] at haliases
    rw [Bus.read_palette htoggle' hq hq', Bus.read_palette htoggle hq hq', hpalette, Memory.read_write hwf]
    exact if_congr haliases rfl rfl

end Sys2Proof.Machine
end

section
/-! PROOFS. The sources of vblank, NMI, frame and DMC IRQ, what clears them, and the counters that bring them about (R259 to R261,
R271, R272). -/

namespace Sys2Proof.Machine

/-! ## The position in the frame -/

/-- One dot after another. -/
theorem dotTimes_succ (n : Nat) : ∀ p : Ppu, dotTimes (n + 1) p = (dotTimes n p).dotEvents.nextDot := by
  induction n with
  | zero => exact fun p => rfl
  | succ n ih => exact fun p => ih p.dotEvents.nextDot

/-- The dots of a frame: one fewer in an odd frame with rendering enabled (R271, log 38). -/
def Ppu.frameLength (p : Ppu) : Nat := if p.oddFrame = true ∧ p.renderingOn = true then 89341 else 89342

theorem Ppu.frameLength_range (p : Ppu) : p.frameLength = 89341 ∨ p.frameLength = 89342 := by
  rw [Ppu.frameLength]
  split
  · exact .inl rfl
  · exact .inr rfl

/-- `q` is dot `n` of the frame that `p` begins. -/
structure Ppu.AtDot (p : Ppu) (n : Nat) (q : Ppu) : Prop where
  scanline : q.scanline = n / 341
  dot      : q.dot = n % 341
  oddFrame : q.oddFrame = p.oddFrame
  mask     : q.mask = p.mask

section Next

variable {p : Ppu}

/-- A dot's events do not move the line's end. -/
theorem Ppu.dotEvents_lastDot (p : Ppu) : p.dotEvents.lastDot = p.lastDot := by
  obtain ⟨hscanline, -, hmask, hodd⟩ := p.dotEvents_position
  rw [Ppu.lastDot, Ppu.lastDot, Ppu.renderingOn, Ppu.renderingOn, hscanline, hodd, hmask]

/-- The next dot of a line (R271). -/
theorem Ppu.next_in_line (h : p.dot < p.lastDot) : p.dotEvents.nextDot = { p.dotEvents with dot := p.dot + 1 } := by
  rw [Ppu.nextDot, p.dotEvents_lastDot, p.dotEvents_position.2.1, if_pos h]

/-- From a line's last dot to the next line. -/
theorem Ppu.next_line (h : ¬ p.dot < p.lastDot) (hline : p.scanline < 261) :
    p.dotEvents.nextDot = { p.dotEvents with dot := 0, scanline := p.scanline + 1 } := by
  rw [Ppu.nextDot, p.dotEvents_lastDot, p.dotEvents_position.2.1, if_neg h, p.dotEvents_position.1, if_pos hline]

/-- From a frame's last dot to the next frame, of the other parity. -/
theorem Ppu.next_frame (h : ¬ p.dot < p.lastDot) (hline : ¬ p.scanline < 261) :
    p.dotEvents.nextDot = { p.dotEvents with dot := 0, scanline := 0, oddFrame := !p.dotEvents.oddFrame } := by
  rw [Ppu.nextDot, p.dotEvents_lastDot, p.dotEvents_position.2.1, if_neg h, p.dotEvents_position.1, if_neg hline]

end Next

namespace Ppu.AtDot

variable {p q : Ppu} {n : Nat}

/-- The last dot of the line that dot `n` is in: line 261 of a short frame ends one dot early. -/
theorem lastDot_eq (h : p.AtDot n q) : q.lastDot = if n / 341 = 261 ∧ p.frameLength = 89341 then 339 else 340 := by
  have hshort : p.frameLength = 89341 ↔ p.oddFrame = true ∧ p.renderingOn = true := by
    rw [Ppu.frameLength]
    split
    case isTrue hodd => exact iff_of_true rfl hodd
    case isFalse heven => exact iff_of_false (by decide) heven
  rw [Ppu.lastDot, Ppu.renderingOn, h.scanline, h.oddFrame, h.mask]
  exact if_congr (and_congr_right fun _ => hshort.symm) rfl rfl

/-- Before the frame's end, the next dot is dot `n + 1`. -/
theorem next (h : p.AtDot n q) (hn : n + 1 < p.frameLength) : p.AtDot (n + 1) q.dotEvents.nextDot := by
  obtain ⟨hscanline, -, hmask, hodd⟩ := q.dotEvents_position
  have hlast := h.lastDot_eq
  have hlength := p.frameLength_range
  by_cases hline : q.dot < q.lastDot
  · rw [Ppu.next_in_line hline]
    rw [hlast, h.dot] at hline
    refine ⟨?_, ?_, hodd.trans h.oddFrame, hmask.trans h.mask⟩
    · show q.dotEvents.scanline = (n + 1) / 341
      rw [hscanline, h.scanline]
      split at hline <;> omega
    · show q.dot + 1 = (n + 1) % 341
      rw [h.dot]
      split at hline <;> omega
  · have hend : n % 341 = 340 ∧ n / 341 < 261 := by
      rw [hlast, h.dot] at hline
      split at hline <;> omega
    rw [Ppu.next_line hline (by rw [h.scanline]; exact hend.2)]
    refine ⟨?_, ?_, hodd.trans h.oddFrame, hmask.trans h.mask⟩
    · show q.scanline + 1 = (n + 1) / 341
      rw [h.scanline]
      omega
    · show 0 = (n + 1) % 341
      omega

/-- After a frame's last dot the next frame begins, with the other parity. -/
theorem wraps (h : p.AtDot n q) (hn : n + 1 = p.frameLength) : q.dotEvents.nextDot.scanline = 0 ∧
    q.dotEvents.nextDot.dot = 0 ∧ q.dotEvents.nextDot.oddFrame = !p.oddFrame := by
  obtain ⟨-, -, -, hodd⟩ := q.dotEvents_position
  have hlast := h.lastDot_eq
  have hlength := p.frameLength_range
  have hend : ¬ q.dot < q.lastDot ∧ ¬ q.scanline < 261 := by
    rw [hlast, h.dot, h.scanline]
    split <;> omega
  rw [Ppu.next_frame hend.1 hend.2]
  exact ⟨rfl, rfl, by rw [← h.oddFrame, ← hodd]⟩

end Ppu.AtDot

/-- From line 0 dot 0, `n` dots lead to dot `n` of the frame. -/
theorem Ppu.atDot_dotTimes {p : Ppu} (hscanline : p.scanline = 0) (hdot : p.dot = 0) (n : Nat) (hn : n < p.frameLength) :
    p.AtDot n (dotTimes n p) := by
  induction n with
  | zero => exact ⟨hscanline, hdot, rfl, rfl⟩
  | succ n ih =>
    rw [dotTimes_succ]
    exact (ih (by omega)).next hn

/-! ## The delta-modulation channel -/

section Dmc

variable (b : Bus)

/-- A byte read that is not the sample's last. -/
theorem Bus.dmcAdvance_more (h : 1 < b.apu.dmcLeft) :
    b.dmcAdvance = { b with apu := { b.apu with dmcAddr := b.apu.dmcAddr + 1, dmcLeft := b.apu.dmcLeft - 1 } } := by
  rw [Bus.dmcAdvance, if_neg (show ¬ b.apu.dmcLeft - 1 = 0 by omega)]

/-- The last byte of a looping sample: the sample starts over. -/
theorem Bus.dmcAdvance_loop (h : b.apu.dmcLeft = 1) (hloop : b.apu.dmcLoop = true) :
    b.dmcAdvance = { b with apu := b.apu.dmcRestart } := by
  rw [Bus.dmcAdvance, if_pos (show b.apu.dmcLeft - 1 = 0 by omega)]
  exact if_pos hloop

/-- The last byte of another sample: `dmc_irq`, if enabled (R261). -/
theorem Bus.dmcAdvance_last (h : b.apu.dmcLeft = 1) (hloop : b.apu.dmcLoop = false) : b.dmcAdvance = { b with
    apu := { b.apu with dmcAddr := b.apu.dmcAddr + 1, dmcLeft := 0 }
    irq := { b.irq with dmc := b.irq.dmc || b.apu.dmcIrqEnable } } := by
  have hzero : b.apu.dmcLeft - 1 = 0 := by omega
  rw [Bus.dmcAdvance, if_pos hzero]
  refine (if_neg (Bool.eq_false_iff.mp hloop)).trans ?_
  rw [hzero]
  rfl

end Dmc

/-! ## Raising and clearing -/

section Dots

variable (p : Ppu)

theorem Ppu.raisesNmi_iff : p.raisesNmi = true ↔ p.scanline = 241 ∧ p.dot = 1 ∧ p.ctrl.getLsbD 7 = true := by
  rw [Ppu.raisesNmi, Bool.and_eq_true, Bool.and_eq_true, beq_iff_eq, beq_iff_eq, and_assoc]

/-- The three kinds of dot: line 241 dot 1, line 261 dot 1, any other (R271). -/
theorem Ppu.dotEvents_eq : p.dotEvents =
    let vOpen := p.vOpen || p.rendering
    let spritesOpen := p.spritesOpen || (p.renderingOn && decide (p.scanline < 240))
    if p.scanline = 241 ∧ p.dot = 1 then { p with vOpen, spritesOpen, vblank := true }
    else if p.scanline = 261 ∧ p.dot = 1 then
      { p with vOpen, spritesOpen := false, vblank := false, spriteZero := false, spriteOverflow := false }
    else { p with vOpen, spritesOpen } := rfl

theorem Ppu.dotEvents_vblank : p.dotEvents.vblank =
    if p.scanline = 241 ∧ p.dot = 1 then true else if p.scanline = 261 ∧ p.dot = 1 then false else p.vblank := by
  rw [Ppu.dotEvents_eq]
  dsimp only
  split
  · rfl
  · split <;> rfl

/-- Line 261 dot 1 clears the sprite flags. -/
theorem Ppu.dotEvents_clears (hline : p.scanline = 261) (hdot : p.dot = 1) :
    p.dotEvents.spriteZero = false ∧ p.dotEvents.spriteOverflow = false := by
  have hne : ¬ (p.scanline = 241 ∧ p.dot = 1) := by omega
  rw [Ppu.dotEvents_eq]
  dsimp only
  rw [if_neg hne, if_pos ⟨hline, hdot⟩]
  exact ⟨rfl, rfl⟩

theorem Ppu.dotEvents_vOpen : p.dotEvents.vOpen = (p.vOpen || p.rendering) := by
  rw [Ppu.dotEvents_eq]
  dsimp only
  split
  · rfl
  · split <;> rfl

/-- Rendering opens the sprite flags in the visible lines; line 261 dot 1 closes them (log 20). -/
theorem Ppu.dotEvents_spritesOpen : p.dotEvents.spritesOpen =
    (!(decide (p.scanline = 261) && decide (p.dot = 1)) && (p.spritesOpen || p.renderingOn && decide (p.scanline < 240))) := by
  rw [Ppu.dotEvents_eq]
  dsimp only
  split
  case isTrue hvblank =>
    have hline : ¬ p.scanline = 261 := by omega
    rw [decide_eq_false hline]
    rfl
  case isFalse =>
    split
    case isTrue hclear =>
      rw [decide_eq_true hclear.1, decide_eq_true hclear.2]
      rfl
    case isFalse hother =>
      rw [← Bool.decide_and, decide_eq_false hother]
      rfl

end Dots

section Sources

variable (b : Bus) (v : Byte)

/-- The frame IRQ is raised at the last step of an uninhibited 4-step sequence (R260). -/
theorem Bus.frameTick_frame_iff : b.frameTick.irq.frame = true ↔ b.irq.frame = true ∨
    (b.apu.fiveStep = false ∧ b.apu.irqInhibit = false ∧ b.apu.frameCycle + 1 = b.params.frameSteps4) := by
  show (b.irq.frame || b.raisesFrameIrq) = true ↔ _
  rw [Bus.raisesFrameIrq, Bool.or_eq_true, Bool.and_eq_true, Bool.and_eq_true, Bool.not_eq_true', Bool.not_eq_true',
    beq_iff_eq, and_assoc]

/-- While bytes remain the channel reads one or waits (log 17). -/
theorem Bus.dmcTick_cases (h : b.apu.dmcLeft ≠ 0) :
    b.dmcTick = b.drawn ∨ b.dmcTick = (b.drawn.read b.apu.dmcAddr).2.dmcAdvance := by
  rw [Bus.dmcTick, if_neg h]
  split
  · exact .inr rfl
  · exact .inl rfl

/-- Which request flag an APU write clears. -/
theorem Bus.write_apu_irq : (b.write 0x4017#16 v).irq = { b.irq with frame := b.irq.frame && !v.getLsbD 6 } ∧
    (b.write 0x4010#16 v).irq = { b.irq with dmc := b.irq.dmc && v.getLsbD 7 } ∧
    (b.write 0x4015#16 v).irq = { b.irq with dmc := false } := by
  rw [b.write_frameCounter v, b.write_apuStatusPort v,
    b.write_apuPort v (a := 0x4010#16) (k := 0x10) rfl (by decide) (by decide) (by decide)]
  exact ⟨rfl, rfl, rfl⟩

/-- The last byte of a sample raises `dmc_irq` if it is enabled and the sample does not loop. -/
theorem Bus.dmcAdvance_irq (h : b.apu.dmcLeft = 1) :
    b.dmcAdvance.irq = { b.irq with dmc := b.irq.dmc || (!b.apu.dmcLoop && b.apu.dmcIrqEnable) } := by
  cases hloop : b.apu.dmcLoop with
  | true =>
    rw [b.dmcAdvance_loop h hloop, Bool.not_true, Bool.false_and, Bool.or_false]
  | false =>
    rw [b.dmcAdvance_last h hloop, Bool.not_false, Bool.true_and]

/-- The mapper's hook writes `mapper_irq` alone. -/
theorem Bus.mapperHook_irq : b.mapperHook =
    { b with irq := { b.irq with mapper := b.mapperHook.irq.mapper }, draws := b.mapperHook.draws } := by
  unfold Bus.mapperHook
  split <;> rfl

end Sources

/-- Settles O58: each source by its lemma above, the frame by `atDot_dotTimes` and `wraps`. -/
theorem deviceInterruptSources : Obligations.DeviceInterruptSources := by
  refine ⟨Ppu.raisesNmi_iff, Ppu.dotEvents_vblank, Ppu.dotEvents_clears, Bus.frameTick_frame_iff, fun b => ⟨rfl, rfl⟩,
    fun b => ⟨fun h => if_pos h, b.dmcTick_cases⟩,
    fun b => ⟨fun h => by rw [b.dmcAdvance_more h]; exact ⟨rfl, rfl⟩, b.dmcAdvance_irq⟩, fun b v => ?writes, fun s => ?dots,
    fun p length hscanline hdot hlength => ?frame, fun p => ⟨p.dotEvents_vOpen, p.dotEvents_spritesOpen⟩,
    fun b => ⟨rfl, rfl⟩, fun b => ⟨fun h => by rw [b.dmcAdvance_more h], fun h hloop => by rw [b.dmcAdvance_last h hloop],
      fun h hloop => ?restart⟩, fun b => ⟨fun h => ?hook, b.mapperHook_irq⟩⟩
  case writes =>
    obtain ⟨h17, h10, h15⟩ := b.write_apu_irq v
    exact ⟨h17, by rw [b.read_apuStatusPort, b.readApuStatus_irq], h10, h15⟩
  case dots =>
    show (State.ppuDot _).bus.ppu = _
    rw [State.ppuDot_ppu, State.ppuDot_ppu, State.ppuDot_ppu]
    rfl
  case frame =>
    have hlength' : length = p.frameLength := by
      simp only [hlength, Ppu.frameLength, Ppu.renderingOn, Bool.or_eq_true]
    subst hlength'
    have hat := Ppu.atDot_dotTimes hscanline hdot
    have hpos : p.frameLength - 1 + 1 = p.frameLength := by
      have := p.frameLength_range
      omega
    refine ⟨fun n hn => ⟨(hat n hn).scanline, (hat n hn).dot, (hat n hn).oddFrame⟩, ?_⟩
    have hwraps := (hat (p.frameLength - 1) (by omega)).wraps hpos
    rwa [← dotTimes_succ, hpos] at hwraps
  case restart =>
    rw [b.dmcAdvance_loop h hloop]
    exact ⟨Apu.dmcRestart_addr _, rfl⟩
  case hook => exact if_neg (Bool.eq_false_iff.mp h)

end Sys2Proof.Machine
end

section
/-! PROOFS. A system cycle that only counts owed cycles down (R296, R297). -/

namespace Sys2Proof.Machine

/-- Settles O43: with cycles owed and no DMA the step is `step_owed`, which leaves the CPU no bus access; by `owed_keeps` the
cycle's end changes in the record at most the NMI latch, and never clears it. -/
theorem owedCyclesOnlyCountDown : Obligations.OwedCyclesOnlyCountDown := by
  intro s n howed hidle
  obtain ⟨hcpu, hlatch, -⟩ := owed_keeps s n
  exact ⟨_, step_owed howed hidle, rfl, hcpu, hlatch⟩

end Sys2Proof.Machine
end

section
/-! PROOFS. The decoder and the encoder are inverse to each other (R80 to R82, R99 to R102), and the sequences the spec writes out. -/

namespace Sys2Proof

open Machine

/-! ## Facts about all opcode bytes, as tables

A fact about each opcode byte is an equation of two tables laid out as the opcode map is, so that both sides compute. -/

/-- The hex digits, in the order of the map's rows and columns. -/
def hexDigits : List (BitVec 4) :=
  [0x0#4, 0x1#4, 0x2#4, 0x3#4, 0x4#4, 0x5#4, 0x6#4, 0x7#4, 0x8#4, 0x9#4, 0xA#4, 0xB#4, 0xC#4, 0xD#4, 0xE#4, 0xF#4]

theorem mem_hexDigits : ∀ d : BitVec 4, d ∈ hexDigits := by decide

/-- What `f` gives for each opcode byte: row = high hex digit, column = low hex digit. -/
def opcodeTable {α : Type} (f : Byte → α) : List (List α) := hexDigits.map fun row => hexDigits.map fun col => f (row ++ col)

/-- Every byte has its place in the table. -/
theorem eq_of_opcodeTable_eq {α : Type} {f g : Byte → α} (htable : opcodeTable f = opcodeTable g) (op : Byte) : f op = g op := by
  have hrow := List.map_inj_left.mp htable (op.extractLsb' 4 4) (mem_hexDigits _)
  have hcell := List.map_inj_left.mp hrow (op.extractLsb' 0 4) (mem_hexDigits _)
  have hop : op.extractLsb' 4 4 ++ op.extractLsb' 0 4 = op :=
    (BitVec.extractLsb'_append_extractLsb'_eq_extractLsb' (by decide)).trans (by simp)
  rwa [hop] at hcell

/-- The operand bytes an encoding has where the bytes after the opcode were `l` and `h`: a 16-bit operand is put together and taken
apart again. -/
def reencodedOperand (l h : Byte) : Nat → List Byte
  | 0 => []
  | 1 => [l]
  | _ => [loByte (word l h), hiByte (word l h)]

section Decoded

variable (op l h : Byte)

@[simp] theorem decodeOp_wf : (decodeOp op l h).wf = true :=
  eq_of_opcodeTable_eq (f := fun op => (decodeOp op l h).wf) (g := fun _ => true) rfl op

@[simp] theorem decodeOp_isPseudo : (decodeOp op l h).isPseudo = false :=
  eq_of_opcodeTable_eq (f := fun op => (decodeOp op l h).isPseudo) (g := fun _ => false) rfl op

theorem reencodedOperand_eq_take (n : Nat) : reencodedOperand l h n = [l, h].take n := by
  match n with
  | 0 => rfl
  | 1 => rfl
  | n + 2 => simp [reencodedOperand]

theorem encode_decodeOp : encode (decodeOp op l h) = some (op :: [l, h].take (operandCount op)) := by
  rw [← reencodedOperand_eq_take]
  exact eq_of_opcodeTable_eq (f := fun op => encode (decodeOp op l h))
    (g := fun op => some (op :: reencodedOperand l h (operandCount op))) rfl op

end Decoded

/-- Settles O2: the two facts and the encoding of a cell of the map, each of which is an equation of tables. -/
theorem encodeOfDecode : Obligations.EncodeOfDecode := by
  intro op l h
  refine ⟨decodeOp_wf op l h, decodeOp_isPseudo op l h, ?_⟩
  rw [encode_decodeOp, Nat.add_comm, List.take_succ_cons]

/-! ## Decoding an opcode byte and its operand bytes -/

/-- The operand of a form, from the two bytes after the opcode byte (R81). -/
def Form.operand : Form → Byte → Byte → Mem
  | .zp, l, _ => .zp l
  | .zpx, l, _ => .zpx l
  | .zpy, l, _ => .zpy l
  | .abs, l, h => .abs (word l h)
  | .abx, l, h => .abx (word l h)
  | .aby, l, h => .aby (word l h)
  | .izx, l, _ => .izx l
  | .izy, l, _ => .izy l

/-- Whatever the bytes after it, the opcode byte decodes to the instruction that `mk` makes of an operand of form `f`. -/
def DecodesTo (op : Byte) (f : Form) (mk : Mem → Instr) : Prop :=
  ∀ l h, (operandCount op, decodeOp op l h) = ((f.operand l h).size, mk (f.operand l h))

/-- An opcode byte followed by a 16-bit operand decodes to the instruction with that operand. -/
theorem decode_word {op : Byte} {mk : Addr → Instr} (hdecode : ∀ l h, (operandCount op, decodeOp op l h) = (2, mk (word l h)))
    (w : Addr) (rest : List Byte) : decode (op :: loByte w :: hiByte w :: rest) = .ok (mk w, rest) := by
  obtain ⟨hcount, hop⟩ := Prod.mk.inj (hdecode (loByte w) (hiByte w))
  simp only [decode, hcount, hop, word_loByte_hiByte]

/-- An opcode byte followed by a byte operand decodes to the instruction with that operand. -/
theorem decode_byte {op : Byte} {mk : Byte → Instr} (hdecode : ∀ l h, (operandCount op, decodeOp op l h) = (1, mk l))
    (b : Byte) (rest : List Byte) : decode (op :: b :: rest) = .ok (mk b, rest) := by
  obtain ⟨hcount, hop⟩ := Prod.mk.inj (hdecode b 0#8)
  simp only [decode, hcount, hop]

/-- An opcode byte followed by the bytes of a memory operand decodes to the instruction with that operand. -/
theorem DecodesTo.decode_operand {op : Byte} {m : Mem} {mk : Mem → Instr} (hdecode : DecodesTo op m.form mk) (rest : List Byte) :
    decode (op :: (m.bytes ++ rest)) = .ok (mk m, rest) := by
  cases m with
  | zp b | zpx b | zpy b | izx b | izy b => exact decode_byte (mk := fun b => mk _) hdecode b rest
  | abs w | abx w | aby w => exact decode_word (mk := fun w => mk _) hdecode w rest

/-! ## Every instruction is read back from its encoding -/

/-- There is an encoding, and decoding it with any bytes after it gives the instruction and those bytes. -/
def ReadsBack (encoding : Option (List Byte)) (i : Instr) : Prop :=
  ∃ bs, encoding = some bs ∧ ∀ rest, decode (bs ++ rest) = .ok (i, rest)

/-- The opcode bytes `ops` gives the forms in `fs` decode to what `mk` makes of operands of those forms: an equation of lists, so
that it computes. -/
def OpcodesDecode (fs : List Form) (ops : List (Form × Byte)) (mk : Mem → Instr) : Prop :=
  ∀ l h, fs.map (fun f => (ops.lookup f).map fun op => (operandCount op, decodeOp op l h)) =
    fs.map fun f => some ((f.operand l h).size, mk (f.operand l h))

section Operands

variable {fs : List Form} {ops : List (Form × Byte)} {mk : Mem → Instr}

/-- A form in the list has an opcode byte, the same for all operand bytes. -/
theorem OpcodesDecode.lookup (hops : OpcodesDecode fs ops mk) {f : Form} (hf : f ∈ fs) :
    ∃ op, ops.lookup f = some op ∧ DecodesTo op f mk := by
  have hrow l h := List.map_inj_left.mp (hops l h) f hf
  obtain ⟨op, hop, -⟩ := Option.map_eq_some_iff.mp (hrow 0#8 0#8)
  refine ⟨op, hop, fun l h => ?_⟩
  simpa only [hop, Option.map_some, Option.some.injEq] using hrow l h

theorem readsBack_mem {m : Mem} (hwf : m.hasForm fs = true) (hops : OpcodesDecode fs ops mk) :
    ReadsBack (encodeMem ops m) (mk m) := by
  obtain ⟨op, hop, hdecode⟩ := hops.lookup (List.contains_iff_mem.mp hwf)
  exact ⟨op :: m.bytes, by rw [encodeMem, hop, Option.map_some], hdecode.decode_operand⟩

theorem readsBack_src {immOp : Byte} {src : Src} {mk : Src → Instr} (hwf : src.hasForm fs = true)
    (himm : ∀ l h, (operandCount immOp, decodeOp immOp l h) = (1, mk (.imm l)))
    (hops : OpcodesDecode fs ops fun m => mk (.mem m)) : ReadsBack (encodeSrc immOp ops src) (mk src) := by
  cases src with
  | imm b => exact ⟨[immOp, b], rfl, decode_byte (mk := fun b => mk (.imm b)) himm b⟩
  | mem m => exact readsBack_mem hwf hops

theorem readsBack_dst {accOp : Byte} {d : Dst} {mk : Dst → Instr} (hwf : d.hasForm fs = true)
    (hacc : ∀ rest, decode (accOp :: rest) = .ok (mk .acc, rest))
    (hops : OpcodesDecode fs ops fun m => mk (.mem m)) : ReadsBack (encodeDst accOp ops d) (mk d) := by
  cases d with
  | acc => exact ⟨[accOp], rfl, hacc⟩
  | mem m => exact readsBack_mem hwf hops

theorem readsBack_word {op : Byte} {mk : Addr → Instr} (hdecode : ∀ l h, (operandCount op, decodeOp op l h) = (2, mk (word l h)))
    (w : Addr) : ReadsBack (encodeWord op w) (mk w) :=
  ⟨[op, loByte w, hiByte w], rfl, decode_word hdecode w⟩

end Operands

/-! The instructions that carry their opcode byte. -/

theorem readsBack_anc {op : Byte} (b : Byte) (hwf : (op == 0x0B#8 || op == 0x2B#8) = true) :
    ReadsBack (encode (.anc op b)) (.anc op b) := by
  refine ⟨[op, b], if_pos hwf, fun rest => ?_⟩
  obtain rfl | rfl : op = 0x0B#8 ∨ op = 0x2B#8 := by simpa using hwf
  · rfl
  · rfl

theorem readsBack_kil {op : Byte} (hwf : kilOpcodes.contains op = true) : ReadsBack (encode (.kil op)) (.kil op) := by
  have hdecode rest : kilOpcodes.map (fun op => decode (op :: rest)) = kilOpcodes.map fun op => .ok (.kil op, rest) := rfl
  exact ⟨[op], if_pos hwf, fun rest => List.map_inj_left.mp (hdecode rest) op (List.contains_iff_mem.mp hwf)⟩

/-- The opcode bytes of the undocumented NOPs with a memory operand, by form (R224). -/
theorem decodesTo_nopUndoc {op : Byte} {m : Mem} (hop : op ∈ nopOpcodes (.mem m)) :
    DecodesTo op m.form fun m => .nopUndoc op (.mem m) := by
  intro l h
  have hdecode : (nopOpcodes (.mem m)).map (fun op => (operandCount op, decodeOp op l h)) =
      (nopOpcodes (.mem m)).map fun op => ((m.form.operand l h).size, .nopUndoc op (.mem (m.form.operand l h))) := by
    cases m <;> rfl
  exact List.map_inj_left.mp hdecode op hop

theorem readsBack_nopUndoc {op : Byte} {arg : NopArg} (hwf : (nopOpcodes arg).contains op = true) :
    ReadsBack (encode (.nopUndoc op arg)) (.nopUndoc op arg) := by
  have hop := List.contains_iff_mem.mp hwf
  cases arg with
  | imp =>
    have hdecode rest : (nopOpcodes .imp).map (fun op => decode (op :: rest)) =
      (nopOpcodes .imp).map fun op => .ok (.nopUndoc op .imp, rest) := rfl
    exact ⟨[op], if_pos hwf, fun rest => List.map_inj_left.mp (hdecode rest) op hop⟩
  | imm b =>
    have hdecode rest : (nopOpcodes (.imm b)).map (fun op => decode (op :: b :: rest)) =
      (nopOpcodes (.imm b)).map fun op => .ok (.nopUndoc op (.imm b), rest) := rfl
    exact ⟨[op, b], if_pos hwf, fun rest => List.map_inj_left.mp (hdecode rest) op hop⟩
  | mem m => exact ⟨op :: m.bytes, if_pos hwf, (decodesTo_nopUndoc hop).decode_operand⟩

/-- Every row of the opcode table is read back. -/
theorem readsBack (i : Instr) (hwf : i.wf = true) (hbytes : i.isPseudo = false) : ReadsBack (encode i) i := by
  cases i
  case nmi | irq => cases hbytes
  case lda | ldx | ldy | adc | sbc | and | ora | eor | cmp | cpx | cpy =>
    exact readsBack_src hwf (fun _ _ => rfl) fun _ _ => rfl
  case asl | lsr | rol | ror => exact readsBack_dst hwf (fun _ => rfl) fun _ _ => rfl
  case sta | stx | sty | bit | inc | dec | slo | rla | sre | rra | sax | lax | dcp | isc | ahx =>
    exact readsBack_mem hwf fun _ _ => rfl
  case jmp t =>
    cases t with
    | abs w => exact readsBack_word (mk := fun w => .jmp (.abs w)) (fun _ _ => rfl) w
    | ind w => exact readsBack_word (mk := fun w => .jmp (.ind w)) (fun _ _ => rfl) w
  case jsr | las | tas | shy | shx => exact readsBack_word (fun _ _ => rfl) _
  case anc b => exact readsBack_anc b hwf
  case kil => exact readsBack_kil hwf
  case nopUndoc => exact readsBack_nopUndoc hwf
  -- What is left has one opcode byte and no operand, or one operand byte.
  all_goals exact ⟨_, rfl, fun _ => rfl⟩

/-- Settles O1: the opcode bytes the encoder gives an operand form are those the map decodes to that form. -/
theorem decodeOfEncode : Obligations.DecodeOfEncode := by
  intro i rest hwf hbytes
  obtain ⟨bs, hencode, hdecode⟩ := readsBack i hwf hbytes
  exact ⟨bs, hencode, hdecode rest⟩

/-- Settles O3: each sequence computes. -/
theorem exampleWordsDecode : Obligations.ExampleWordsDecode :=
  ⟨rfl, rfl, rfl, rfl, rfl, rfl, rfl, rfl, rfl, rfl, rfl, rfl⟩

end Sys2Proof
end

section
/-! PROOFS. What every instruction owes, and that it agrees with the cycle table (R97, R99, R303). -/

namespace Sys2Proof.Machine

/-- The penalty of a read by form: the forms that index a 16-bit base can cross a page (R97). -/
def readPenalty : Mem → Penalty
  | .abx _ | .aby _ | .izy _ => .page
  | .zp _ | .zpx _ | .zpy _ | .abs _ | .izx _ => .none

/-- The cost of a read operand by form. -/
def srcCost : Src → Cost
  | .imm _ => ⟨2, .none⟩
  | .mem m => ⟨readCycles m, readPenalty m⟩

/-- The cost of an instruction, by class and operand form. -/
def instrCost : Instr → Cost
  | .lda src | .ldx src | .ldy src | .adc src | .sbc src | .and src | .ora src | .eor src | .cmp src | .cpx src
  | .cpy src => srcCost src
  | .bit m | .lax m | .nopUndoc _ (.mem m) => srcCost (.mem m)
  | .las w => srcCost (.mem (.aby w))
  | .sta m | .stx m | .sty m | .sax m | .ahx m => ⟨storeCycles m, .none⟩
  | .tas w | .shx w => ⟨storeCycles (.aby w), .none⟩
  | .shy w => ⟨storeCycles (.abx w), .none⟩
  | .inc m | .dec m | .slo m | .rla m | .sre m | .rra m | .dcp m | .isc m => ⟨rmwCycles m, .none⟩
  | .asl (.mem m) | .lsr (.mem m) | .rol (.mem m) | .ror (.mem m) => ⟨rmwCycles m, .none⟩
  | .bpl _ | .bmi _ | .bvc _ | .bvs _ | .bcc _ | .bcs _ | .bne _ | .beq _ => ⟨2, .branch⟩
  | .jmp t => ⟨jumpCycles t, .none⟩
  | .pha | .php => ⟨3, .none⟩
  | .pla | .plp => ⟨4, .none⟩
  | .jsr _ | .rts | .rti => ⟨6, .none⟩
  | .brk | .nmi | .irq => ⟨7, .none⟩
  | _ => ⟨2, .none⟩

/-- The map of R99 and the cycle table agree cell by cell. -/
theorem opcodeCost_eq_instrCost (op l h : Byte) : opcodeCost op = instrCost (decodeOp op l h) :=
  eq_of_opcodeTable_eq (f := opcodeCost) (g := fun op => instrCost (decodeOp op l h)) rfl op

/-- The cycles an instruction owes in a state: its base count and its penalty there. -/
def owedCycles (i : Instr) (s : State) : Nat := (instrCost i).base + penaltyCycles (instrCost i).penalty i s

section Owed

variable {i : Instr} {s : State}

/-- An instruction that reads memory owes what its operand costs: the forms marked with no penalty cannot cross a page. -/
theorem owedCycles_of_read {m : Mem} (hcost : instrCost i = srcCost (.mem m)) (hread : readOperand? i = some m) :
    owedCycles i s = readCost (.mem m) s := by
  rw [owedCycles, hcost]
  cases m <;> simp [srcCost, readPenalty, readCost, penaltyCycles, hread]

theorem owedCycles_of_branch {off : Byte} {taken : Bool} (hcost : instrCost i = ⟨2, .branch⟩)
    (hbranch : branchOf? s.cpu.flags i = some (off, taken)) : owedCycles i s = (s.branch taken off).cpu.cyclesLeft := by
  rw [owedCycles, hcost, State.branch_eq]
  cases taken with
  | false => simp [penaltyCycles, hbranch]
  | true =>
    simp only [penaltyCycles, hbranch, if_true]
    split <;> rfl

theorem State.afterUnstable_cyclesLeft (s : State) (m : Mem) (src : Byte) (f : Cpu → Cpu) :
    (s.afterUnstable m src f).cpu.cyclesLeft = storeCycles m := by
  unfold State.afterUnstable
  split <;> rfl

end Owed

/-- Every instruction answers a next state that owes its cost. -/
theorem exec_owes (i : Instr) (s : State) : ∃ t, exec i s = .next t ∧ t.cpu.cyclesLeft = owedCycles i s := by
  cases i
  case lda src | ldx src | ldy src | adc src | sbc src | and src | ora src | eor src | cmp src | cpx src | cpy src =>
    simp only [exec_lda, exec_ldx, exec_ldy, exec_adc, exec_sbc, exec_and, exec_ora, exec_eor, exec_cmp, exec_cpx, exec_cpy,
      Host.Outcome.next.injEq, exists_eq_left']
    cases src with
    | imm b => rfl
    | mem m => exact (owedCycles_of_read rfl rfl).symm
  case bit | lax | las =>
    simp only [exec_bit, exec_lax, exec_las, Host.Outcome.next.injEq, exists_eq_left']
    exact (owedCycles_of_read rfl rfl).symm
  case nopUndoc op arg =>
    cases arg with
    | mem m => exact ⟨_, exec_nopUndoc_mem s op m, (owedCycles_of_read rfl rfl).symm⟩
    | imp | imm => exact ⟨_, rfl, rfl⟩
  case sta | stx | sty | sax =>
    simp only [exec_sta, exec_stx, exec_sty, exec_sax, Host.Outcome.next.injEq, exists_eq_left']
    rfl
  case ahx | tas | shy | shx =>
    simp only [exec_ahx, exec_tas, exec_shy, exec_shx, Host.Outcome.next.injEq, exists_eq_left']
    exact State.afterUnstable_cyclesLeft s _ _ _
  case inc | dec | slo | rla | sre | rra | dcp | isc =>
    simp only [exec_inc, exec_dec, exec_slo, exec_rla, exec_sre, exec_rra, exec_dcp, exec_isc, Host.Outcome.next.injEq,
      exists_eq_left']
    rfl
  case asl d | lsr d | rol d | ror d =>
    cases d with
    | acc => exact ⟨_, rfl, rfl⟩
    | mem m =>
      simp only [exec_asl_mem, exec_lsr_mem, exec_rol_mem, exec_ror_mem, Host.Outcome.next.injEq, exists_eq_left']
      rfl
  case bpl | bmi | bvc | bvs | bcc | bcs | bne | beq => exact ⟨_, rfl, (owedCycles_of_branch rfl rfl).symm⟩
  case jmp t => cases t <;> exact ⟨_, rfl, rfl⟩
  case xaa | lxa =>
    simp only [exec, execXaa, execLxa]
    split <;> exact ⟨_, rfl, rfl⟩
  -- What is left owes the same in every state and has no operand to split on.
  all_goals exact ⟨_, rfl, rfl⟩

/-- Settles O4: what an instruction owes by class and form is what the table says of its opcode. -/
theorem cyclesMatchTable : Obligations.CyclesMatchTable := by
  refine ⟨fun op l h s => ?opcode, fun s i hi => ?entry⟩
  case opcode =>
    rw [opcodeCost_eq_instrCost op l h]
    exact exec_owes (decodeOp op l h) s
  case entry =>
    obtain ⟨t, hexec, howes⟩ := exec_owes i s
    obtain rfl | rfl : i = .nmi ∨ i = .irq := by simpa using hi
    · exact ⟨t, hexec, howes⟩
    · exact ⟨t, hexec, howes⟩

end Sys2Proof.Machine
end
